-- ==== Sys2Proof/Word.lean ====
section
/-! DEFINITION. The block's word types: fixed widths (R2, R3 of 00_scope.md) and the two memory-entry layouts
(R15, R17 of 10_state.md). Everything is unsigned (R4). -/

namespace Sys2Proof

/-- A byte, `BYTE_W = 8` (R2). -/
abbrev Byte := BitVec 8

/-- A symbol field, `SYM_W = 9` (R2). -/
abbrev SymField := BitVec 9

/-- A symbol, 0 to 256 inclusive, `NSYM = 257` (R1). It indexes `FREQ` and `CODE`. -/
abbrev Symbol := Fin 257

/-- A count, a weight, the byte counter: `W = 64` (R3, decision D4). -/
abbrev Count := BitVec 64

/-- A node index register or field, `IDX_W = 10` (R3). -/
abbrev NodeIdx := BitVec 10

/-- The `STATUS` register, 16 bits (R11). -/
abbrev StatusWord := BitVec 16

/-- The command word `cmd_op[3:0]` (R50). -/
abbrev CmdWord := BitVec 4

/-- A bit string: the head is `b_0`, the first bit in time and in the stream (R5). -/
abbrev Bits := List Bool

/-- One entry of the node memory (R15). -/
structure NodeEntry where
  /-- 1 = Leaf, 0 = Internal. -/
  leaf   : Bool
  /-- The leaf's symbol; written 0 in an Internal entry. -/
  sym    : SymField
  /-- The leaf's count, or the sum of the children's weights. -/
  weight : Count
  /-- Internal: index of the left child; written 0 in a Leaf entry. -/
  left   : NodeIdx
  /-- Internal: index of the right child; written 0 in a Leaf entry. -/
  right  : NodeIdx
deriving DecidableEq, Repr, Inhabited

/-- One entry of the code memory: a codeword as a (bit-length, value) pair (R17). -/
structure CodeEntry where
  /-- `LEN_W = 9` bits; 0 means the symbol has no code. -/
  len  : BitVec 9
  /-- `CODE_MAXLEN = 256` bits; the codeword is the low `len` bits, first bit of the path on top. -/
  bits : BitVec 256
deriving DecidableEq, Repr, Inhabited

end Sys2Proof
end

