-- ==== Sys2Proof/Syntax.lean ====
section
/-! DEFINITION. The commands, one constructor per row of spec/opcode_table.json (R50, R51), and the code tree as a
value (R19 of 10_state.md). -/

namespace Sys2Proof

/-- The command set of R51. No command has an operand (R50). -/
inductive Instr
  | clear        -- 0x0 CLEAR, R116
  | count        -- 0x1 COUNT, R70
  | build        -- 0x2 BUILD, R75
  | gencodes     -- 0x3 GENCODES, R85
  | wrhdr        -- 0x4 WRHDR, R90
  | encode       -- 0x5 ENCODE, R92
  | rdhdr        -- 0x6 RDHDR, R100
  | decode       -- 0x7 DECODE, R104
  | compress     -- 0x8 COMPRESS, R94
  | decompress   -- 0x9 DECOMPRESS, R106
  | reservedA    -- 0xA to 0xF, R52, R120
  | reservedB
  | reservedC
  | reservedD
  | reservedE
  | reservedF
deriving DecidableEq, Repr

/-- The value `T(i)` of R19: what WRHDR, GENCODES and DECODE can see of a tree. -/
inductive CodeTree
  | leaf (sym : SymField)
  | node (left right : CodeTree)
deriving DecidableEq, Repr

/-- Number of nodes; a tree of `L` leaves has `2L - 1` (R3). -/
def CodeTree.size : CodeTree → Nat
  | .leaf _ => 1
  | .node l r => 1 + l.size + r.size

/-- The leaf symbols in pre-order. -/
def CodeTree.symbols : CodeTree → List SymField
  | .leaf s => [s]
  | .node l r => l.symbols ++ r.symbols

/-- Number of edges from the root to the deepest leaf. -/
def CodeTree.depth : CodeTree → Nat
  | .leaf _ => 0
  | .node l r => 1 + max l.depth r.depth

end Sys2Proof
end

