-- ==== Sys2Proof/WellFormed.lean ====
section
/-! DEFINITION. What is checked of the syntax. A command has no operands (R50), so every command is well formed; a
command word must fit the 4 wires of `cmd_op` (R50); a code tree of a header must pass the three checks of R102. -/

namespace Sys2Proof

/-- A command has no register field, no immediate and no operand (R50), so there is nothing to check. -/
def Instr.wf : Instr → Bool
  | .clear | .count | .build | .gencodes | .wrhdr | .encode | .rdhdr | .decode | .compress | .decompress => true
  | .reservedA | .reservedB | .reservedC | .reservedD | .reservedE | .reservedF => true

/-- A number is a command word when it fits the 4 bits of `cmd_op` (R50). -/
def cmdWordFits (w : Nat) : Bool := decide (w < 16)

/-- "the root must be internal" (R18 item 2, R102). -/
def CodeTree.rootInternal : CodeTree → Bool
  | .leaf _ => false
  | .node _ _ => true

/-- Every symbol field holds a symbol, 0 to 256 (R18 item 5, R60, R102). -/
def CodeTree.symbolsOk (t : CodeTree) : Bool := t.symbols.all fun s => decide (s.toNat ≤ 256)

/-- The tree fits the node memory of 513 entries (R3, R102). -/
def CodeTree.fits (t : CodeTree) : Bool := decide (t.size ≤ 513)

/-- A tree that RDHDR accepts: the checks of R102, and no others (R103). -/
def CodeTree.wf (t : CodeTree) : Bool := t.rootInternal && t.symbolsOk && t.fits

end Sys2Proof
end

