-- ==== Sys2Proof/Decode.lean ====
section
/-! DEFINITION. The command decoder and encoder, both from the table of R51 (30_encoding.md). -/

namespace Sys2Proof

/-- Why a number is no command word. The spec says nothing of such a number: refusing it is a DESIGN CHOICE, safe (log 11). -/
inductive DecodeError
  /-- Fewer bits than the 4 of `cmd_op` (R50). -/
  | wordTooShort
  /-- A bit above bit 3 is set: it does not fit `cmd_op` (R50). -/
  | wordTooWide
deriving DecidableEq, Repr

/-- The column "binary" of R51, most significant bit of `cmd_op` first. Every 4-bit word decodes: the reserved codes
are commands that fault (R52). -/
def decodeOp (op : CmdWord) : Instr :=
  match op.getLsbD 3, op.getLsbD 2, op.getLsbD 1, op.getLsbD 0 with
  | false, false, false, false => .clear
  | false, false, false, true  => .count
  | false, false, true,  false => .build
  | false, false, true,  true  => .gencodes
  | false, true,  false, false => .wrhdr
  | false, true,  false, true  => .encode
  | false, true,  true,  false => .rdhdr
  | false, true,  true,  true  => .decode
  | true,  false, false, false => .compress
  | true,  false, false, true  => .decompress
  | true,  false, true,  false => .reservedA
  | true,  false, true,  true  => .reservedB
  | true,  true,  false, false => .reservedC
  | true,  true,  false, true  => .reservedD
  | true,  true,  true,  false => .reservedE
  | true,  true,  true,  true  => .reservedF

/-- Decode a number of `nbits` bits: the command word is its bits 3:0, and it has no others (R50). -/
def decodeWord (nbits w : Nat) : Except DecodeError Instr :=
  if nbits < 4 then .error .wordTooShort
  else if cmdWordFits w then .ok (decodeOp (BitVec.ofNat 4 w))
  else .error .wordTooWide

/-- What `decodeWord` reads from a row of spec/opcode_table.json; none where it refuses. -/
def decodeTableWord (nbits w : Nat) : Option Instr :=
  match decodeWord nbits w with
  | .ok i => some i
  | .error _ => none

/-- The column "op" of R51. -/
def encode : Instr → CmdWord
  | .clear      => 0x0#4
  | .count      => 0x1#4
  | .build      => 0x2#4
  | .gencodes   => 0x3#4
  | .wrhdr      => 0x4#4
  | .encode     => 0x5#4
  | .rdhdr      => 0x6#4
  | .decode     => 0x7#4
  | .compress   => 0x8#4
  | .decompress => 0x9#4
  | .reservedA  => 0xA#4
  | .reservedB  => 0xB#4
  | .reservedC  => 0xC#4
  | .reservedD  => 0xD#4
  | .reservedE  => 0xE#4
  | .reservedF  => 0xF#4

/-- The codes of a program, a list of commands (R53). -/
def encodeProgram (prog : List Instr) : List CmdWord := prog.map encode

end Sys2Proof
end

