-- ==== Sys2Proof/Config.lean ====
section
/-! DEFINITION. What one build of the hardware fixes (R3: "A model takes them as a configuration record") and the
free values. The values of THIS hardware are `hwParams` in Machine/Operands.lean. -/

namespace Sys2Proof.Config

/-- The parameters of R3 of 00_scope.md and U1 to U5, U19 of 93_implementation_defined.md that are not widths.
The meanings take this record as an argument, so a claim can be made for every value of a parameter. -/
structure Params where
  /-- `MAGIC`, the 32-bit tag (R61, D3). -/
  magic : BitVec 32
  /-- `N_MAX`, the longest input COUNT accepts, in bytes (R72, D4). -/
  nMax : Nat
  /-- `DUMMY_SYM`, the symbol of the synthesized leaf (R78, D7). -/
  dummySym : SymField
  /-- The bits written for a padding of `p` bits (R34, D14, U1). -/
  padding : Nat → Bits
  /-- `before w i v j`: node `i` of weight `w` leaves the priority set before node `j` of weight `v` (R76, D5, U2). -/
  before : Count → Nat → Count → Nat → Bool
  /-- The first node removed for a merge becomes the right child (R77, D6, U3). -/
  firstIsRight : Bool

/-! Free values: contents the spec leaves unspecified after `rst` (R20, R145, U8) and where a reset during a command
catches it (R153, U7). They have no body, so no proof can use a value of theirs (log 5, log 6). -/

opaque freeFreq : Nat → Vector Count 257
opaque freeNode : Nat → Vector NodeEntry 513
opaque freeInq : Nat → Vector Bool 513
opaque freeCode : Nat → Vector CodeEntry 257
/-- How many of the bits an abandoned command would have written are in the sink. -/
opaque freeSinkCut : Nat → Nat
/-- Where an abandoned command has left the source cursor. -/
opaque freeCursor : Nat → Nat

end Sys2Proof.Config
end

