-- ==== Sys2Proof/Machine/State.lean ====
section
/-! DEFINITION. The state of the block (R10 of 10_state.md: "the complete state of the block is the following, and
nothing else"), the two channels (R30 of 20_memory.md), the host's side of the ports, and the ways a step can stop. -/

namespace Sys2Proof.Machine

/-- The source channel `(SRC_BITS, SRC_POS)` (R30). -/
structure Source where
  bits : Bits
  pos  : Nat
deriving DecidableEq, Repr

/-- The sink channel `(SNK_BITS, SNK_CLOSED)` (R30). The bits that do not yet fill a byte are among `bits` (R22). -/
structure Sink where
  bits   : Bits
  closed : Bool
deriving DecidableEq, Repr

/-- What the host can do to the block, between two commands or, for `resetDuring`, inside one (log 4). -/
inductive HostAction
  /-- Present a command once: `cmd_valid = 1` with the code on `cmd_op` (R113). -/
  | command (op : CmdWord)
  /-- Assert and release `rst` while no command runs (R145). -/
  | reset
  /-- Present a command and assert `rst` before it has ended (R153). -/
  | resetDuring (op : CmdWord)
  /-- Attach a source holding these bits, cursor at 0 (R148 item 2). -/
  | attachSource (bits : Bits)
  /-- Attach an empty open sink (R148 item 3). -/
  | attachSink
deriving DecidableEq, Repr

/-- Everything R10 gives the block, and two fields of the model's own: `host` and `freeCtr`. -/
structure State where
  /-- `STATUS` (R11). -/
  status  : StatusWord
  /-- `ROOT` (R12). -/
  root    : NodeIdx
  /-- `NNODES` (R12). -/
  nnodes  : NodeIdx
  /-- `CUR` (R13). -/
  cur     : NodeIdx
  /-- `TOTAL` (R13). -/
  total   : Count
  /-- `FREQ[0..256]` (R14). -/
  freq    : Vector Count 257
  /-- `NODE[0..512]` (R15). -/
  node    : Vector NodeEntry 513
  /-- `INQ[0..512]` (R16). -/
  inq     : Vector Bool 513
  /-- `CODE[0..256]` (R17). -/
  code    : Vector CodeEntry 257
  /-- The source channel (R30). -/
  src     : Source
  /-- The sink channel (R30). -/
  snk     : Sink
  /-- The model's own: what the host does next, first action first (R53, R113, R145, R148; log 4). -/
  host    : List HostAction
  /-- The model's own: the number of the next free value (log 5). -/
  freeCtr : Nat
deriving DecidableEq, Repr

/-- The state right after reset (R20, R145). `STATUS` and the working registers are the spec's values; the memories
are unspecified there and hold zeros here (DESIGN CHOICE, log 2); the channels are the host's (R147): an empty source
(DESIGN CHOICE, log 3) and an empty open sink (R30); the host presents nothing (log 4). -/
def State.reset : State where
  status  := 0x0000#16
  root    := 0
  nnodes  := 0
  cur     := 0
  total   := 0
  freq    := Vector.replicate 257 0
  node    := Vector.replicate 513 ⟨false, 0, 0, 0, 0⟩
  inq     := Vector.replicate 513 false
  code    := Vector.replicate 257 ⟨0, 0⟩
  src     := ⟨[], 0⟩
  snk     := ⟨[], false⟩
  host    := []
  freeCtr := 0

/-- The architectural faults of R125. Taking one is a NEXT state (`raiseFault`, R127), never a stop of the model. -/
inductive Cause
  | badMagic | malformedHeader | malformedStream | sequence | illegalCmd | noCode | overflow
deriving DecidableEq, Repr

/-- Where the model is stuck. None of these is an architectural fault, and no state the block can reach meets one. -/
inductive Fault
  /-- Raised by BUILD when `FREQ_VALID = 1` but no entry of `FREQ` is above 0, against R14 ("`FREQ[256] = 1` exactly").
  Safe: the model stops where a real block would build nonsense (log 14). -/
  | brokenTable
  /-- Raised by GENCODES, WRHDR, RDHDR and DECODE when `TREE_VALID = 1` but `NODE` does not hold what R18 promises: a
  child index outside the memory, a cycle, or a symbol above 256. Safe (log 13). -/
  | brokenTree
  /-- Raised by a loop that outlives the bound on its iterations (R119, R156); no loop does. Safe (log 15). -/
  | loopBound
deriving DecidableEq, Repr

/-- What the model gives no meaning. -/
inductive Refusal
  /-- An instruction without a meaning yet, by its mnemonic: an arm of `exec`. No arm is left. Safe. -/
  | notModelled (mnemonic : String)
  /-- Raised by the sink primitives in WRHDR, ENCODE, DECODE, COMPRESS and DECOMPRESS: a write or close of a closed
  sink "has no meaning" (R33, R152, U6: "`refuse`: the model gives such a run no meaning"). Safe (log 12). -/
  | sinkClosed
deriving DecidableEq, Repr

/-- How a command body ends (R115, R127): without `raise`, by `raise E`, or with no meaning. -/
inductive Body
  | done (s : State)
  | raised (e : Cause) (s : State)
  | refused (r : Refusal)
  | stuck (f : Fault)
deriving DecidableEq, Repr

/-- Run `k` on the state a body ended in; a body that ended otherwise stays as it is ("no later statement of it
runs", R127). -/
def Body.andThen (b : Body) (k : State → Body) : Body :=
  match b with
  | .done s => k s
  | .raised e s => .raised e s
  | .refused r => .refused r
  | .stuck f => .stuck f

end Sys2Proof.Machine
end

