-- ==== Sys2Proof/Machine/Flags.lean ====
section
/-! DEFINITION. The fields of `STATUS` (R11 of 10_state.md): one reader and one writer each. A writer leaves the other
fields and the reserved bits 15:10 as they are. -/

namespace Sys2Proof.Machine

/-- `w` with bit `k` written. -/
def setStatusBit (k : Nat) (w : StatusWord) (b : Bool) : StatusWord :=
  (w &&& ~~~(1#16 <<< k)) ||| ((BitVec.ofBool b).setWidth 16 <<< k)

def isBusy (w : StatusWord) : Bool := w.getLsbD 0
def isDone (w : StatusWord) : Bool := w.getLsbD 1
def isFault (w : StatusWord) : Bool := w.getLsbD 2
/-- Bits 6:3, `ERR`. -/
def errOf (w : StatusWord) : BitVec 4 := w.extractLsb' 3 4
def freqValid (w : StatusWord) : Bool := w.getLsbD 7
def treeValid (w : StatusWord) : Bool := w.getLsbD 8
def codeValid (w : StatusWord) : Bool := w.getLsbD 9
/-- Bits 15:10, reserved. -/
def reservedOf (w : StatusWord) : BitVec 6 := w.extractLsb' 10 6

def setBusy : StatusWord → Bool → StatusWord := setStatusBit 0
def setDone : StatusWord → Bool → StatusWord := setStatusBit 1
def setFault : StatusWord → Bool → StatusWord := setStatusBit 2
def setErr (w : StatusWord) (e : BitVec 4) : StatusWord := (w &&& ~~~0x0078#16) ||| (e.setWidth 16 <<< 3)
def setFreqValid : StatusWord → Bool → StatusWord := setStatusBit 7
def setTreeValid : StatusWord → Bool → StatusWord := setStatusBit 8
def setCodeValid : StatusWord → Bool → StatusWord := setStatusBit 9

/-! The column "cleared at start" of R117. -/

/-- GENCODES. -/
def clearCode (w : StatusWord) : StatusWord := setCodeValid w false
/-- BUILD, RDHDR, DECOMPRESS. -/
def clearTreeCode (w : StatusWord) : StatusWord := clearCode (setTreeValid w false)
/-- COUNT, COMPRESS. -/
def clearAll (w : StatusWord) : StatusWord := clearTreeCode (setFreqValid w false)

/-- The code of a fault (R125). -/
def causeCode : Cause → BitVec 4
  | .badMagic        => 1
  | .malformedHeader => 2
  | .malformedStream => 3
  | .sequence        => 4
  | .illegalCmd      => 5
  | .noCode          => 6
  | .overflow        => 7

end Sys2Proof.Machine
end

