-- ==== Sys2Proof/Machine/Operands.lean ====
section
/-! DEFINITION. Commands have no operands (R50). What they read and write are the fields of a bit string and of the
compressed file: bit strings (R5), bytes (R35), symbols (R57), and this hardware's parameter values (R3). -/

namespace Sys2Proof.Machine

/-- The values of this hardware: the column "value" of R3, with D14 for the padding, D5 for the order and D6 for the
children. `magic` is the default the spec supplies from general knowledge (PRESUMED, log 1). -/
def hwParams : Config.Params where
  magic := 0xFACE8201#32
  nMax := 2 ^ 64 - 2
  dummySym := 0
  padding := fun p => List.replicate p false
  before := fun w i v j => decide (w.toNat < v.toNat) || (decide (w.toNat = v.toNat) && decide (i < j))
  firstIsRight := true

/-- `bits_n(v)`: the low `n` bits of `v`, most significant first (R5). -/
def bitsOf : Nat → Nat → Bits
  | 0, _ => []
  | n + 1, v => v.testBit n :: bitsOf n v

/-- `val(s)`: the number a bit string stands for, first bit most significant (R5). -/
def bitsVal : Bits → Nat
  | [] => 0
  | b :: t => b.toNat * 2 ^ t.length + bitsVal t

/-- The bit string of a byte sequence: `bits_8(B_0) ++ bits_8(B_1) ++ ...` (R30, R35). -/
def bytesToBits : List Byte → Bits
  | [] => []
  | b :: t => bitsOf 8 b.toNat ++ bytesToBits t

/-- The byte content of a bit string of whole bytes, `Z_j = val(bits[8j .. 8j+7])` (R30); bits after the last whole
byte are left out (R73). -/
def bitsToBytes : Bits → List Byte
  | b7 :: b6 :: b5 :: b4 :: b3 :: b2 :: b1 :: b0 :: t =>
    BitVec.ofNat 8 (bitsVal [b7, b6, b5, b4, b3, b2, b1, b0]) :: bitsToBytes t
  | _ => []

/-- A byte value is a symbol, zero-extended (R1, R57). -/
def byteSymbol (v : Byte) : Symbol := ⟨v.toNat, Nat.lt_succ_of_lt v.isLt⟩

/-- `EOS = 256`, the end-of-stream sentinel (R1). -/
def eosSymbol : Symbol := 256

/-- The codeword a code entry stands for: `bits_len(bits)` (R17). -/
def codeword (c : CodeEntry) : Bits := bitsOf c.len.toNat c.bits.toNat

/-- `ser(t)`, the pre-order serialization (R56, R91). -/
def serialize : CodeTree → Bits
  | .leaf s => true :: bitsOf 9 s.toNat
  | .node l r => false :: (serialize l ++ serialize r)

/-- The leaves with their root paths, in pre-order: 0 on a left edge, 1 on a right edge, first edge first (R58, R85). -/
def leafPaths : CodeTree → List (SymField × Bits)
  | .leaf s => [(s, [])]
  | .node l r =>
    (leafPaths l).map (fun x => (x.1, false :: x.2)) ++ (leafPaths r).map (fun x => (x.1, true :: x.2))

end Sys2Proof.Machine
end

