-- ==== Sys2Proof/Machine/Ops.lean ====
section
/-! DEFINITION. The named operations every command is made of: field updates, the four channel primitives (R31 to
R34), the memories (R14 to R17), taking a fault (R127), and the wrapper of every command (R113 to R115). -/

namespace Sys2Proof.Machine

/-! ## Field updates -/

def withStatus (s : State) (w : StatusWord) : State := { s with status := w }
def withRegs (s : State) (root nnodes cur : NodeIdx) (total : Count) : State :=
  { s with root := root, nnodes := nnodes, cur := cur, total := total }
def withTree (s : State) (root nnodes : NodeIdx) : State := { s with root := root, nnodes := nnodes }
def withCur (s : State) (i : NodeIdx) : State := { s with cur := i }
def withTable (s : State) (freq : Vector Count 257) (total : Count) : State := { s with freq := freq, total := total }
def withNode (s : State) (m : Vector NodeEntry 513) : State := { s with node := m }
def withInq (s : State) (m : Vector Bool 513) : State := { s with inq := m }
def withCode (s : State) (m : Vector CodeEntry 257) : State := { s with code := m }
def withSrcPos (s : State) (k : Nat) : State := { s with src := ⟨s.src.bits, k⟩ }
def withSource (s : State) (c : Source) : State := { s with src := c }
def withSink (s : State) (k : Sink) : State := { s with snk := k }
def withHost (s : State) (h : List HostAction) : State := { s with host := h }
def withFreeCtr (s : State) (n : Nat) : State := { s with freeCtr := n }

/-! ## The channel primitives -/

/-- `SrcRead(n)` (R31): the next `n` bits, the first most significant, and the cursor after them; or `none`, the
end-marker `END`, with the cursor where it was. -/
def srcRead (n : Nat) (s : State) : Option (BitVec n) × State :=
  if s.src.pos + n ≤ s.src.bits.length then
    (some (BitVec.ofNat n (bitsVal ((s.src.bits.drop s.src.pos).take n))), withSrcPos s (s.src.pos + n))
  else (none, s)

/-- `SrcRewind()` (R32). -/
def srcRewind (s : State) : State := withSrcPos s 0

/-- `SnkWrite(n, v)` (R33): append `bits_n(v)`. A write to a closed sink has no meaning (U6). -/
def snkWrite (n v : Nat) (s : State) : Body :=
  if s.snk.closed then .refused .sinkClosed
  else .done (withSink s ⟨s.snk.bits ++ bitsOf n v, false⟩)

/-- The number of padding bits after `k` bits: `(8 - (k mod 8)) mod 8` (R34). -/
def padLength (k : Nat) : Nat := (8 - k % 8) % 8

/-- `SnkClose()` (R34): pad to a byte boundary and close. A close of a closed sink has no meaning (U6). -/
def snkClose (p : Config.Params) (s : State) : Body :=
  if s.snk.closed then .refused .sinkClosed
  else .done (withSink s ⟨s.snk.bits ++ p.padding (padLength s.snk.bits.length), true⟩)

/-! ## The memories -/

/-- `NODE[i]` (R15). Entries 0 to 512 exist. -/
def nodeRead (s : State) (i : NodeIdx) : Option NodeEntry := s.node[i.toNat]?

/-- `NODE[i] <- e` (R15), for an index below 513. -/
def nodeWrite (i : Nat) (e : NodeEntry) (s : State) : State := withNode s (s.node.setIfInBounds i e)

/-- A Leaf entry (R15). -/
def leafEntry (sym : SymField) (weight : Count) : NodeEntry := ⟨true, sym, weight, 0, 0⟩

/-- An Internal entry (R15). -/
def innerEntry (weight : Count) (left right : NodeIdx) : NodeEntry := ⟨false, 0, weight, left, right⟩

/-- `FREQ[v] <- FREQ[v] + 1 ; TOTAL <- TOTAL + 1` (R70). -/
def countSymbol (v : Symbol) (s : State) : State := withTable s (s.freq.set v (s.freq[v] + 1)) (s.total + 1)

/-- `CODE[s]` (R17). -/
def codeRead (s : State) (v : Symbol) : CodeEntry := s.code[v]

/-- `T(i)` of R19, read from the node memory by a walk of at most `fuel` levels. `none`: an index outside the memory,
or a walk that does not end. No path of a well-formed tree has more than 513 nodes. -/
def treeAt (m : Vector NodeEntry 513) : Nat → Nat → Option CodeTree
  | 0, _ => none
  | fuel + 1, i =>
    match m[i]? with
    | none => none
    | some e =>
      if e.leaf then some (.leaf e.sym)
      else
        match treeAt m fuel e.left.toNat, treeAt m fuel e.right.toNat with
        | some l, some r => some (.node l r)
        | _, _ => none

/-- The current tree `T(ROOT)` (R19). -/
def currentTree (s : State) : Option CodeTree := treeAt s.node 513 s.root.toNat

/-! ## Taking a fault (R127). There is no return from it: only CLEAR (R116) and reset (R145) end it (R128). -/

/-- `raise E` (R127): nothing but `STATUS` is written. -/
def raiseFault (e : Cause) (s : State) : State :=
  withStatus s (setBusy (setDone (setErr (setFault s.status true) (causeCode e)) false) false)

/-! ## The wrapper of every command -/

/-- `STATUS.BUSY <- 1 ; STATUS.DONE <- 0` (R113). -/
def acknowledge (s : State) : State := withStatus s (setDone (setBusy s.status true) false)

/-- `Complete()` (R115), after the flags of R117 are set. -/
def complete (s : State) : State := withStatus s (setBusy (setDone s.status true) false)

/-- The end of a command: `Complete()` or `raise E` (R115, R127). -/
def finish : Body → Host.Outcome State Fault Refusal
  | .done s => .next (complete s)
  | .raised e s => .next (raiseFault e s)
  | .refused r => .refused r
  | .stuck f => .fault f

/-- `Accept(op)` (R113) of a command other than CLEAR and the reserved codes. Not accepted while BUSY; dropped while
FAULT; then the prerequisite `needs` (R114), the flags `atStart` of R117, the body, and its end. -/
def accept (needs : StatusWord → Bool) (atStart : StatusWord → StatusWord) (body : State → Body) (s : State) :
    Host.Outcome State Fault Refusal :=
  if isBusy s.status || isFault s.status then .next s
  else if needs (acknowledge s).status then finish (body (withStatus (acknowledge s) (atStart (acknowledge s).status)))
  else .next (raiseFault .sequence (acknowledge s))

/-- `Accept(op)` (R113) of a reserved code: IllegalCmd (R120). -/
def acceptIllegal (s : State) : Host.Outcome State Fault Refusal :=
  if isBusy s.status || isFault s.status then .next s
  else .next (raiseFault .illegalCmd (acknowledge s))

/-- The prerequisite of CLEAR, COUNT, RDHDR, COMPRESS and DECOMPRESS: "nothing" (R114). -/
def needsNothing (_ : StatusWord) : Bool := true

/-- The flags of WRHDR, ENCODE and DECODE at start: none is cleared (R117). -/
def clearNone (w : StatusWord) : StatusWord := w

/-- `FREQ_VALID <- 1` (R117). -/
def markFreq (s : State) : Body := .done (withStatus s (setFreqValid s.status true))
/-- `TREE_VALID <- 1` (R117). -/
def markTree (s : State) : Body := .done (withStatus s (setTreeValid s.status true))
/-- `CODE_VALID <- 1` (R117). -/
def markCode (s : State) : Body := .done (withStatus s (setCodeValid s.status true))

end Sys2Proof.Machine
end

