-- ==== Sys2Proof/Machine/Control.lean ====
section
/-! DEFINITION. Command control (45_control.md): CLEAR and the reserved codes. -/

namespace Sys2Proof.Machine

/-- The body of CLEAR (R116): `STATUS` and the working registers to 0; memories and channels untouched. -/
def clearBody (s : State) : State := withRegs (withStatus s 0x0000#16) 0 0 0 0

/-- CLEAR, 0x0 (R116): the only command accepted while `FAULT = 1` (R113, R128). -/
def execClear (s : State) : Host.Outcome State Fault Refusal :=
  if isBusy s.status then .next s else .next (complete (clearBody (acknowledge s)))

/-- 0xA (R120). -/
def execReservedA (s : State) : Host.Outcome State Fault Refusal := acceptIllegal s
/-- 0xB (R120). -/
def execReservedB (s : State) : Host.Outcome State Fault Refusal := acceptIllegal s
/-- 0xC (R120). -/
def execReservedC (s : State) : Host.Outcome State Fault Refusal := acceptIllegal s
/-- 0xD (R120). -/
def execReservedD (s : State) : Host.Outcome State Fault Refusal := acceptIllegal s
/-- 0xE (R120). -/
def execReservedE (s : State) : Host.Outcome State Fault Refusal := acceptIllegal s
/-- 0xF (R120). -/
def execReservedF (s : State) : Host.Outcome State Fault Refusal := acceptIllegal s

end Sys2Proof.Machine
end

