-- ==== Sys2Proof/Machine/Decoder.lean ====
section
/-! DEFINITION. Module huffman_decoder: RDHDR, DECODE, DECOMPRESS (44_decoder.md). -/

namespace Sys2Proof.Machine

/-- How `Rd` ends: with the index of the subtree's root and the number of nodes allocated, by `raise`, or stuck. -/
inductive RdResult
  | ok (i n : Nat) (s : State)
  | raised (e : Cause) (s : State)
  | stuck (f : Fault)
deriving DecidableEq, Repr

/-- `Rd()` (R101, R102) with `n` nodes allocated. Nodes are allocated in pre-order, so an `Rd` nested `k` deep has
`n >= k`, and the check `n < NODE_CAP = 513` ends the recursion before `fuel = 514` does. -/
def rd : Nat → Nat → State → RdResult
  | 0, _, _ => .stuck .loopBound
  | fuel + 1, n, s =>
    if n < 513 then
      match srcRead 1 s with
      | (none, s) => .raised .malformedHeader s
      | (some f, s) =>
        if f = 1 then
          match srcRead 9 s with
          | (none, s) => .raised .malformedHeader s
          | (some sym, s) =>
            if sym.toNat ≤ 256 then .ok n (n + 1) (nodeWrite n (leafEntry sym 0) s)
            else .raised .malformedHeader s
        else
          match rd fuel (n + 1) s with
          | .raised e s => .raised e s
          | .stuck f => .stuck f
          | .ok l n1 s =>
            match rd fuel n1 s with
            | .raised e s => .raised e s
            | .stuck f => .stuck f
            | .ok r n2 s => .ok n n2 (nodeWrite n (innerEntry 0 (BitVec.ofNat 10 l) (BitVec.ofNat 10 r)) s)
    else .raised .malformedHeader s

/-- After the tree is read: the root must be internal (R100, R102), then `ROOT` and `NNODES` are written. -/
def acceptRoot (r n : Nat) (s : State) : Body :=
  match nodeRead s (BitVec.ofNat 10 r) with
  | none => .stuck .brokenTree
  | some e =>
    if e.leaf then .raised .malformedHeader s
    else .done (withTree s (BitVec.ofNat 10 r) (BitVec.ofNat 10 n))

/-- The body of RDHDR (R100). -/
def rdhdrBody (p : Config.Params) (s : State) : Body :=
  match srcRead 32 s with
  | (none, s) => .raised .badMagic s
  | (some m, s) =>
    if m = p.magic then
      match rd 514 0 s with
      | .raised e s => .raised e s
      | .stuck f => .stuck f
      | .ok r n s => acceptRoot r n s
    else .raised .badMagic s

/-- RDHDR as a stage: its body, then `TREE_VALID <- 1` (R117). -/
def rdhdrStage (p : Config.Params) (s : State) : Body := (rdhdrBody p s).andThen markTree

/-- RDHDR with any parameters. -/
def rdhdrWith (p : Config.Params) (s : State) : Host.Outcome State Fault Refusal :=
  accept needsNothing clearTreeCode (rdhdrStage p) s

/-- RDHDR, 0x6 (R100). -/
def execRdhdr (s : State) : Host.Outcome State Fault Refusal := rdhdrWith hwParams s

/-- The loop of R104. `fuel` bounds its iterations: each consumes one bit or ends. -/
def decodeLoop : Nat → State → Body
  | 0, _ => .stuck .loopBound
  | fuel + 1, s =>
    match srcRead 1 s with
    | (none, s) => .raised .malformedStream s
    | (some b, s) =>
      match nodeRead s s.cur with
      | none => .stuck .brokenTree
      | some e =>
        let s := withCur s (if b = 0 then e.left else e.right)
        match nodeRead s s.cur with
        | none => .stuck .brokenTree
        | some c =>
          if c.leaf then
            if c.sym = 256 then .done s
            else (snkWrite 8 c.sym.toNat s).andThen fun s => decodeLoop fuel (withCur s s.root)
          else decodeLoop fuel s

/-- The body of DECODE (R104). -/
def decodeBody (p : Config.Params) (s : State) : Body :=
  (decodeLoop (s.src.bits.length + 1) (withCur s s.root)).andThen (snkClose p)

/-- DECODE with any parameters. -/
def decodeWith (p : Config.Params) (s : State) : Host.Outcome State Fault Refusal :=
  accept treeValid clearNone (decodeBody p) s

/-- DECODE, 0x7 (R104). -/
def execDecode (s : State) : Host.Outcome State Fault Refusal := decodeWith hwParams s

/-- The body of DECOMPRESS (R106): RDHDR, `TREE_VALID <- 1`, DECODE. -/
def decompressBody (p : Config.Params) (s : State) : Body := (rdhdrStage p s).andThen (decodeBody p)

/-- DECOMPRESS with any parameters. -/
def decompressWith (p : Config.Params) (s : State) : Host.Outcome State Fault Refusal :=
  accept needsNothing clearTreeCode (decompressBody p) s

/-- DECOMPRESS, 0x9 (R106). -/
def execDecompress (s : State) : Host.Outcome State Fault Refusal := decompressWith hwParams s

end Sys2Proof.Machine
end

