-- ==== Sys2Proof/Machine/CodeTable.lean ====
section
/-! DEFINITION. Module code_table_generator: GENCODES (42_code_table_generator.md). The walk is a recursion on the
current tree as a value (R7, R19). -/

namespace Sys2Proof.Machine

/-- `Walk(i, len, path)` (R85): left first, then right; a later leaf overwrites an earlier one (R87). -/
def walk : CodeTree → Nat → BitVec 256 → Vector CodeEntry 257 → Vector CodeEntry 257
  | .leaf sym, len, path, m => m.setIfInBounds sym.toNat ⟨BitVec.ofNat 9 len, path⟩
  | .node l r, len, path, m => walk r (len + 1) (path <<< 1 ||| 1#256) (walk l (len + 1) (path <<< 1) m)

/-- The body of GENCODES (R85). -/
def gencodesBody (s : State) : Body :=
  match currentTree s with
  | none => .stuck .brokenTree
  | some t =>
    if t.symbolsOk then .done (withCode s (walk t 0 0 (Vector.replicate 257 ⟨0, 0⟩)))
    else .stuck .brokenTree

/-- GENCODES as a stage: its body, then `CODE_VALID <- 1` (R117). -/
def gencodesStage (s : State) : Body := (gencodesBody s).andThen markCode

/-- GENCODES, 0x3 (R85). It depends on no parameter. -/
def execGencodes (s : State) : Host.Outcome State Fault Refusal := accept treeValid clearCode gencodesStage s

end Sys2Proof.Machine
end

