-- ==== Sys2Proof/Machine/Counter.lean ====
section
/-! DEFINITION. Module huffman_tree_builder, part 1: COUNT (40_frequency_counter.md). -/

namespace Sys2Proof.Machine

/-- The loop of R70. `fuel` bounds its iterations: each consumes 8 bits or ends. -/
def countLoop (p : Config.Params) : Nat → State → Body
  | 0, _ => .stuck .loopBound
  | fuel + 1, s =>
    match srcRead 8 s with
    | (none, s) => .done s
    | (some v, s) =>
      if s.total.toNat < p.nMax then countLoop p fuel (countSymbol (byteSymbol v) s)
      else .raised .overflow s

/-- The body of COUNT (R70). The sentinel's count is written, not incremented (R71). -/
def countBody (p : Config.Params) (s : State) : Body :=
  (countLoop p (s.src.bits.length + 1) (withTable s (Vector.replicate 257 0) 0)).andThen
    fun s => .done (withTable s (s.freq.set eosSymbol 1) s.total)

/-- COUNT as a stage: its body, then `FREQ_VALID <- 1` (R117). -/
def countStage (p : Config.Params) (s : State) : Body := (countBody p s).andThen markFreq

/-- COUNT with any parameters. -/
def countWith (p : Config.Params) (s : State) : Host.Outcome State Fault Refusal :=
  accept needsNothing clearAll (countStage p) s

/-- COUNT, 0x1 (R70). -/
def execCount (s : State) : Host.Outcome State Fault Refusal := countWith hwParams s

end Sys2Proof.Machine
end

