-- ==== Sys2Proof/Machine/TreeBuilder.lean ====
section
/-! DEFINITION. Module huffman_tree_builder, part 2: BUILD (41_tree_builder.md). -/

namespace Sys2Proof.Machine

/-- What BUILD works on: the node memory, the membership bits of the priority set, and the number `n` of nodes
allocated so far. -/
structure Heap where
  node : Vector NodeEntry 513
  inq  : Vector Bool 513
  n    : Nat
deriving DecidableEq, Repr

/-- `NODE[n] <- e ; INQ[n] <- 1 ; n <- n + 1` (R75). -/
def heapAdd (h : Heap) (e : NodeEntry) : Heap :=
  ⟨h.node.setIfInBounds h.n e, h.inq.setIfInBounds h.n true, h.n + 1⟩

/-- The priority set `{ i : INQ[i] = 1 }` with its weights, by ascending index (R76). -/
def prioritySet (h : Heap) : List (Count × Nat) :=
  ((h.node.toList.zip h.inq.toList).zipIdx).filterMap fun x => if x.1.2 then some (x.1.1.weight, x.2) else none

/-- The element that leaves a list first in the order of R76. -/
def firstOf (p : Config.Params) : List (Count × Nat) → Option (Count × Nat)
  | [] => none
  | x :: t =>
    match firstOf p t with
    | none => some x
    | some y => if p.before y.1 y.2 x.1 x.2 then some y else some x

/-- `RemoveMin()` (R76): the node that leaves the priority set, its weight, and the heap without it. -/
def removeMin (p : Config.Params) (h : Heap) : Option (Count × Nat × Heap) :=
  match firstOf p (prioritySet h) with
  | none => none
  | some (w, m) => some (w, m, ⟨h.node, h.inq.setIfInBounds m false, h.n⟩)

/-- The leaves of R75: one per symbol with a count above 0, in ascending symbol order. -/
def addLeaves (freq : Vector Count 257) (h : Heap) : Heap :=
  freq.toList.zipIdx.foldl
    (fun h x => if x.1 = 0 then h else heapAdd h (leafEntry (BitVec.ofNat 9 x.2) x.1)) h

/-- The entry of a merge of `a`, removed first, and `b`, removed second (R75, R77). -/
def mergeEntry (p : Config.Params) (wa : Count) (a : Nat) (wb : Count) (b : Nat) : NodeEntry :=
  if p.firstIsRight then innerEntry (wa + wb) (BitVec.ofNat 10 b) (BitVec.ofNat 10 a)
  else innerEntry (wa + wb) (BitVec.ofNat 10 a) (BitVec.ofNat 10 b)

/-- The merge loop of R75, `while (number of i with INQ[i] = 1) > 1`. Each iteration takes two nodes out and puts one
in; `fuel` bounds the iterations. -/
def mergeLoop (p : Config.Params) : Nat → Heap → Option Heap
  | 0, _ => none
  | fuel + 1, h =>
    if (prioritySet h).length ≤ 1 then some h
    else
      match removeMin p h with
      | none => none
      | some (wa, a, h1) =>
        match removeMin p h1 with
        | none => none
        | some (wb, b, h2) => mergeLoop p fuel (heapAdd h2 (mergeEntry p wa a wb b))

/-- The heap before the merges: the leaves, and the synthesized leaf of R78 when there is only one. -/
def initialHeap (p : Config.Params) (s : State) : Heap :=
  let h := addLeaves s.freq ⟨s.node, Vector.replicate 513 false, 0⟩
  if h.n = 1 then heapAdd h (leafEntry p.dummySym 0) else h

/-- The body of BUILD (R75). -/
def buildBody (p : Config.Params) (s : State) : Body :=
  if (initialHeap p s).n = 0 then .stuck .brokenTable
  else
    match mergeLoop p 513 (initialHeap p s) with
    | none => .stuck .loopBound
    | some h =>
      .done (withTree (withInq (withNode s h.node) h.inq) (BitVec.ofNat 10 (h.n - 1)) (BitVec.ofNat 10 h.n))

/-- BUILD as a stage: its body, then `TREE_VALID <- 1` (R117). -/
def buildStage (p : Config.Params) (s : State) : Body := (buildBody p s).andThen markTree

/-- BUILD with any parameters. -/
def buildWith (p : Config.Params) (s : State) : Host.Outcome State Fault Refusal :=
  accept freqValid clearTreeCode (buildStage p) s

/-- BUILD, 0x2 (R75). -/
def execBuild (s : State) : Host.Outcome State Fault Refusal := buildWith hwParams s

end Sys2Proof.Machine
end

