-- ==== Sys2Proof/Machine/Encoder.lean ====
section
/-! DEFINITION. Module huffman_encoder: WRHDR, ENCODE, COMPRESS (43_encoder.md). -/

namespace Sys2Proof.Machine

/-- `Wr` (R91), by recursion on the current tree (R7, R19). -/
def writeTree : CodeTree → State → Body
  | .leaf sym, s => (snkWrite 1 1 s).andThen (snkWrite 9 sym.toNat)
  | .node l r, s => ((snkWrite 1 0 s).andThen (writeTree l)).andThen (writeTree r)

/-- The body of WRHDR (R90). -/
def wrhdrBody (p : Config.Params) (s : State) : Body :=
  match currentTree s with
  | none => .stuck .brokenTree
  | some t => (snkWrite 32 p.magic.toNat s).andThen (writeTree t)

/-- WRHDR with any parameters. -/
def wrhdrWith (p : Config.Params) (s : State) : Host.Outcome State Fault Refusal :=
  accept treeValid clearNone (wrhdrBody p) s

/-- WRHDR, 0x4 (R90). -/
def execWrhdr (s : State) : Host.Outcome State Fault Refusal := wrhdrWith hwParams s

/-- Write the codeword of a symbol, or raise NoCode where it has none (R92, R93). -/
def writeCode (v : Symbol) (s : State) : Body :=
  if (codeRead s v).len = 0 then .raised .noCode s
  else snkWrite (codeRead s v).len.toNat (codeRead s v).bits.toNat s

/-- The loop of R92 over the bytes of the source. `fuel` bounds its iterations: each consumes 8 bits or ends. -/
def encodeLoop : Nat → State → Body
  | 0, _ => .stuck .loopBound
  | fuel + 1, s =>
    match srcRead 8 s with
    | (none, s) => .done s
    | (some v, s) => (writeCode (byteSymbol v) s).andThen (encodeLoop fuel)

/-- The body of ENCODE (R92). -/
def encodeBody (p : Config.Params) (s : State) : Body :=
  ((encodeLoop (s.src.bits.length + 1) (srcRewind s)).andThen (writeCode eosSymbol)).andThen (snkClose p)

/-- ENCODE with any parameters. -/
def encodeWith (p : Config.Params) (s : State) : Host.Outcome State Fault Refusal :=
  accept codeValid clearNone (encodeBody p) s

/-- ENCODE, 0x5 (R92). -/
def execEncode (s : State) : Host.Outcome State Fault Refusal := encodeWith hwParams s

/-- The body of COMPRESS (R94): the stages in order, each with its flag set as soon as it ends. -/
def compressBody (p : Config.Params) (s : State) : Body :=
  ((((countStage p s).andThen (buildStage p)).andThen gencodesStage).andThen (wrhdrBody p)).andThen (encodeBody p)

/-- COMPRESS with any parameters. -/
def compressWith (p : Config.Params) (s : State) : Host.Outcome State Fault Refusal :=
  accept needsNothing clearAll (compressBody p) s

/-- COMPRESS, 0x8 (R94). -/
def execCompress (s : State) : Host.Outcome State Fault Refusal := compressWith hwParams s

end Sys2Proof.Machine
end

