-- ==== Sys2Proof/Machine/HostPort.lean ====
section
/-! DEFINITION. The host's side: the ports at transfer level (R44 of 20_memory.md), reset (R145, R153 of
70_reset_and_hazards.md), and what each action of the host does (R113, R148). -/

namespace Sys2Proof.Machine

/-- `cmd_ready = not STATUS.BUSY` (R44). -/
def cmdReady (s : State) : Bool := !isBusy s.status

/-- The 32-bit groups of a write of `k` groups, high to low, as pairs `(snk_n, snk_data)` (R44). -/
def snkGroups (v : Nat) : Nat → List (Nat × Nat)
  | 0 => []
  | k + 1 => (32, v / 2 ^ (32 * k) % 2 ^ 32) :: snkGroups v k

/-- The port transfers of `SnkWrite(n, v)`: the top `n mod 32` bits first, if that is not 0, then 32-bit groups, high
to low (R44). -/
def snkTransfers (n v : Nat) : List (Nat × Nat) :=
  (if n % 32 = 0 then [] else [(n % 32, v / 2 ^ (32 * (n / 32)) % 2 ^ (n % 32))]) ++ snkGroups v (n / 32)

/-- Every command with the parameters given: `exec` for another build of the hardware (R3). -/
def runWith (p : Config.Params) : Instr → State → Host.Outcome State Fault Refusal
  | .clear => execClear
  | .count => countWith p
  | .build => buildWith p
  | .gencodes => execGencodes
  | .wrhdr => wrhdrWith p
  | .encode => encodeWith p
  | .rdhdr => rdhdrWith p
  | .decode => decodeWith p
  | .compress => compressWith p
  | .decompress => decompressWith p
  | .reservedA => execReservedA
  | .reservedB => execReservedB
  | .reservedC => execReservedC
  | .reservedD => execReservedD
  | .reservedE => execReservedE
  | .reservedF => execReservedF

/-- Reset (R145, R20): the registers hold their reset values; the memories are unspecified, so they take free values
(U8, log 5); the channels are the host's and keep theirs (R147). -/
def resetBlock (s : State) : State :=
  { withFreeCtr (withRegs (withStatus s 0x0000#16) 0 0 0 0) (s.freeCtr + 1) with
    freq := Config.freeFreq s.freeCtr
    node := Config.freeNode s.freeCtr
    inq  := Config.freeInq s.freeCtr
    code := Config.freeCode s.freeCtr }

/-- The channels as a command that would have ended in `t` leaves them when it is abandoned: "the sink may hold any
prefix of what the command would have written, unpadded and not closed; the source cursor may be anywhere the command
could have left it" (R153). Both places are free values (log 6). -/
def abandonChannels (s t : State) : State :=
  withSrcPos
    (withSink s ⟨t.snk.bits.take
      (s.snk.bits.length + Config.freeSinkCut s.freeCtr % (t.snk.bits.length - s.snk.bits.length + 1)), s.snk.closed⟩)
    (Config.freeCursor s.freeCtr % (s.src.bits.length + 1))

/-- Reset during a command (R153). What the command would have written is what it writes with no padding. A command
that is not accepted does nothing to be abandoned (R113). -/
def abandon (i : Instr) (s : State) : Host.Outcome State Fault Refusal :=
  if isBusy s.status || (isFault s.status && i != .clear) then .next (resetBlock s)
  else
    match runWith { hwParams with padding := fun _ => [] } i s with
    | .next t => .next (resetBlock (abandonChannels s t))
    | .fault f => .fault f
    | .refused r => .refused r

/-- One action of the host. -/
def hostAct : HostAction → State → Host.Outcome State Fault Refusal
  | .command op, s => exec (decodeOp op) s
  | .reset, s => .next (resetBlock s)
  | .resetDuring op, s => abandon (decodeOp op) s
  | .attachSource bits, s => .next (withSource s ⟨bits, 0⟩)
  | .attachSink, s => .next (withSink s ⟨[], false⟩)

/-- The command presented next: where the block's "fetch" looks (log 4). `cmd_op` has 4 wires (R50), so they carry the low
4 bits of `w`. The spec says nothing of a number of 16 or more: that its other bits are dropped here (16 presents CLEAR),
while the decoder refuses the number (log 11), is a DESIGN CHOICE, unsafe (log 21). -/
def presentWord (s : State) (w : Nat) : State := withHost s (.command (BitVec.ofNat 4 w) :: s.host)

end Sys2Proof.Machine
end

