-- ==== Sys2Proof/Machine/Step.lean ====
section
/-! DEFINITION. One step: the host's next action, or nothing while the host does nothing ("it waits for a command",
R146). A command is one transition from acceptance to completion (R119). -/

namespace Sys2Proof.Machine

/-- The host's first action is taken off its list and happens. -/
def step (s : State) : Host.Outcome State Fault Refusal :=
  match s.host with
  | [] => .next s
  | a :: rest => hostAct a (withHost s rest)

/-- `s` with the command word `w` presented next. The block fetches nothing (R13): its next command is the one the
host presents, so the word goes to the head of the host's list. `nbits` plays no part: a command is 4 bits (R50). Of a
number that is no command word, `w` of 16 or more or `nbits` below 4, the low 4 bits of `w` are presented (DESIGN CHOICE,
unsafe, log 21). -/
def State.withFetchWord (s : State) (_nbits w : Nat) : State := presentWord s w

end Sys2Proof.Machine
end

