-- ==== Sys2Proof/Safety.lean ====
section
/-! DEFINITION. The words claims are stated in: how a command ended, what a well-formed tree is (R18 of 10_state.md),
what a table and a code memory promise (R14, R17), and the invariant of the block. -/

namespace Sys2Proof.Machine

/-! ## How a command ended -/

/-- Idle and not faulted: a command presented now is accepted and not dropped (R113). -/
abbrev Ready (s : State) : Prop := isBusy s.status = false ∧ isFault s.status = false

/-- The block is ready and the sink is open (R152). -/
abbrev ReadyToWrite (s : State) : Prop := Ready s ∧ s.snk.closed = false

/-- The three valid flags, and the reserved bits as they were. -/
abbrev FlagsAre (s t : State) (freq tree code : Bool) : Prop :=
  freqValid t.status = freq ∧ treeValid t.status = tree ∧ codeValid t.status = code ∧
    reservedOf t.status = reservedOf s.status

/-- `t` is `s` after a command that ended without a fault (R115), with the valid flags given. -/
abbrev Succeeded (s t : State) (freq tree code : Bool) : Prop :=
  isBusy t.status = false ∧ isDone t.status = true ∧ isFault t.status = false ∧ errOf t.status = errOf s.status ∧
    FlagsAre s t freq tree code

/-- `t` is `s` after a command that ended by `raise e` (R127), with the valid flags given. -/
abbrev TookFault (e : Cause) (s t : State) (freq tree code : Bool) : Prop :=
  isBusy t.status = false ∧ isDone t.status = false ∧ isFault t.status = true ∧ errOf t.status = causeCode e ∧
    FlagsAre s t freq tree code

/-! ## What a command leaves alone, by column of the access table R21 -/

abbrev SameRoot (s t : State) : Prop := t.root = s.root ∧ t.nnodes = s.nnodes
abbrev SameTable (s t : State) : Prop := t.freq = s.freq ∧ t.total = s.total
/-- The model's own fields. -/
abbrev SameHost (s t : State) : Prop := t.host = s.host ∧ t.freeCtr = s.freeCtr
/-- Everything but `STATUS` and the two channels. -/
abbrev SameInside (s t : State) : Prop :=
  SameRoot s t ∧ t.cur = s.cur ∧ SameTable s t ∧ t.node = s.node ∧ t.inq = s.inq ∧ t.code = s.code ∧ SameHost s t

/-- Run a second command on the state a first one left, if it left one. -/
def thenExec (o : Host.Outcome State Fault Refusal) (i : Instr) : Host.Outcome State Fault Refusal :=
  match o with
  | .next s => exec i s
  | .fault f => .fault f
  | .refused r => .refused r

/-! ## The tables of the spec, as functions -/

/-- R126: which command can raise which fault. -/
def listedFaults : Instr → List Cause
  | .clear => []
  | .count => [.overflow]
  | .build | .gencodes | .wrhdr => [.sequence]
  | .encode => [.sequence, .noCode]
  | .rdhdr => [.badMagic, .malformedHeader]
  | .decode => [.sequence, .malformedStream]
  | .compress => [.overflow, .noCode]
  | .decompress => [.badMagic, .malformedHeader, .malformedStream]
  | .reservedA | .reservedB | .reservedC | .reservedD | .reservedE | .reservedF => [.illegalCmd]

/-- R114: the valid flag a command needs, read from `STATUS`. -/
def prerequisite : Instr → StatusWord → Bool
  | .build => freqValid
  | .gencodes | .wrhdr | .decode => treeValid
  | .encode => codeValid
  | .clear | .count | .rdhdr | .compress | .decompress => fun _ => true
  | .reservedA | .reservedB | .reservedC | .reservedD | .reservedE | .reservedF => fun _ => true

/-- R117: `(FREQ_VALID, TREE_VALID, CODE_VALID)` after a command that ended without a fault, from those before. -/
def flagsAfterSuccess : Instr → Bool → Bool → Bool → Bool × Bool × Bool
  | .clear, _, _, _ => (false, false, false)
  | .count, _, _, _ => (true, false, false)
  | .build, f, _, _ => (f, true, false)
  | .gencodes, f, t, _ => (f, t, true)
  | .wrhdr, f, t, c | .encode, f, t, c | .decode, f, t, c => (f, t, c)
  | .rdhdr, f, _, _ | .decompress, f, _, _ => (f, true, false)
  | .compress, _, _, _ => (true, true, true)
  | .reservedA, f, t, c | .reservedB, f, t, c | .reservedC, f, t, c => (f, t, c)
  | .reservedD, f, t, c | .reservedE, f, t, c | .reservedF, f, t, c => (f, t, c)

/-- R117: the same after a command that ended by `raise e`: "the flags stay as the fault found them (cleared ones stay
cleared)". A Sequence fault finds them before any is cleared (R114). -/
def flagsAfterFault : Instr → Cause → Bool → Bool → Bool → Bool × Bool × Bool
  | .count, _, _, _, _ => (false, false, false)
  | .rdhdr, _, f, _, _ => (f, false, false)
  | .compress, .noCode, _, _, _ => (true, true, true)
  | .compress, _, _, _, _ => (false, false, false)
  | .decompress, .malformedStream, f, _, _ => (f, true, false)
  | .decompress, _, f, _, _ => (f, false, false)
  | .clear, _, f, t, c | .build, _, f, t, c | .gencodes, _, f, t, c | .wrhdr, _, f, t, c => (f, t, c)
  | .encode, _, f, t, c | .decode, _, f, t, c => (f, t, c)
  | .reservedA, _, f, t, c | .reservedB, _, f, t, c | .reservedC, _, f, t, c => (f, t, c)
  | .reservedD, _, f, t, c | .reservedE, _, f, t, c | .reservedF, _, f, t, c => (f, t, c)

/-- The reserved codes (R52). -/
def reservedCodes : List Instr := [.reservedA, .reservedB, .reservedC, .reservedD, .reservedE, .reservedF]

/-- Change the state of an outcome that has one. -/
def mapNext (f : State → State) : Host.Outcome State Fault Refusal → Host.Outcome State Fault Refusal
  | .next s => .next (f s)
  | .fault r => .fault r
  | .refused r => .refused r

/-! ## The source as a claim sees it -/

/-- The bits of the source from the cursor on. -/
def remaining (s : State) : Bits := s.src.bits.drop s.src.pos

/-- The bytes an 8-bit reader finds from the cursor on (R70, R73). -/
def remainingBytes (s : State) : List Byte := bitsToBytes (remaining s)

/-- The bytes of the whole source, which ENCODE reads after its rewind (R92). -/
def sourceBytes (s : State) : List Byte := bitsToBytes s.src.bits

/-! ## Trees (R18) -/

/-- The indices of the entries a pre-order walk from `i` visits, or `none` if it leaves the memory or does not end. -/
def indicesAt (m : Vector NodeEntry 513) : Nat → Nat → Option (List Nat)
  | 0, _ => none
  | fuel + 1, i =>
    match m[i]? with
    | none => none
    | some e =>
      if e.leaf then some [i]
      else
        match indicesAt m fuel e.left.toNat, indicesAt m fuel e.right.toNat with
        | some l, some r => some (i :: (l ++ r))
        | _, _ => none

/-- R18 items 1 to 5. Item 4, the ownership condition of R15, is that the walk from `ROOT` visits each of the entries
`0..NNODES-1` exactly once. -/
abbrev TreeWF (s : State) : Prop :=
  (1 ≤ s.nnodes.toNat ∧ s.nnodes.toNat ≤ 513 ∧ s.root.toNat < s.nnodes.toNat) ∧
  (nodeRead s s.root).map NodeEntry.leaf = some false ∧
  (∀ i : Fin 513, i.val < s.nnodes.toNat → s.node[i].leaf = false →
    s.node[i].left.toNat < s.nnodes.toNat ∧ s.node[i].right.toNat < s.nnodes.toNat ∧ s.node[i].left ≠ s.node[i].right) ∧
  ((indicesAt s.node 513 s.root.toNat).getD []).Perm (List.range s.nnodes.toNat) ∧
  (∀ i : Fin 513, i.val < s.nnodes.toNat → s.node[i].leaf = true → s.node[i].sym.toNat ≤ 256)

/-- The number of leaves of a tree. -/
def leafCount (t : CodeTree) : Nat := t.symbols.length

/-- The symbols with a count above 0, ascending (R75). -/
def liveSymbols (s : State) : List Symbol := (List.finRange 257).filter fun v => decide (s.freq[v] ≠ 0)

/-- `L` of R80: the number of leaves BUILD makes. -/
def buildLeafCount (s : State) : Nat := if (liveSymbols s).length = 1 then 2 else (liveSymbols s).length

/-- The count of a symbol field, 0 for a value that is no symbol. -/
def countOf (s : State) (v : SymField) : Nat := (s.freq[v.toNat]?.map BitVec.toNat).getD 0

/-- The weighted external path length: the sum over all leaves of depth times count (00_scope.md section 8, R81). -/
def pathLength (s : State) (t : CodeTree) : Nat := ((leafPaths t).map fun x => countOf s x.1 * x.2.length).sum

/-- The root path of the last leaf with symbol `s`, in pre-order, if there is one (R85, R87). -/
def lastPath (t : CodeTree) (s : Symbol) : Option Bits :=
  (((leafPaths t).filter fun x => decide (x.1.toNat = s.val)).getLast?).map Prod.snd

/-- `CODE` is the table GENCODES derives from the tree `t` (R17, R85): per symbol the path of its last leaf, right
aligned with zeros above; for a symbol with no leaf length 0 and bits 0. -/
abbrev CodesOf (t : CodeTree) (m : Vector CodeEntry 257) : Prop :=
  ∀ s : Symbol,
    m[s].len.toNat = ((lastPath t s).getD []).length ∧ codeword m[s] = (lastPath t s).getD [] ∧
      m[s].bits.toNat < 2 ^ m[s].len.toNat

/-- The codewords of a byte sequence, one after another (R55). -/
def encodeBytes (m : Vector CodeEntry 257) (l : List Byte) : Bits := l.flatMap fun b => codeword m[byteSymbol b]

/-- The root paths of a list of leaves, one after another: a payload as the decoder sees it (R55, R58). -/
def pathBits (l : List (SymField × Bits)) : Bits := l.flatMap Prod.snd

/-- The bytes of a list of leaves, as DECODE writes them (R104). -/
def leafBytes (l : List (SymField × Bits)) : Bits := l.flatMap fun x => bitsOf 8 x.1.toNat

/-- `l` lists leaves of `t`, none of them the sentinel's. -/
abbrev DataLeaves (t : CodeTree) (l : List (SymField × Bits)) : Prop := ∀ x ∈ l, x ∈ leafPaths t ∧ x.1 ≠ 256

/-- A closed sink holding `w` and its padding of zeros (R34). -/
def closedSink (w : Bits) : Sink := ⟨w ++ List.replicate (padLength w.length) false, true⟩

/-- The state right after reset with a source attached (R148). -/
def launch (bits : Bits) : State := withSource State.reset ⟨bits, 0⟩

/-! ## The invariant -/

/-- `STATUS` between commands: not busy, reserved bits 0 (R11), `ERR` is 0 exactly when `FAULT` is (R11, R125), at most
7, and never both `DONE` and `FAULT`. -/
abbrev StatusOk (w : StatusWord) : Prop :=
  isBusy w = false ∧ reservedOf w = 0 ∧ (isFault w = true ↔ errOf w ≠ 0) ∧ (errOf w).toNat ≤ 7 ∧
    ¬(isDone w = true ∧ isFault w = true)

/-- What `FREQ_VALID` promises (R13, R14, R72). -/
abbrev TableOk (s : State) : Prop :=
  s.freq[256] = 1 ∧ s.total.toNat ≤ hwParams.nMax ∧
    ((List.finRange 256).map fun b => (s.freq[b.castSucc]).toNat).sum = s.total.toNat

/-- What `CODE_VALID` promises (R11, R17). -/
abbrev CodesOk (s : State) : Prop := ∃ t, currentTree s = some t ∧ CodesOf t s.code

/-- The invariant of the block between commands. -/
abbrev Inv (s : State) : Prop :=
  StatusOk s.status ∧
  (freqValid s.status = true → TableOk s) ∧
  (treeValid s.status = true → TreeWF s) ∧
  (codeValid s.status = true → treeValid s.status = true ∧ CodesOk s) ∧
  s.src.pos ≤ s.src.bits.length ∧
  (s.snk.closed = true → s.snk.bits.length % 8 = 0)

/-- Two states that a host cannot tell apart (R20, R137): they agree on everything but what no valid flag covers. -/
abbrev Alike (s t : State) : Prop :=
  t.status = s.status ∧ SameRoot s t ∧ t.cur = s.cur ∧ t.total = s.total ∧ t.src = s.src ∧ t.snk = s.snk ∧
  SameHost s t ∧
  (freqValid s.status = true → t.freq = s.freq) ∧
  (treeValid s.status = true → ∀ i : Fin 513, i.val < s.nnodes.toNat → t.node[i] = s.node[i]) ∧
  (codeValid s.status = true → t.code = s.code)

/-- Two outcomes that a host cannot tell apart. -/
def AlikeOutcomes : Host.Outcome State Fault Refusal → Host.Outcome State Fault Refusal → Prop
  | .next s, .next t => Alike s t
  | .fault f, .fault g => f = g
  | .refused r, .refused q => r = q
  | _, _ => False

end Sys2Proof.Machine
end

