-- ==== Sys2Proof/Certificates/Slice0/Obligations.lean ====
section
/-! DEFINITION. The statements for the provers. Each docstring names the rule of spec/ it rests on; what is the
model's own choice is said so, with its log entry. -/

open Sys2Proof Sys2Proof.Machine

/-! ## Reset, the ports, the command word -/

/-- R146: after reset the block is idle and waits; R20: the values of its registers. A block to which the host does
nothing stays as it is. -/
def Obligations.ResetStateIsIdle : Prop :=
  State.reset.status = 0x0000#16 ∧ State.reset.root = 0 ∧ State.reset.nnodes = 0 ∧ State.reset.cur = 0 ∧
  State.reset.total = 0 ∧ isBusy State.reset.status = false ∧ cmdReady State.reset = true ∧
  step State.reset = .next State.reset ∧ ∀ s : State, s.host = [] → step s = .next s

/-- R145, R147: a pulse of `rst` gives the registers their reset values and leaves the channels alone. The memories it
leaves are free values (the model's choice, log 5); nothing is said of them here. -/
def Obligations.ResetPulseClearsRegisters : Prop :=
  ∀ s : State, ∃ t, hostAct .reset s = .next t ∧ t.status = 0x0000#16 ∧ t.root = 0 ∧ t.nnodes = 0 ∧ t.cur = 0 ∧
    t.total = 0 ∧ t.src = s.src ∧ t.snk = s.snk ∧ t.host = s.host

/-- R153: what a reset during a command leaves. The bits in the sink are a prefix of what the command would have
written, and the sink is not closed by it. The places are free values (log 6), so this holds for every place. -/
def Obligations.ResetDuringCommandLeavesAPrefix : Prop :=
  ∀ (op : CmdWord) (s t : State), hostAct (.resetDuring op) s = .next t →
    t.status = 0x0000#16 ∧ t.root = 0 ∧ t.nnodes = 0 ∧ t.cur = 0 ∧ t.total = 0 ∧
    t.src.bits = s.src.bits ∧ t.src.pos ≤ max s.src.pos s.src.bits.length ∧ t.host = s.host ∧
    t.snk.closed = s.snk.closed ∧ s.snk.bits <+: t.snk.bits ∧
    ∀ u, exec (decodeOp op) s = .next u → t.snk.bits <+: u.snk.bits

/-- R148 items 2 and 3: attaching a channel changes that channel and nothing else. That it is an action of the model's
host list is the model's choice (log 4). -/
def Obligations.AttachingChangesOneChannel : Prop :=
  ∀ (s : State) (b : Bits),
    (∃ t, hostAct (.attachSource b) s = .next t ∧ t.src = ⟨b, 0⟩ ∧ t.snk = s.snk ∧ t.status = s.status ∧ SameInside s t) ∧
    (∃ t, hostAct .attachSink s = .next t ∧ t.snk = ⟨[], false⟩ ∧ t.src = s.src ∧ t.status = s.status ∧ SameInside s t)

/-- R51, the columns "op" and "mnemonic": the 16 command words, written out. -/
def Obligations.CommandWordsDecode : Prop :=
  decodeTableWord 8 0x0 = some .clear ∧ decodeTableWord 8 0x1 = some .count ∧ decodeTableWord 8 0x2 = some .build ∧
  decodeTableWord 8 0x3 = some .gencodes ∧ decodeTableWord 8 0x4 = some .wrhdr ∧ decodeTableWord 8 0x5 = some .encode ∧
  decodeTableWord 8 0x6 = some .rdhdr ∧ decodeTableWord 8 0x7 = some .decode ∧ decodeTableWord 8 0x8 = some .compress ∧
  decodeTableWord 8 0x9 = some .decompress ∧ decodeTableWord 8 0xA = some .reservedA ∧
  decodeTableWord 8 0xB = some .reservedB ∧ decodeTableWord 8 0xC = some .reservedC ∧
  decodeTableWord 8 0xD = some .reservedD ∧ decodeTableWord 8 0xE = some .reservedE ∧
  decodeTableWord 8 0xF = some .reservedF

/-- R50, R51: decoding and encoding agree both ways. The third clause is no rule of the spec: that a number which does not
fit the 4 wires of `cmd_op` decodes to nothing is the model's choice (DESIGN CHOICE, log 11). -/
def Obligations.EncodeDecodeAgree : Prop :=
  (∀ i : Instr, decodeTableWord 8 (encode i).toNat = some i) ∧ (∀ op : CmdWord, encode (decodeOp op) = op) ∧
  (∀ n w : Nat, 16 ≤ w → decodeTableWord n w = none)

/-- R113, R118: a step at which the host presents a command is that command's meaning, at the state with the host's
action taken off its list (log 4); and `withFetchWord` presents exactly the word's command. -/
def Obligations.StepRunsThePresentedCommand : Prop :=
  (∀ (s : State) (op : CmdWord) (rest : List HostAction), s.host = .command op :: rest →
    step s = exec (decodeOp op) (withHost s rest)) ∧
  (∀ (s : State) (n w : Nat) (i : Instr), decodeTableWord n w = some i → step (s.withFetchWord n w) = exec i s)

/-- R3: `exec` is the build of the hardware whose parameters have the values of R3; the magic value is the spec's
default from general knowledge (log 1). -/
def Obligations.ExecIsThisBuild : Prop :=
  (∀ (i : Instr) (s : State), exec i s = runWith hwParams i s) ∧ hwParams.magic = 0xFACE8201#32 ∧
  hwParams.nMax = 2 ^ 64 - 2 ∧ hwParams.dummySym = 0

/-! ## The channel primitives -/

/-- R31: SrcRead returns the next bits, first most significant, and moves the cursor over them, or returns END and
moves nothing. -/
def Obligations.SrcReadReadsOrEnds : Prop :=
  ∀ (n : Nat) (s : State),
    (s.src.pos + n ≤ s.src.bits.length →
      ∃ v : BitVec n, srcRead n s = (some v, withSrcPos s (s.src.pos + n)) ∧ bitsOf n v.toNat = (remaining s).take n) ∧
    (s.src.bits.length < s.src.pos + n → srcRead n s = (none, s))

/-- R33: SnkWrite appends the low `n` bits, most significant first, and ignores the bits above. R34: SnkClose pads with
zeros to a byte boundary and closes. A closed sink is refused (U6, log 12). -/
def Obligations.SinkPrimitivesAppendAndClose : Prop :=
  ∀ (n v : Nat) (s : State),
    (s.snk.closed = false →
      snkWrite n v s = .done (withSink s ⟨s.snk.bits ++ bitsOf n v, false⟩) ∧ snkWrite n v s = snkWrite n (v % 2 ^ n) s ∧
      snkClose hwParams s = .done (withSink s (closedSink s.snk.bits)) ∧ padLength s.snk.bits.length ≤ 7 ∧
      (closedSink s.snk.bits).bits.length % 8 = 0) ∧
    (s.snk.closed = true → snkWrite n v s = .refused .sinkClosed ∧ snkClose hwParams s = .refused .sinkClosed)

/-- R44: the port transfers of a write are at most 32 bits each, `ceil(n / 32)` of them, and carry its bits in order. -/
def Obligations.TransfersCarryTheWrite : Prop :=
  ∀ n v : Nat,
    (snkTransfers n v).flatMap (fun x => bitsOf x.1 x.2) = bitsOf n v ∧
    (∀ x ∈ snkTransfers n v, 1 ≤ x.1 ∧ x.1 ≤ 32 ∧ x.2 < 2 ^ x.1) ∧ (snkTransfers n v).length = (n + 31) / 32

/-! ## Acceptance, faults, flags -/

/-- R113, R149: a command presented while BUSY is not accepted and has no effect. -/
def Obligations.BusyCommandHasNoEffect : Prop :=
  ∀ (i : Instr) (s : State), isBusy s.status = true → exec i s = .next s

/-- R127: `raise E` writes FAULT, ERR, DONE and BUSY and nothing else, and no later statement of the body runs. -/
def Obligations.RaiseWritesOnlyStatus : Prop :=
  ∀ (e : Cause) (s : State) (k : State → Body),
    (Body.raised e s).andThen k = .raised e s ∧
    ∃ t, finish (.raised e s) = .next t ∧
      TookFault e s t (freqValid s.status) (treeValid s.status) (codeValid s.status) ∧ SameInside s t ∧
      t.src = s.src ∧ t.snk = s.snk

/-- R128: while FAULT = 1 every command but CLEAR is dropped without effect; CLEAR and reset end the fault with every
valid flag 0. -/
def Obligations.FaultIsStickyUntilClear : Prop :=
  ∀ s : State, isBusy s.status = false → isFault s.status = true →
    (∀ i : Instr, i ≠ .clear → exec i s = .next s) ∧
    (∃ t, exec .clear s = .next t ∧ isFault t.status = false ∧ errOf t.status = 0 ∧ FlagsAre t t false false false) ∧
    (∃ t, hostAct .reset s = .next t ∧ isFault t.status = false ∧ errOf t.status = 0 ∧ FlagsAre t t false false false)

/-- R116: CLEAR, faulted or not, leaves `STATUS = 0x0002` and the registers 0, and touches no memory and no channel. -/
def Obligations.ClearStartsANewRun : Prop :=
  ∀ s : State, isBusy s.status = false →
    ∃ t, exec .clear s = .next t ∧ t.status = 0x0002#16 ∧ t.root = 0 ∧ t.nnodes = 0 ∧ t.cur = 0 ∧ t.total = 0 ∧
      t.freq = s.freq ∧ t.node = s.node ∧ t.inq = s.inq ∧ t.code = s.code ∧ t.src = s.src ∧ t.snk = s.snk ∧ SameHost s t

/-- R120: a reserved code accepted while FAULT = 0 raises IllegalCmd and changes nothing else; the fault is sticky. -/
def Obligations.ReservedCodeRaisesIllegalCmd : Prop :=
  ∀ i ∈ reservedCodes, ∀ s : State, Ready s →
    ∃ t, exec i s = .next t ∧
      TookFault .illegalCmd s t (freqValid s.status) (treeValid s.status) (codeValid s.status) ∧
      SameInside s t ∧ t.src = s.src ∧ t.snk = s.snk ∧ ∀ j : Instr, j ≠ .clear → exec j t = .next t

/-- R114: a command whose prerequisite flag is 0 raises Sequence before any state of its body changes; a command whose
prerequisite holds never raises Sequence. -/
def Obligations.PrerequisitesDecideSequence : Prop :=
  ∀ (i : Instr) (s : State), Ready s →
    (prerequisite i s.status = false →
      ∃ t, exec i s = .next t ∧
        TookFault .sequence s t (freqValid s.status) (treeValid s.status) (codeValid s.status) ∧
        SameInside s t ∧ t.src = s.src ∧ t.snk = s.snk) ∧
    (prerequisite i s.status = true → ∀ t, exec i s = .next t → isFault t.status = true → errOf t.status ≠ causeCode .sequence)

/-- R126: which command can raise which fault, and nothing else. -/
def Obligations.OnlyListedFaultsAreRaised : Prop :=
  ∀ (i : Instr) (s t : State), Ready s → exec i s = .next t → isFault t.status = true →
    ∃ e ∈ listedFaults i, errOf t.status = causeCode e

/-- R117: the valid flags after every command, ended without and by a fault. -/
def Obligations.ValidFlagsFollowTheTable : Prop :=
  ∀ (i : Instr) (s t : State), Ready s → exec i s = .next t →
    (isFault t.status = false →
      (freqValid t.status, treeValid t.status, codeValid t.status) =
        flagsAfterSuccess i (freqValid s.status) (treeValid s.status) (codeValid s.status)) ∧
    (∀ e : Cause, isFault t.status = true → errOf t.status = causeCode e →
      (freqValid t.status, treeValid t.status, codeValid t.status) =
        flagsAfterFault i e (freqValid s.status) (treeValid s.status) (codeValid s.status))

/-- R21, the marks W: what no mark of a command's row covers is the same after it, however it ends. -/
def Obligations.CommandsWriteOnlyTheirRow : Prop :=
  ∀ (i : Instr) (s t : State), exec i s = .next t →
    (i ∉ [Instr.clear, .build, .rdhdr, .compress, .decompress] → SameRoot s t) ∧
    (i ∉ [Instr.clear, .decode, .decompress] → t.cur = s.cur) ∧
    (i ∉ [Instr.clear, .count, .compress] → t.total = s.total) ∧
    (i ∉ [Instr.count, .compress] → t.freq = s.freq) ∧
    (i ∉ [Instr.build, .rdhdr, .compress, .decompress] → t.node = s.node) ∧
    (i ∉ [Instr.build, .compress] → t.inq = s.inq) ∧
    (i ∉ [Instr.gencodes, .compress] → t.code = s.code) ∧
    (i ∉ [Instr.count, .encode, .rdhdr, .decode, .compress, .decompress] → t.src = s.src) ∧
    (i ∉ [Instr.wrhdr, .encode, .decode, .compress, .decompress] → t.snk = s.snk) ∧
    (i ≠ .clear → reservedOf t.status = reservedOf s.status) ∧ SameHost s t

/-- R38: the source's bits never change, and nothing written to the sink is changed or taken back, also not by a later
fault of the same command. -/
def Obligations.SinkIsAppendOnly : Prop :=
  ∀ (i : Instr) (s t : State), exec i s = .next t → t.src.bits = s.src.bits ∧ s.snk.bits <+: t.snk.bits

/-- R38: "The block never reads the sink". What a command does is the same for every content of the sink; only the
number of bits modulo 8 matters, to the padding (R34). -/
def Obligations.SinkContentIsNeverRead : Prop :=
  ∀ (i : Instr) (s : State) (b : Bits), b.length % 8 = s.snk.bits.length % 8 →
    exec i (withSink s ⟨b, s.snk.closed⟩) =
      mapNext (fun t => withSink t ⟨b ++ t.snk.bits.drop s.snk.bits.length, t.snk.closed⟩) (exec i s)

/-! ## COUNT -/

/-- R70, R71, R73: COUNT counts the whole bytes from the cursor to the end of the source, sets the sentinel's count to
1, and leaves the rest alone. -/
def Obligations.CountCountsTheSource : Prop :=
  ∀ s : State, Ready s → (remainingBytes s).length ≤ hwParams.nMax →
    ∃ t, exec .count s = .next t ∧ Succeeded s t true false false ∧
      (∀ b : Byte, (t.freq[byteSymbol b]).toNat = (remainingBytes s).count b) ∧ t.freq[eosSymbol] = 1 ∧
      t.total.toNat = (remainingBytes s).length ∧
      t.src = ⟨s.src.bits, s.src.pos + 8 * (remainingBytes s).length⟩ ∧ t.snk = s.snk ∧
      SameRoot s t ∧ t.cur = s.cur ∧ t.node = s.node ∧ t.inq = s.inq ∧ t.code = s.code ∧ SameHost s t

/-- R72: an input of more than N_MAX bytes raises Overflow, with FREQ and TOTAL as they stood after N_MAX bytes and the
byte that did not fit consumed. For every N_MAX the 64-bit counters can hold. -/
def Obligations.CountOverflows : Prop :=
  ∀ (p : Config.Params) (s : State), p.nMax < 2 ^ 64 → Ready s → p.nMax < (remainingBytes s).length →
    ∃ t, runWith p .count s = .next t ∧ TookFault .overflow s t false false false ∧
      (∀ b : Byte, (t.freq[byteSymbol b]).toNat = ((remainingBytes s).take p.nMax).count b) ∧ t.freq[eosSymbol] = 0 ∧
      t.total.toNat = p.nMax ∧ t.src = ⟨s.src.bits, s.src.pos + 8 * (p.nMax + 1)⟩ ∧ t.snk = s.snk ∧
      SameRoot s t ∧ t.cur = s.cur ∧ t.node = s.node ∧ t.inq = s.inq ∧ t.code = s.code ∧ SameHost s t

/-! ## BUILD -/

/-- R76: RemoveMin takes the element of the priority set that is least by weight, then by index, and takes it out. -/
def Obligations.RemoveMinTakesTheLeast : Prop :=
  ∀ h : Heap,
    (∀ x, x ∈ prioritySet h ↔ ∃ i : Fin 513, h.inq[i] = true ∧ x = (h.node[i].weight, i.val)) ∧
    (removeMin hwParams h = none ↔ prioritySet h = []) ∧
    (∀ w m h', removeMin hwParams h = some (w, m, h') →
      (w, m) ∈ prioritySet h ∧
      (∀ x ∈ prioritySet h, x = (w, m) ∨ w.toNat < x.1.toNat ∨ (w.toNat = x.1.toNat ∧ m < x.2)) ∧
      prioritySet h' = (prioritySet h).filter (fun x => decide (x.2 ≠ m)) ∧ h'.node = h.node ∧ h'.n = h.n)

/-- R77: of the two nodes removed for a merge the first becomes the right child and the second the left child; the new
node has the sum of their weights (R75). -/
def Obligations.MergePlacesTheFirstRemovedRight : Prop :=
  ∀ (h h1 h2 : Heap) (fuel a b : Nat) (wa wb : Count), 1 < (prioritySet h).length →
    removeMin hwParams h = some (wa, a, h1) → removeMin hwParams h1 = some (wb, b, h2) →
    mergeLoop hwParams (fuel + 1) h =
      mergeLoop hwParams fuel (heapAdd h2 (innerEntry (wa + wb) (BitVec.ofNat 10 b) (BitVec.ofNat 10 a)))

/-- R75, R12, R16: BUILD leaves a well-formed tree (R18 items 1 to 5) whose root is the last node, exactly the root in
the priority set, the entries past the tree as they were, and the rest alone. -/
def Obligations.BuildLeavesAWellFormedTree : Prop :=
  ∀ s : State, Ready s → freqValid s.status = true → s.freq[eosSymbol] ≠ 0 →
    ∃ t, exec .build s = .next t ∧ Succeeded s t true true false ∧ TreeWF t ∧ t.root.toNat + 1 = t.nnodes.toNat ∧
      (∀ i : Fin 513, t.inq[i] = decide (i.val = t.root.toNat)) ∧
      (∀ i : Fin 513, t.nnodes.toNat ≤ i.val → t.node[i] = s.node[i]) ∧
      SameTable s t ∧ t.cur = s.cur ∧ t.code = s.code ∧ t.src = s.src ∧ t.snk = s.snk ∧ SameHost s t

/-- R18 items 6 to 9, R79: the leaves of the tree BUILD makes are the symbols that occur, each once, and for an empty
input also symbol 0; a leaf weighs its count, an internal node the sum of its children, with no wrap; the root weighs
TOTAL + 1. -/
def Obligations.BuiltTreeMatchesTheTable : Prop :=
  ∀ s : State, Ready s → freqValid s.status = true → TableOk s →
    ∃ t T, exec .build s = .next t ∧ currentTree t = some T ∧ T.symbols.Nodup ∧ (256 : SymField) ∈ T.symbols ∧
      (∀ v : SymField, v ∈ T.symbols ↔ countOf s v ≠ 0 ∨ (s.total = 0 ∧ v = 0)) ∧
      (∀ i : Fin 513, i.val < t.nnodes.toNat → t.node[i].leaf = true → t.node[i].weight.toNat = countOf s t.node[i].sym) ∧
      (∀ i l r : Fin 513, i.val < t.nnodes.toNat → t.node[i].leaf = false → l.val = t.node[i].left.toNat →
        r.val = t.node[i].right.toNat → t.node[i].weight.toNat = t.node[l].weight.toNat + t.node[r].weight.toNat) ∧
      (∀ i : Fin 513, i.val = t.root.toNat → t.node[i].weight.toNat = s.total.toNat + 1)

/-- R80: the shape of the node memory after BUILD: `L` leaves first, in ascending symbol order unless the input was
empty; then `L - 1` internal nodes with children of smaller index; the root last; depth 1 to `L - 1`. -/
def Obligations.BuiltTreeShape : Prop :=
  ∀ s : State, Ready s → freqValid s.status = true → s.freq[eosSymbol] ≠ 0 →
    2 ≤ buildLeafCount s ∧ buildLeafCount s ≤ 257 ∧
    ∃ t T, exec .build s = .next t ∧ currentTree t = some T ∧ leafCount T = buildLeafCount s ∧
      t.nnodes.toNat = 2 * buildLeafCount s - 1 ∧ t.root.toNat = 2 * buildLeafCount s - 2 ∧
      1 ≤ T.depth ∧ T.depth ≤ buildLeafCount s - 1 ∧
      (2 ≤ (liveSymbols s).length →
        t.node.toList.take (buildLeafCount s) =
          (liveSymbols s).map fun v => leafEntry (BitVec.ofNat 9 v.val) s.freq[v]) ∧
      (∀ i : Fin 513, i.val < buildLeafCount s → t.node[i].leaf = true) ∧
      (∀ i : Fin 513, buildLeafCount s ≤ i.val → i.val < t.nnodes.toNat →
        t.node[i].leaf = false ∧ t.node[i].left.toNat < i.val ∧ t.node[i].right.toNat < i.val)

/-- R78: the table of the empty input gives the two-leaf tree with the synthesized leaf, and the sentinel the code "0";
one distinct byte value gives a two-leaf tree with no synthesized leaf. -/
def Obligations.EmptyInputGetsASecondLeaf : Prop :=
  (∀ s : State, Ready s → freqValid s.status = true → (∀ v : Symbol, s.freq[v] = if v = eosSymbol then 1 else 0) →
    ∃ t u, exec .build s = .next t ∧ t.node[0] = leafEntry 256 1 ∧ t.node[1] = leafEntry 0 0 ∧
      t.node[2] = innerEntry 1 0 1 ∧ t.root = 2 ∧ t.nnodes = 3 ∧
      exec .gencodes t = .next u ∧ codeword u.code[eosSymbol] = [false] ∧ codeword u.code[(0 : Symbol)] = [true]) ∧
  (∀ (s : State) (b : Byte), Ready s → freqValid s.status = true →
    (∀ v : Symbol, s.freq[v] ≠ 0 ↔ v = eosSymbol ∨ v = byteSymbol b) →
    ∃ t T, exec .build s = .next t ∧ t.nnodes = 3 ∧ currentTree t = some T ∧ T.symbols.Perm [b.setWidth 9, 256])

/-- R81: the tree BUILD makes minimizes the weighted external path length over all binary trees with the same
leaves. -/
def Obligations.BuiltTreeIsOptimal : Prop :=
  ∀ (s t : State) (T T' : CodeTree), Ready s → freqValid s.status = true → TableOk s → exec .build s = .next t →
    currentTree t = some T → T'.symbols.Perm T.symbols → pathLength s T ≤ pathLength s T'

/-! ## GENCODES -/

/-- R85, R87, R88: after GENCODES every symbol has the path of its last leaf in pre-order as a codeword, and length 0 if
it has no leaf; no leaf has an empty code; the rest is left alone. -/
def Obligations.GencodesRecordsLeafPaths : Prop :=
  ∀ s : State, Ready s → treeValid s.status = true → TreeWF s →
    ∃ t T, currentTree s = some T ∧ exec .gencodes s = .next t ∧ Succeeded s t (freqValid s.status) true true ∧
      CodesOf T t.code ∧ (∀ v : Symbol, t.code[v].len ≠ 0 ↔ BitVec.ofNat 9 v.val ∈ T.symbols) ∧
      SameRoot s t ∧ t.cur = s.cur ∧ SameTable s t ∧ t.node = s.node ∧ t.inq = s.inq ∧ t.src = s.src ∧ t.snk = s.snk ∧
      SameHost s t

/-- R86, R9: no codeword GENCODES records is a prefix of another symbol's. -/
def Obligations.CodewordsArePrefixFree : Prop :=
  ∀ s t : State, Ready s → treeValid s.status = true → TreeWF s → exec .gencodes s = .next t →
    ∀ v w : Symbol, v ≠ w → t.code[v].len ≠ 0 → t.code[w].len ≠ 0 → ¬(codeword t.code[v] <+: codeword t.code[w])

/-! ## WRHDR, ENCODE, COMPRESS -/

/-- R90: WRHDR appends the magic tag and the serialized tree, `32 + 11L - 1` bits (R56), and changes nothing else. -/
def Obligations.WrhdrAppendsTheHeader : Prop :=
  ∀ s : State, ReadyToWrite s → treeValid s.status = true → TreeWF s →
    ∃ t T, currentTree s = some T ∧ exec .wrhdr s = .next t ∧
      Succeeded s t (freqValid s.status) true (codeValid s.status) ∧
      t.snk = ⟨s.snk.bits ++ bitsOf 32 hwParams.magic.toNat ++ serialize T, false⟩ ∧
      t.snk.bits.length + 1 = s.snk.bits.length + 32 + 11 * leafCount T ∧ SameInside s t ∧ t.src = s.src

/-- R91: `Wr` writes `ser(t)`, and no serialization is a proper prefix of another: what follows a serialized tree
cannot change which tree is read. -/
def Obligations.SerializationIsSelfDelimiting : Prop :=
  (∀ (T : CodeTree) (s : State), s.snk.closed = false →
    writeTree T s = .done (withSink s ⟨s.snk.bits ++ serialize T, false⟩)) ∧
  (∀ (T T' : CodeTree) (r r' : Bits), serialize T ++ r = serialize T' ++ r' → T = T' ∧ r = r')

/-- R92: ENCODE rewinds, appends the codeword of every byte of the source and the sentinel's, pads and closes. -/
def Obligations.EncodeAppendsThePayload : Prop :=
  ∀ s : State, ReadyToWrite s → codeValid s.status = true →
    (∀ b ∈ sourceBytes s, s.code[byteSymbol b].len ≠ 0) → s.code[eosSymbol].len ≠ 0 →
    ∃ t, exec .encode s = .next t ∧ Succeeded s t (freqValid s.status) (treeValid s.status) true ∧
      t.snk = closedSink (s.snk.bits ++ encodeBytes s.code (sourceBytes s) ++ codeword s.code[eosSymbol]) ∧
      t.src = ⟨s.src.bits, 8 * (sourceBytes s).length⟩ ∧ SameInside s t

/-- R93: a byte without a code, or the sentinel without one, raises NoCode: nothing is written for it, the bits already
appended stay, the sink is not closed. -/
def Obligations.EncodeRaisesNoCode : Prop :=
  (∀ (s : State) (pre post : List Byte) (b : Byte), ReadyToWrite s → codeValid s.status = true →
    sourceBytes s = pre ++ b :: post → (∀ x ∈ pre, s.code[byteSymbol x].len ≠ 0) → s.code[byteSymbol b].len = 0 →
    ∃ t, exec .encode s = .next t ∧ TookFault .noCode s t (freqValid s.status) (treeValid s.status) true ∧
      t.snk = ⟨s.snk.bits ++ encodeBytes s.code pre, false⟩ ∧ t.src = ⟨s.src.bits, 8 * (pre.length + 1)⟩ ∧
      SameInside s t) ∧
  (∀ s : State, ReadyToWrite s → codeValid s.status = true → (∀ x ∈ sourceBytes s, s.code[byteSymbol x].len ≠ 0) →
    s.code[eosSymbol].len = 0 →
    ∃ t, exec .encode s = .next t ∧ TookFault .noCode s t (freqValid s.status) (treeValid s.status) true ∧
      t.snk = ⟨s.snk.bits ++ encodeBytes s.code (sourceBytes s), false⟩ ∧
      t.src = ⟨s.src.bits, 8 * (sourceBytes s).length⟩ ∧ SameInside s t)

/-- R94, R96: with the cursor at 0 and an open sink, COMPRESS of an input of at most N_MAX bytes ends without a fault;
it appends magic, tree, codewords, the sentinel's codeword and padding, and leaves the table, tree and codes of the
input. -/
def Obligations.CompressWritesAFile : Prop :=
  ∀ s : State, ReadyToWrite s → s.src.pos = 0 → (sourceBytes s).length ≤ hwParams.nMax →
    ∃ t T, exec .compress s = .next t ∧ Succeeded s t true true true ∧ TreeWF t ∧ currentTree t = some T ∧
      CodesOf T t.code ∧ (∀ b : Byte, (t.freq[byteSymbol b]).toNat = (sourceBytes s).count b) ∧ t.freq[eosSymbol] = 1 ∧
      t.total.toNat = (sourceBytes s).length ∧
      t.snk = closedSink (s.snk.bits ++ bitsOf 32 hwParams.magic.toNat ++ serialize T ++
        encodeBytes t.code (sourceBytes s) ++ codeword t.code[eosSymbol]) ∧
      t.src = ⟨s.src.bits, 8 * (sourceBytes s).length⟩ ∧ t.cur = s.cur ∧ SameHost s t

/-- R59, R63: the size of the file COMPRESS writes: header `32 + 11L - 1` bits, payload the sum of count times code
length and the sentinel's code, padding to a byte. `L` is the number of distinct byte values plus 1, 2 for the empty
input. -/
def Obligations.CompressedFileSize : Prop :=
  ∀ s : State, ReadyToWrite s → s.src.pos = 0 → s.snk.bits = [] → (sourceBytes s).length ≤ hwParams.nMax →
    ∃ t T, exec .compress s = .next t ∧ currentTree t = some T ∧
      leafCount T = (if sourceBytes s = [] then 2 else (sourceBytes s).dedup.length + 1) ∧
      t.snk.bits.length + 1 =
        32 + 11 * leafCount T + (((List.finRange 256).map fun b =>
          (t.freq[b.castSucc]).toNat * (t.code[b.castSucc]).len.toNat).sum + (t.code[eosSymbol]).len.toNat) +
        padLength (31 + 11 * leafCount T + (((List.finRange 256).map fun b =>
          (t.freq[b.castSucc]).toNat * (t.code[b.castSucc]).len.toNat).sum + (t.code[eosSymbol]).len.toNat))

/-! ## RDHDR, DECODE, DECOMPRESS -/

/-- R100, R101: RDHDR of a header written by the grammar gives back its tree, consumes exactly its bits, numbers the
nodes in pre-order from 0 with weight 0, and leaves the rest alone, whatever follows the header. -/
def Obligations.RdhdrReadsBackTheTree : Prop :=
  ∀ (s : State) (T : CodeTree) (rest : Bits), Ready s → T.wf = true →
    remaining s = bitsOf 32 hwParams.magic.toNat ++ serialize T ++ rest →
    ∃ t, exec .rdhdr s = .next t ∧ Succeeded s t (freqValid s.status) true false ∧ TreeWF t ∧ t.root = 0 ∧
      t.nnodes.toNat = T.size ∧ currentTree t = some T ∧
      (∀ i : Fin 513, i.val < T.size → t.node[i].weight = 0 ∧ (t.node[i].leaf = false → t.node[i].left.toNat = i.val + 1)) ∧
      (∀ i : Fin 513, T.size ≤ i.val → t.node[i] = s.node[i]) ∧
      t.src = ⟨s.src.bits, s.src.pos + 32 + (serialize T).length⟩ ∧ remaining t = rest ∧ t.snk = s.snk ∧
      t.cur = s.cur ∧ SameTable s t ∧ t.inq = s.inq ∧ t.code = s.code ∧ SameHost s t

/-- R100, R133, R9 (magic check): a source that does not start with the magic tag raises BadMagic with no further read,
and nothing else changes. -/
def Obligations.WrongMagicRaisesBadMagic : Prop :=
  ∀ (i : Instr) (s : State), i = .rdhdr ∨ i = .decompress → Ready s →
    (remaining s).take 32 ≠ bitsOf 32 hwParams.magic.toNat →
    ∃ t, exec i s = .next t ∧ TookFault .badMagic s t (freqValid s.status) false false ∧ SameInside s t ∧ t.snk = s.snk ∧
      t.src = ⟨s.src.bits, if (remaining s).length < 32 then s.src.pos else s.src.pos + 32⟩

/-- R101, R102, R103: a header with the magic tag but no serialized tree with an internal root, symbols at most 256 and
at most 513 nodes raises MalformedHeader. That RDHDR accepts the others is `RdhdrReadsBackTheTree`. -/
def Obligations.EveryOtherHeaderIsMalformed : Prop :=
  ∀ (i : Instr) (s : State), i = .rdhdr ∨ i = .decompress → Ready s →
    (remaining s).take 32 = bitsOf 32 hwParams.magic.toNat →
    (∀ (T : CodeTree) (rest : Bits), T.wf = true →
      remaining s ≠ bitsOf 32 hwParams.magic.toNat ++ serialize T ++ rest) →
    ∃ t, exec i s = .next t ∧ TookFault .malformedHeader s t (freqValid s.status) false false ∧ t.snk = s.snk ∧
      t.src.bits = s.src.bits ∧ s.src.pos + 32 ≤ t.src.pos ∧ t.src.pos ≤ s.src.bits.length ∧ SameRoot s t ∧
      t.cur = s.cur ∧ SameTable s t ∧ t.inq = s.inq ∧ t.code = s.code ∧ SameHost s t

/-- R102, the three checks, with the cursor after the last bit read (R133): a leaf root; a symbol above 256 in the first
leaf; a 514th node. -/
def Obligations.UnusableHeadersStopWhereRead : Prop :=
  ∀ (s : State) (rest : Bits), Ready s →
    (∀ v : SymField, v.toNat ≤ 256 →
      remaining s = bitsOf 32 hwParams.magic.toNat ++ true :: bitsOf 9 v.toNat ++ rest →
      ∃ t, exec .rdhdr s = .next t ∧ TookFault .malformedHeader s t (freqValid s.status) false false ∧
        t.src.pos = s.src.pos + 42) ∧
    (∀ (k : Nat) (v : SymField), k < 513 → 256 < v.toNat →
      remaining s = bitsOf 32 hwParams.magic.toNat ++ List.replicate k false ++ true :: bitsOf 9 v.toNat ++ rest →
      ∃ t, exec .rdhdr s = .next t ∧ TookFault .malformedHeader s t (freqValid s.status) false false ∧
        t.src.pos = s.src.pos + 32 + k + 10) ∧
    (remaining s = bitsOf 32 hwParams.magic.toNat ++ List.replicate 513 false ++ rest →
      ∃ t, exec .rdhdr s = .next t ∧ TookFault .malformedHeader s t (freqValid s.status) false false ∧
        t.src.pos = s.src.pos + 32 + 513)

/-- R104, R105: DECODE of codewords that end with a sentinel's emits the bytes before it, closes the sink, stops just
after the sentinel's codeword and reads nothing that follows; CUR stands on the sentinel's leaf. -/
def Obligations.DecodeEmitsTheBytes : Prop :=
  ∀ (s : State) (T : CodeTree) (data : List (SymField × Bits)) (e rest : Bits), ReadyToWrite s →
    treeValid s.status = true → TreeWF s → currentTree s = some T → DataLeaves T data → (256, e) ∈ leafPaths T →
    remaining s = pathBits data ++ e ++ rest →
    ∃ t, exec .decode s = .next t ∧ Succeeded s t (freqValid s.status) true (codeValid s.status) ∧
      t.snk = closedSink (s.snk.bits ++ leafBytes data) ∧
      t.src = ⟨s.src.bits, s.src.pos + (pathBits data).length + e.length⟩ ∧
      (nodeRead t t.cur).map (fun c => (c.leaf, c.sym)) = some (true, 256) ∧
      SameRoot s t ∧ SameTable s t ∧ t.node = s.node ∧ t.inq = s.inq ∧ t.code = s.code ∧ SameHost s t

/-- R104, R105, R133: DECODE of codewords cut before the sentinel's last bit raises MalformedStream: the bytes decoded
before the cut are emitted, nothing of the cut codeword, and the sink is not closed. -/
def Obligations.DecodeOfACutStreamFaults : Prop :=
  ∀ (s : State) (T : CodeTree) (data : List (SymField × Bits)) (r : Bits) (x : SymField × Bits), ReadyToWrite s →
    treeValid s.status = true → TreeWF s → currentTree s = some T → DataLeaves T data → x ∈ leafPaths T → r <+: x.2 →
    r ≠ x.2 → remaining s = pathBits data ++ r →
    ∃ t, exec .decode s = .next t ∧ TookFault .malformedStream s t (freqValid s.status) true (codeValid s.status) ∧
      t.snk = ⟨s.snk.bits ++ leafBytes data, false⟩ ∧ t.src = ⟨s.src.bits, s.src.pos + (remaining s).length⟩ ∧
      SameRoot s t ∧ SameTable s t ∧ t.node = s.node ∧ t.inq = s.inq ∧ t.code = s.code ∧ SameHost s t

/-- R106: DECOMPRESS of magic, tree and codewords that end with a sentinel's emits the bytes and closes the sink. -/
def Obligations.DecompressEmitsTheBytes : Prop :=
  ∀ (s : State) (T : CodeTree) (data : List (SymField × Bits)) (e rest : Bits), ReadyToWrite s → T.wf = true →
    DataLeaves T data → (256, e) ∈ leafPaths T →
    remaining s = bitsOf 32 hwParams.magic.toNat ++ serialize T ++ pathBits data ++ e ++ rest →
    ∃ t, exec .decompress s = .next t ∧ Succeeded s t (freqValid s.status) true false ∧ TreeWF t ∧
      currentTree t = some T ∧ t.snk = closedSink (s.snk.bits ++ leafBytes data) ∧
      t.src = ⟨s.src.bits, s.src.pos + 32 + (serialize T).length + (pathBits data).length + e.length⟩ ∧
      SameTable s t ∧ t.inq = s.inq ∧ t.code = s.code ∧ SameHost s t

/-- R107: where each truncation of a valid file lands. -/
def Obligations.TruncationLandsByPlace : Prop :=
  ∀ (s : State) (T : CodeTree) (data : List (SymField × Bits)) (e pad : Bits) (c : Nat), ReadyToWrite s →
    T.wf = true → DataLeaves T data → (256, e) ∈ leafPaths T →
    remaining s = (bitsOf 32 hwParams.magic.toNat ++ serialize T ++ pathBits data ++ e ++ pad).take c →
    ∃ t, exec .decompress s = .next t ∧
      (c < 32 → TookFault .badMagic s t (freqValid s.status) false false ∧ t.snk = s.snk) ∧
      (32 ≤ c → c < 32 + (serialize T).length →
        TookFault .malformedHeader s t (freqValid s.status) false false ∧ t.snk = s.snk) ∧
      (32 + (serialize T).length ≤ c → c < 32 + (serialize T).length + (pathBits data).length + e.length →
        TookFault .malformedStream s t (freqValid s.status) true false ∧ t.snk.closed = false ∧
        t.snk.bits <+: s.snk.bits ++ leafBytes data) ∧
      (32 + (serialize T).length + (pathBits data).length + e.length ≤ c →
        Succeeded s t (freqValid s.status) true false ∧ t.snk = closedSink (s.snk.bits ++ leafBytes data))

/-! ## The whole block -/

/-- R54: COMPRESS and DECOMPRESS do what their stage commands do one by one, in every state in which they are accepted:
the same final state, fault or refusal. -/
def Obligations.CompositesEqualTheirStages : Prop :=
  ∀ s : State, Ready s →
    exec .compress s =
      thenExec (thenExec (thenExec (thenExec (exec .count s) .build) .gencodes) .wrhdr) .encode ∧
    exec .decompress s = thenExec (exec .rdhdr s) .decode

/-- R8: for every byte sequence of at most N_MAX bytes, DECOMPRESS from the reset state of the bytes COMPRESS writes from
the reset state ends with no fault and the sink holds exactly the sequence. -/
def Obligations.DecompressInvertsCompress : Prop :=
  ∀ S : List Byte, S.length ≤ hwParams.nMax →
    ∃ t u, exec .compress (launch (bytesToBits S)) = .next t ∧ t.snk.closed = true ∧
      exec .decompress (launch (bytesToBits (bitsToBytes t.snk.bits))) = .next u ∧ isFault u.status = false ∧
      isDone u.status = true ∧ u.snk = ⟨bytesToBits S, true⟩

/-- R76, U1 to U5: the round trip holds for every magic value, tie-break, child order, padding and synthesized symbol a
build may choose. -/
def Obligations.EveryBuildRoundTrips : Prop :=
  ∀ (p : Config.Params) (S : List Byte), p.nMax ≤ 2 ^ 64 - 2 → p.dummySym.toNat ≤ 256 → (∀ k, (p.padding k).length = k) →
    S.length ≤ p.nMax →
    ∃ t u, runWith p .compress (launch (bytesToBits S)) = .next t ∧ t.snk.closed = true ∧
      runWith p .decompress (launch (bytesToBits (bitsToBytes t.snk.bits))) = .next u ∧ isFault u.status = false ∧
      u.snk = ⟨bytesToBits S, true⟩

/-- The invariant holds in the reset state. -/
def Obligations.ResetMeetsTheInvariant : Prop := Inv State.reset

/-- R11, R12, R14, R15, R17, R18, R30: every step keeps the invariant: what a valid flag promises is so, STATUS is
legal, the cursor is inside the source, a closed sink holds whole bytes. -/
def Obligations.StepKeepsTheInvariant : Prop :=
  ∀ s t : State, Inv s → step s = .next t → Inv t

/-- R119: every command ends. In every state that meets the invariant and has an open sink, each of the 16 commands
answers a next state. -/
def Obligations.EveryCommandEnds : Prop :=
  ∀ (i : Instr) (s : State), Inv s → s.snk.closed = false → ∃ t, exec i s = .next t

/-- No state that meets the invariant is stuck: a step goes on, or it is the refusal of a closed sink (U6, log 12). -/
def Obligations.StepGoesOnOrMeetsAClosedSink : Prop :=
  ∀ s : State, Inv s → (∃ t, step s = .next t) ∨ (step s = .refused .sinkClosed ∧ s.snk.closed = true)

/-- R33, R152, U6: a command that would write to a closed sink is refused (the model's choice of a stop, log 12), and
nothing else is ever refused. -/
def Obligations.OnlyAClosedSinkIsRefused : Prop :=
  (∀ (i : Instr) (s : State) (r : Refusal), exec i s = .refused r → r = .sinkClosed ∧ s.snk.closed = true) ∧
  (∀ s : State, Ready s → s.snk.closed = true → treeValid s.status = true → TreeWF s →
    exec .wrhdr s = .refused .sinkClosed) ∧
  (∀ s : State, Ready s → s.snk.closed = true → codeValid s.status = true →
    (∀ b ∈ sourceBytes s, s.code[byteSymbol b].len ≠ 0) → s.code[eosSymbol].len ≠ 0 →
    exec .encode s = .refused .sinkClosed)

/-- R20, R137: what no valid flag covers cannot be observed. Two states that meet the invariant and differ only in
memory contents no valid flag covers take steps a host cannot tell apart, and stay so. -/
def Obligations.UncoveredMemoryIsUnobservable : Prop :=
  ∀ s t : State, Inv s → Inv t → Alike s t → AlikeOutcomes (step s) (step t)
end

