-- ==== Sys2Proof/Laws/Bits.lean ====
section
/-! SUPPORT. Bit strings and bytes (R5, R30, R35): lengths, the two inverses, splitting. -/

namespace Sys2Proof.Machine

@[simp] theorem bitsOf_zero (v : Nat) : bitsOf 0 v = [] := rfl
theorem bitsOf_succ (n v : Nat) : bitsOf (n + 1) v = v.testBit n :: bitsOf n v := rfl
@[simp] theorem bitsVal_nil : bitsVal [] = 0 := rfl
theorem bitsVal_cons (b : Bool) (t : Bits) : bitsVal (b :: t) = b.toNat * 2 ^ t.length + bitsVal t := rfl

@[simp] theorem bitsOf_length (n v : Nat) : (bitsOf n v).length = n := by
  induction n with
  | zero => rfl
  | succ n ih => simp [bitsOf_succ, ih]

theorem bitsVal_lt (l : Bits) : bitsVal l < 2 ^ l.length := by
  induction l with
  | nil => simp
  | cons b t ih =>
    rw [bitsVal_cons, List.length_cons, pow_succ]
    cases b <;> simp <;> omega

theorem bitsOf_congr {n v w : Nat} (h : ∀ k < n, v.testBit k = w.testBit k) : bitsOf n v = bitsOf n w := by
  induction n with
  | zero => rfl
  | succ n ih => rw [bitsOf_succ, bitsOf_succ, h n (by omega), ih fun k hk => h k (by omega)]

/-- Only the low `n` bits of the value are used (R5). -/
theorem bitsOf_mod (n v : Nat) : bitsOf n (v % 2 ^ n) = bitsOf n v :=
  bitsOf_congr fun k hk => by simp [Nat.testBit_mod_two_pow, hk]

/-- `val(bits_n(v)) = v mod 2^n` (R5). -/
theorem bitsVal_bitsOf (n v : Nat) : bitsVal (bitsOf n v) = v % 2 ^ n := by
  induction n with
  | zero => simp [Nat.mod_one]
  | succ n ih =>
    rw [bitsOf_succ, bitsVal_cons, ih, bitsOf_length, Nat.testBit_eq_decide_div_mod_eq, pow_succ, Nat.mod_mul]
    rcases Nat.mod_two_eq_zero_or_one (v / 2 ^ n) with h | h <;> simp [h, Nat.add_comm]

/-- `bits_n(val(s)) = s` for a string of `n` bits. -/
theorem bitsOf_bitsVal (l : Bits) : bitsOf l.length (bitsVal l) = l := by
  induction l with
  | nil => rfl
  | cons b t ih =>
    have hlt := bitsVal_lt t
    rw [List.length_cons, bitsOf_succ, bitsVal_cons]
    congr 1
    · rw [Nat.mul_comm, Nat.testBit_two_pow_mul_add _ hlt]
      cases b <;> simp
    · rw [← bitsOf_mod, Nat.mul_comm, Nat.mul_add_mod, Nat.mod_eq_of_lt hlt, ih]

theorem bitsVal_inj {l m : Bits} (hl : l.length = m.length) (h : bitsVal l = bitsVal m) : l = m := by
  rw [← bitsOf_bitsVal l, ← bitsOf_bitsVal m, hl, h]

/-- A value of `m + n` bits is its high `m` bits, then its low `n` bits. -/
theorem bitsOf_add (m n v : Nat) : bitsOf (m + n) v = bitsOf m (v / 2 ^ n) ++ bitsOf n v := by
  induction m with
  | zero => simp
  | succ m ih =>
    rw [Nat.succ_add, bitsOf_succ, ih, bitsOf_succ, Nat.testBit_div_two_pow]
    rfl

@[simp] theorem bitsOf_toNat_ofNat (n : Nat) (l : Bits) (h : l.length = n) :
    bitsOf n (BitVec.ofNat n (bitsVal l)).toNat = l := by
  subst h
  rw [BitVec.toNat_ofNat, bitsOf_mod, bitsOf_bitsVal]

theorem ofNat_bitsVal_bitsOf (n v : Nat) : BitVec.ofNat n (bitsVal (bitsOf n v)) = BitVec.ofNat n v := by
  apply BitVec.eq_of_toNat_eq
  simp [bitsVal_bitsOf]

/-! ## Bytes -/

@[simp] theorem bytesToBits_nil : bytesToBits [] = [] := rfl
theorem bytesToBits_cons (b : Byte) (t : List Byte) : bytesToBits (b :: t) = bitsOf 8 b.toNat ++ bytesToBits t := rfl

@[simp] theorem bytesToBits_append (l m : List Byte) : bytesToBits (l ++ m) = bytesToBits l ++ bytesToBits m := by
  induction l with
  | nil => rfl
  | cons b t ih => simp [bytesToBits_cons, ih]

@[simp] theorem bytesToBits_length (l : List Byte) : (bytesToBits l).length = 8 * l.length := by
  induction l with
  | nil => rfl
  | cons b t ih => simp [bytesToBits_cons, ih]; omega

theorem bitsToBytes_of_short {l : Bits} (h : l.length < 8) : bitsToBytes l = [] := by
  match l, h with
  | [], _ | [_], _ | [_, _], _ | [_, _, _], _ | [_, _, _, _], _ | [_, _, _, _, _], _ | [_, _, _, _, _, _], _
  | [_, _, _, _, _, _, _], _ => rfl

theorem bitsToBytes_append8 (g t : Bits) (h : g.length = 8) :
    bitsToBytes (g ++ t) = BitVec.ofNat 8 (bitsVal g) :: bitsToBytes t := by
  match g, h with
  | [_, _, _, _, _, _, _, _], _ => rfl

theorem bitsToBytes_of_long {l : Bits} (h : 8 ≤ l.length) :
    bitsToBytes l = BitVec.ofNat 8 (bitsVal (l.take 8)) :: bitsToBytes (l.drop 8) := by
  conv => lhs; rw [← List.take_append_drop 8 l]
  exact bitsToBytes_append8 _ _ (by simp; omega)

@[simp] theorem bitsToBytes_bytesToBits (l : List Byte) : bitsToBytes (bytesToBits l) = l := by
  induction l with
  | nil => rfl
  | cons b t ih =>
    rw [bytesToBits_cons, bitsToBytes_append8 _ _ (by simp), ih, ofNat_bitsVal_bitsOf]
    simp

theorem bitsToBytes_length (l : Bits) : (bitsToBytes l).length = l.length / 8 := by
  induction h : l.length using Nat.strong_induction_on generalizing l with
  | _ n ih =>
    by_cases h8 : l.length < 8
    · rw [bitsToBytes_of_short h8]; simp; omega
    · rw [bitsToBytes_of_long (by omega), List.length_cons, ih (l.drop 8).length (by simp; omega) _ rfl]
      simp; omega

/-- The whole bytes of a bit string, as bits again. -/
theorem bytesToBits_bitsToBytes (l : Bits) : bytesToBits (bitsToBytes l) = l.take (8 * (l.length / 8)) := by
  induction h : l.length using Nat.strong_induction_on generalizing l with
  | _ n ih =>
    by_cases h8 : l.length < 8
    · rw [bitsToBytes_of_short h8, show n / 8 = 0 by omega]; rfl
    · rw [bitsToBytes_of_long (by omega), bytesToBits_cons, ih (l.drop 8).length (by simp; omega) _ rfl,
        bitsOf_toNat_ofNat 8 _ (by simp; omega), show 8 * (n / 8) = 8 + 8 * ((l.drop 8).length / 8) by simp; omega,
        List.take_add]

theorem byteSymbol_val (v : Byte) : (byteSymbol v).val = v.toNat := rfl

theorem byteSymbol_inj {v w : Byte} (h : byteSymbol v = byteSymbol w) : v = w :=
  BitVec.eq_of_toNat_eq (congrArg (fun x : Symbol => x.val) h)

theorem byteSymbol_ne_eos (v : Byte) : byteSymbol v ≠ eosSymbol := fun h => by
  have := congrArg Fin.val h
  have hv := v.isLt
  simp [byteSymbol, eosSymbol] at this
  omega

/-! ## Port transfers -/

theorem snkGroups_bits (v k : Nat) : (snkGroups v k).flatMap (fun x => bitsOf x.1 x.2) = bitsOf (32 * k) v := by
  induction k with
  | zero => rfl
  | succ k ih =>
    rw [snkGroups, List.flatMap_cons, ih, show 32 * (k + 1) = 32 + 32 * k by ring, bitsOf_add, bitsOf_mod]

end Sys2Proof.Machine
end

