-- ==== Sys2Proof/Laws/State.lean ====
section
/-! SUPPORT. Every field of State after every named update (Machine/Ops.lean), each by `rfl`, so that no proof unfolds
an update. -/

namespace Sys2Proof.Machine

variable (s : State)

@[simp] theorem withStatus_status (w : StatusWord) : (withStatus s w).status = w := rfl
@[simp] theorem withStatus_root (w : StatusWord) : (withStatus s w).root = s.root := rfl
@[simp] theorem withStatus_nnodes (w : StatusWord) : (withStatus s w).nnodes = s.nnodes := rfl
@[simp] theorem withStatus_cur (w : StatusWord) : (withStatus s w).cur = s.cur := rfl
@[simp] theorem withStatus_total (w : StatusWord) : (withStatus s w).total = s.total := rfl
@[simp] theorem withStatus_freq (w : StatusWord) : (withStatus s w).freq = s.freq := rfl
@[simp] theorem withStatus_node (w : StatusWord) : (withStatus s w).node = s.node := rfl
@[simp] theorem withStatus_inq (w : StatusWord) : (withStatus s w).inq = s.inq := rfl
@[simp] theorem withStatus_code (w : StatusWord) : (withStatus s w).code = s.code := rfl
@[simp] theorem withStatus_src (w : StatusWord) : (withStatus s w).src = s.src := rfl
@[simp] theorem withStatus_snk (w : StatusWord) : (withStatus s w).snk = s.snk := rfl
@[simp] theorem withStatus_host (w : StatusWord) : (withStatus s w).host = s.host := rfl
@[simp] theorem withStatus_freeCtr (w : StatusWord) : (withStatus s w).freeCtr = s.freeCtr := rfl

@[simp] theorem withRegs_status (r n c : NodeIdx) (t : Count) : (withRegs s r n c t).status = s.status := rfl
@[simp] theorem withRegs_root (r n c : NodeIdx) (t : Count) : (withRegs s r n c t).root = r := rfl
@[simp] theorem withRegs_nnodes (r n c : NodeIdx) (t : Count) : (withRegs s r n c t).nnodes = n := rfl
@[simp] theorem withRegs_cur (r n c : NodeIdx) (t : Count) : (withRegs s r n c t).cur = c := rfl
@[simp] theorem withRegs_total (r n c : NodeIdx) (t : Count) : (withRegs s r n c t).total = t := rfl
@[simp] theorem withRegs_freq (r n c : NodeIdx) (t : Count) : (withRegs s r n c t).freq = s.freq := rfl
@[simp] theorem withRegs_node (r n c : NodeIdx) (t : Count) : (withRegs s r n c t).node = s.node := rfl
@[simp] theorem withRegs_inq (r n c : NodeIdx) (t : Count) : (withRegs s r n c t).inq = s.inq := rfl
@[simp] theorem withRegs_code (r n c : NodeIdx) (t : Count) : (withRegs s r n c t).code = s.code := rfl
@[simp] theorem withRegs_src (r n c : NodeIdx) (t : Count) : (withRegs s r n c t).src = s.src := rfl
@[simp] theorem withRegs_snk (r n c : NodeIdx) (t : Count) : (withRegs s r n c t).snk = s.snk := rfl
@[simp] theorem withRegs_host (r n c : NodeIdx) (t : Count) : (withRegs s r n c t).host = s.host := rfl
@[simp] theorem withRegs_freeCtr (r n c : NodeIdx) (t : Count) : (withRegs s r n c t).freeCtr = s.freeCtr := rfl

@[simp] theorem withTree_status (r n : NodeIdx) : (withTree s r n).status = s.status := rfl
@[simp] theorem withTree_root (r n : NodeIdx) : (withTree s r n).root = r := rfl
@[simp] theorem withTree_nnodes (r n : NodeIdx) : (withTree s r n).nnodes = n := rfl
@[simp] theorem withTree_cur (r n : NodeIdx) : (withTree s r n).cur = s.cur := rfl
@[simp] theorem withTree_total (r n : NodeIdx) : (withTree s r n).total = s.total := rfl
@[simp] theorem withTree_freq (r n : NodeIdx) : (withTree s r n).freq = s.freq := rfl
@[simp] theorem withTree_node (r n : NodeIdx) : (withTree s r n).node = s.node := rfl
@[simp] theorem withTree_inq (r n : NodeIdx) : (withTree s r n).inq = s.inq := rfl
@[simp] theorem withTree_code (r n : NodeIdx) : (withTree s r n).code = s.code := rfl
@[simp] theorem withTree_src (r n : NodeIdx) : (withTree s r n).src = s.src := rfl
@[simp] theorem withTree_snk (r n : NodeIdx) : (withTree s r n).snk = s.snk := rfl
@[simp] theorem withTree_host (r n : NodeIdx) : (withTree s r n).host = s.host := rfl
@[simp] theorem withTree_freeCtr (r n : NodeIdx) : (withTree s r n).freeCtr = s.freeCtr := rfl

@[simp] theorem withCur_status (c : NodeIdx) : (withCur s c).status = s.status := rfl
@[simp] theorem withCur_root (c : NodeIdx) : (withCur s c).root = s.root := rfl
@[simp] theorem withCur_nnodes (c : NodeIdx) : (withCur s c).nnodes = s.nnodes := rfl
@[simp] theorem withCur_cur (c : NodeIdx) : (withCur s c).cur = c := rfl
@[simp] theorem withCur_total (c : NodeIdx) : (withCur s c).total = s.total := rfl
@[simp] theorem withCur_freq (c : NodeIdx) : (withCur s c).freq = s.freq := rfl
@[simp] theorem withCur_node (c : NodeIdx) : (withCur s c).node = s.node := rfl
@[simp] theorem withCur_inq (c : NodeIdx) : (withCur s c).inq = s.inq := rfl
@[simp] theorem withCur_code (c : NodeIdx) : (withCur s c).code = s.code := rfl
@[simp] theorem withCur_src (c : NodeIdx) : (withCur s c).src = s.src := rfl
@[simp] theorem withCur_snk (c : NodeIdx) : (withCur s c).snk = s.snk := rfl
@[simp] theorem withCur_host (c : NodeIdx) : (withCur s c).host = s.host := rfl
@[simp] theorem withCur_freeCtr (c : NodeIdx) : (withCur s c).freeCtr = s.freeCtr := rfl

@[simp] theorem withTable_status (f : Vector Count 257) (t : Count) : (withTable s f t).status = s.status := rfl
@[simp] theorem withTable_root (f : Vector Count 257) (t : Count) : (withTable s f t).root = s.root := rfl
@[simp] theorem withTable_nnodes (f : Vector Count 257) (t : Count) : (withTable s f t).nnodes = s.nnodes := rfl
@[simp] theorem withTable_cur (f : Vector Count 257) (t : Count) : (withTable s f t).cur = s.cur := rfl
@[simp] theorem withTable_total (f : Vector Count 257) (t : Count) : (withTable s f t).total = t := rfl
@[simp] theorem withTable_freq (f : Vector Count 257) (t : Count) : (withTable s f t).freq = f := rfl
@[simp] theorem withTable_node (f : Vector Count 257) (t : Count) : (withTable s f t).node = s.node := rfl
@[simp] theorem withTable_inq (f : Vector Count 257) (t : Count) : (withTable s f t).inq = s.inq := rfl
@[simp] theorem withTable_code (f : Vector Count 257) (t : Count) : (withTable s f t).code = s.code := rfl
@[simp] theorem withTable_src (f : Vector Count 257) (t : Count) : (withTable s f t).src = s.src := rfl
@[simp] theorem withTable_snk (f : Vector Count 257) (t : Count) : (withTable s f t).snk = s.snk := rfl
@[simp] theorem withTable_host (f : Vector Count 257) (t : Count) : (withTable s f t).host = s.host := rfl
@[simp] theorem withTable_freeCtr (f : Vector Count 257) (t : Count) : (withTable s f t).freeCtr = s.freeCtr := rfl

@[simp] theorem withNode_status (m : Vector NodeEntry 513) : (withNode s m).status = s.status := rfl
@[simp] theorem withNode_root (m : Vector NodeEntry 513) : (withNode s m).root = s.root := rfl
@[simp] theorem withNode_nnodes (m : Vector NodeEntry 513) : (withNode s m).nnodes = s.nnodes := rfl
@[simp] theorem withNode_cur (m : Vector NodeEntry 513) : (withNode s m).cur = s.cur := rfl
@[simp] theorem withNode_total (m : Vector NodeEntry 513) : (withNode s m).total = s.total := rfl
@[simp] theorem withNode_freq (m : Vector NodeEntry 513) : (withNode s m).freq = s.freq := rfl
@[simp] theorem withNode_node (m : Vector NodeEntry 513) : (withNode s m).node = m := rfl
@[simp] theorem withNode_inq (m : Vector NodeEntry 513) : (withNode s m).inq = s.inq := rfl
@[simp] theorem withNode_code (m : Vector NodeEntry 513) : (withNode s m).code = s.code := rfl
@[simp] theorem withNode_src (m : Vector NodeEntry 513) : (withNode s m).src = s.src := rfl
@[simp] theorem withNode_snk (m : Vector NodeEntry 513) : (withNode s m).snk = s.snk := rfl
@[simp] theorem withNode_host (m : Vector NodeEntry 513) : (withNode s m).host = s.host := rfl
@[simp] theorem withNode_freeCtr (m : Vector NodeEntry 513) : (withNode s m).freeCtr = s.freeCtr := rfl

@[simp] theorem withInq_status (m : Vector Bool 513) : (withInq s m).status = s.status := rfl
@[simp] theorem withInq_root (m : Vector Bool 513) : (withInq s m).root = s.root := rfl
@[simp] theorem withInq_nnodes (m : Vector Bool 513) : (withInq s m).nnodes = s.nnodes := rfl
@[simp] theorem withInq_cur (m : Vector Bool 513) : (withInq s m).cur = s.cur := rfl
@[simp] theorem withInq_total (m : Vector Bool 513) : (withInq s m).total = s.total := rfl
@[simp] theorem withInq_freq (m : Vector Bool 513) : (withInq s m).freq = s.freq := rfl
@[simp] theorem withInq_node (m : Vector Bool 513) : (withInq s m).node = s.node := rfl
@[simp] theorem withInq_inq (m : Vector Bool 513) : (withInq s m).inq = m := rfl
@[simp] theorem withInq_code (m : Vector Bool 513) : (withInq s m).code = s.code := rfl
@[simp] theorem withInq_src (m : Vector Bool 513) : (withInq s m).src = s.src := rfl
@[simp] theorem withInq_snk (m : Vector Bool 513) : (withInq s m).snk = s.snk := rfl
@[simp] theorem withInq_host (m : Vector Bool 513) : (withInq s m).host = s.host := rfl
@[simp] theorem withInq_freeCtr (m : Vector Bool 513) : (withInq s m).freeCtr = s.freeCtr := rfl

@[simp] theorem withCode_status (m : Vector CodeEntry 257) : (withCode s m).status = s.status := rfl
@[simp] theorem withCode_root (m : Vector CodeEntry 257) : (withCode s m).root = s.root := rfl
@[simp] theorem withCode_nnodes (m : Vector CodeEntry 257) : (withCode s m).nnodes = s.nnodes := rfl
@[simp] theorem withCode_cur (m : Vector CodeEntry 257) : (withCode s m).cur = s.cur := rfl
@[simp] theorem withCode_total (m : Vector CodeEntry 257) : (withCode s m).total = s.total := rfl
@[simp] theorem withCode_freq (m : Vector CodeEntry 257) : (withCode s m).freq = s.freq := rfl
@[simp] theorem withCode_node (m : Vector CodeEntry 257) : (withCode s m).node = s.node := rfl
@[simp] theorem withCode_inq (m : Vector CodeEntry 257) : (withCode s m).inq = s.inq := rfl
@[simp] theorem withCode_code (m : Vector CodeEntry 257) : (withCode s m).code = m := rfl
@[simp] theorem withCode_src (m : Vector CodeEntry 257) : (withCode s m).src = s.src := rfl
@[simp] theorem withCode_snk (m : Vector CodeEntry 257) : (withCode s m).snk = s.snk := rfl
@[simp] theorem withCode_host (m : Vector CodeEntry 257) : (withCode s m).host = s.host := rfl
@[simp] theorem withCode_freeCtr (m : Vector CodeEntry 257) : (withCode s m).freeCtr = s.freeCtr := rfl

@[simp] theorem withSrcPos_status (k : Nat) : (withSrcPos s k).status = s.status := rfl
@[simp] theorem withSrcPos_root (k : Nat) : (withSrcPos s k).root = s.root := rfl
@[simp] theorem withSrcPos_nnodes (k : Nat) : (withSrcPos s k).nnodes = s.nnodes := rfl
@[simp] theorem withSrcPos_cur (k : Nat) : (withSrcPos s k).cur = s.cur := rfl
@[simp] theorem withSrcPos_total (k : Nat) : (withSrcPos s k).total = s.total := rfl
@[simp] theorem withSrcPos_freq (k : Nat) : (withSrcPos s k).freq = s.freq := rfl
@[simp] theorem withSrcPos_node (k : Nat) : (withSrcPos s k).node = s.node := rfl
@[simp] theorem withSrcPos_inq (k : Nat) : (withSrcPos s k).inq = s.inq := rfl
@[simp] theorem withSrcPos_code (k : Nat) : (withSrcPos s k).code = s.code := rfl
@[simp] theorem withSrcPos_src (k : Nat) : (withSrcPos s k).src = ⟨s.src.bits, k⟩ := rfl
@[simp] theorem withSrcPos_snk (k : Nat) : (withSrcPos s k).snk = s.snk := rfl
@[simp] theorem withSrcPos_host (k : Nat) : (withSrcPos s k).host = s.host := rfl
@[simp] theorem withSrcPos_freeCtr (k : Nat) : (withSrcPos s k).freeCtr = s.freeCtr := rfl

@[simp] theorem withSource_status (c : Source) : (withSource s c).status = s.status := rfl
@[simp] theorem withSource_root (c : Source) : (withSource s c).root = s.root := rfl
@[simp] theorem withSource_nnodes (c : Source) : (withSource s c).nnodes = s.nnodes := rfl
@[simp] theorem withSource_cur (c : Source) : (withSource s c).cur = s.cur := rfl
@[simp] theorem withSource_total (c : Source) : (withSource s c).total = s.total := rfl
@[simp] theorem withSource_freq (c : Source) : (withSource s c).freq = s.freq := rfl
@[simp] theorem withSource_node (c : Source) : (withSource s c).node = s.node := rfl
@[simp] theorem withSource_inq (c : Source) : (withSource s c).inq = s.inq := rfl
@[simp] theorem withSource_code (c : Source) : (withSource s c).code = s.code := rfl
@[simp] theorem withSource_src (c : Source) : (withSource s c).src = c := rfl
@[simp] theorem withSource_snk (c : Source) : (withSource s c).snk = s.snk := rfl
@[simp] theorem withSource_host (c : Source) : (withSource s c).host = s.host := rfl
@[simp] theorem withSource_freeCtr (c : Source) : (withSource s c).freeCtr = s.freeCtr := rfl

@[simp] theorem withSink_status (k : Sink) : (withSink s k).status = s.status := rfl
@[simp] theorem withSink_root (k : Sink) : (withSink s k).root = s.root := rfl
@[simp] theorem withSink_nnodes (k : Sink) : (withSink s k).nnodes = s.nnodes := rfl
@[simp] theorem withSink_cur (k : Sink) : (withSink s k).cur = s.cur := rfl
@[simp] theorem withSink_total (k : Sink) : (withSink s k).total = s.total := rfl
@[simp] theorem withSink_freq (k : Sink) : (withSink s k).freq = s.freq := rfl
@[simp] theorem withSink_node (k : Sink) : (withSink s k).node = s.node := rfl
@[simp] theorem withSink_inq (k : Sink) : (withSink s k).inq = s.inq := rfl
@[simp] theorem withSink_code (k : Sink) : (withSink s k).code = s.code := rfl
@[simp] theorem withSink_src (k : Sink) : (withSink s k).src = s.src := rfl
@[simp] theorem withSink_snk (k : Sink) : (withSink s k).snk = k := rfl
@[simp] theorem withSink_host (k : Sink) : (withSink s k).host = s.host := rfl
@[simp] theorem withSink_freeCtr (k : Sink) : (withSink s k).freeCtr = s.freeCtr := rfl

@[simp] theorem withHost_status (h : List HostAction) : (withHost s h).status = s.status := rfl
@[simp] theorem withHost_root (h : List HostAction) : (withHost s h).root = s.root := rfl
@[simp] theorem withHost_nnodes (h : List HostAction) : (withHost s h).nnodes = s.nnodes := rfl
@[simp] theorem withHost_cur (h : List HostAction) : (withHost s h).cur = s.cur := rfl
@[simp] theorem withHost_total (h : List HostAction) : (withHost s h).total = s.total := rfl
@[simp] theorem withHost_freq (h : List HostAction) : (withHost s h).freq = s.freq := rfl
@[simp] theorem withHost_node (h : List HostAction) : (withHost s h).node = s.node := rfl
@[simp] theorem withHost_inq (h : List HostAction) : (withHost s h).inq = s.inq := rfl
@[simp] theorem withHost_code (h : List HostAction) : (withHost s h).code = s.code := rfl
@[simp] theorem withHost_src (h : List HostAction) : (withHost s h).src = s.src := rfl
@[simp] theorem withHost_snk (h : List HostAction) : (withHost s h).snk = s.snk := rfl
@[simp] theorem withHost_host (h : List HostAction) : (withHost s h).host = h := rfl
@[simp] theorem withHost_freeCtr (h : List HostAction) : (withHost s h).freeCtr = s.freeCtr := rfl

@[simp] theorem withFreeCtr_status (n : Nat) : (withFreeCtr s n).status = s.status := rfl
@[simp] theorem withFreeCtr_root (n : Nat) : (withFreeCtr s n).root = s.root := rfl
@[simp] theorem withFreeCtr_nnodes (n : Nat) : (withFreeCtr s n).nnodes = s.nnodes := rfl
@[simp] theorem withFreeCtr_cur (n : Nat) : (withFreeCtr s n).cur = s.cur := rfl
@[simp] theorem withFreeCtr_total (n : Nat) : (withFreeCtr s n).total = s.total := rfl
@[simp] theorem withFreeCtr_freq (n : Nat) : (withFreeCtr s n).freq = s.freq := rfl
@[simp] theorem withFreeCtr_node (n : Nat) : (withFreeCtr s n).node = s.node := rfl
@[simp] theorem withFreeCtr_inq (n : Nat) : (withFreeCtr s n).inq = s.inq := rfl
@[simp] theorem withFreeCtr_code (n : Nat) : (withFreeCtr s n).code = s.code := rfl
@[simp] theorem withFreeCtr_src (n : Nat) : (withFreeCtr s n).src = s.src := rfl
@[simp] theorem withFreeCtr_snk (n : Nat) : (withFreeCtr s n).snk = s.snk := rfl
@[simp] theorem withFreeCtr_host (n : Nat) : (withFreeCtr s n).host = s.host := rfl
@[simp] theorem withFreeCtr_freeCtr (n : Nat) : (withFreeCtr s n).freeCtr = n := rfl

end Sys2Proof.Machine
end

