-- ==== Sys2Proof/Laws/Flags.lean ====
section
/-! SUPPORT. Reading a field of `STATUS` after writing one (R11). -/

namespace Sys2Proof.Machine

theorem getLsbD_setStatusBit (k : Nat) (w : StatusWord) (b : Bool) (j : Nat) (hk : k < 16) :
    (setStatusBit k w b).getLsbD j = if j = k then b else w.getLsbD j := by
  simp only [setStatusBit]
  by_cases hjk : j = k
  · subst hjk
    simp [hk]
  · by_cases h : j < k
    · simp [hjk, h]
      intro hw
      exact BitVec.lt_of_getLsbD hw
    · have h0 : j - k ≠ 0 := by omega
      by_cases h16 : j < 16
      · simp [hjk, h, h16, h0]
      · simp [hjk, h16, BitVec.getLsbD_of_ge w j (by omega)]

theorem getLsbD_setErr (w : StatusWord) (e : BitVec 4) (j : Nat) :
    (setErr w e).getLsbD j = if 3 ≤ j ∧ j < 7 then e.getLsbD (j - 3) else w.getLsbD j := by
  simp only [setErr]
  by_cases h16 : j < 16
  · have : (0x0078#16).getLsbD j = decide (3 ≤ j ∧ j < 7) := by
      interval_cases j <;> decide
    simp only [BitVec.getLsbD_or, BitVec.getLsbD_and, BitVec.getLsbD_not, this, BitVec.getLsbD_shiftLeft,
      BitVec.getLsbD_setWidth]
    by_cases h3 : j < 3
    · simp [h3, h16, show ¬(3 ≤ j) by omega]
    · by_cases h7 : j < 7
      · simp [h3, h7, h16, show 3 ≤ j by omega, show j - 3 < 16 by omega]
      · simp [h3, h7, h16, BitVec.getLsbD_of_ge e (j - 3) (by omega)]
  · simp [h16, show ¬(j < 7) by omega, BitVec.getLsbD_of_ge w j (by omega)]

/-! After `setBusy`. -/

@[simp] theorem isBusy_setBusy (w : StatusWord) (b : Bool) : isBusy (setBusy w b) = b := by
  rw [isBusy, setBusy, getLsbD_setStatusBit _ _ _ _ (by decide)]; exact if_pos rfl
@[simp] theorem isDone_setBusy (w : StatusWord) (b : Bool) : isDone (setBusy w b) = isDone w := by
  rw [isDone, setBusy, getLsbD_setStatusBit _ _ _ _ (by decide)]; exact if_neg (by decide)
@[simp] theorem isFault_setBusy (w : StatusWord) (b : Bool) : isFault (setBusy w b) = isFault w := by
  rw [isFault, setBusy, getLsbD_setStatusBit _ _ _ _ (by decide)]; exact if_neg (by decide)
@[simp] theorem freqValid_setBusy (w : StatusWord) (b : Bool) : freqValid (setBusy w b) = freqValid w := by
  rw [freqValid, setBusy, getLsbD_setStatusBit _ _ _ _ (by decide)]; exact if_neg (by decide)
@[simp] theorem treeValid_setBusy (w : StatusWord) (b : Bool) : treeValid (setBusy w b) = treeValid w := by
  rw [treeValid, setBusy, getLsbD_setStatusBit _ _ _ _ (by decide)]; exact if_neg (by decide)
@[simp] theorem codeValid_setBusy (w : StatusWord) (b : Bool) : codeValid (setBusy w b) = codeValid w := by
  rw [codeValid, setBusy, getLsbD_setStatusBit _ _ _ _ (by decide)]; exact if_neg (by decide)
@[simp] theorem errOf_setBusy (w : StatusWord) (b : Bool) : errOf (setBusy w b) = errOf w := by
  apply BitVec.eq_of_getLsbD_eq
  intro i hi
  simp only [errOf, setBusy, BitVec.getLsbD_extractLsb']
  rw [getLsbD_setStatusBit _ _ _ _ (by decide), if_neg (by omega)]
@[simp] theorem reservedOf_setBusy (w : StatusWord) (b : Bool) : reservedOf (setBusy w b) = reservedOf w := by
  apply BitVec.eq_of_getLsbD_eq
  intro i hi
  simp only [reservedOf, setBusy, BitVec.getLsbD_extractLsb']
  rw [getLsbD_setStatusBit _ _ _ _ (by decide), if_neg (by omega)]

/-! After `setDone`. -/

@[simp] theorem isBusy_setDone (w : StatusWord) (b : Bool) : isBusy (setDone w b) = isBusy w := by
  rw [isBusy, setDone, getLsbD_setStatusBit _ _ _ _ (by decide)]; exact if_neg (by decide)
@[simp] theorem isDone_setDone (w : StatusWord) (b : Bool) : isDone (setDone w b) = b := by
  rw [isDone, setDone, getLsbD_setStatusBit _ _ _ _ (by decide)]; exact if_pos rfl
@[simp] theorem isFault_setDone (w : StatusWord) (b : Bool) : isFault (setDone w b) = isFault w := by
  rw [isFault, setDone, getLsbD_setStatusBit _ _ _ _ (by decide)]; exact if_neg (by decide)
@[simp] theorem freqValid_setDone (w : StatusWord) (b : Bool) : freqValid (setDone w b) = freqValid w := by
  rw [freqValid, setDone, getLsbD_setStatusBit _ _ _ _ (by decide)]; exact if_neg (by decide)
@[simp] theorem treeValid_setDone (w : StatusWord) (b : Bool) : treeValid (setDone w b) = treeValid w := by
  rw [treeValid, setDone, getLsbD_setStatusBit _ _ _ _ (by decide)]; exact if_neg (by decide)
@[simp] theorem codeValid_setDone (w : StatusWord) (b : Bool) : codeValid (setDone w b) = codeValid w := by
  rw [codeValid, setDone, getLsbD_setStatusBit _ _ _ _ (by decide)]; exact if_neg (by decide)
@[simp] theorem errOf_setDone (w : StatusWord) (b : Bool) : errOf (setDone w b) = errOf w := by
  apply BitVec.eq_of_getLsbD_eq
  intro i hi
  simp only [errOf, setDone, BitVec.getLsbD_extractLsb']
  rw [getLsbD_setStatusBit _ _ _ _ (by decide), if_neg (by omega)]
@[simp] theorem reservedOf_setDone (w : StatusWord) (b : Bool) : reservedOf (setDone w b) = reservedOf w := by
  apply BitVec.eq_of_getLsbD_eq
  intro i hi
  simp only [reservedOf, setDone, BitVec.getLsbD_extractLsb']
  rw [getLsbD_setStatusBit _ _ _ _ (by decide), if_neg (by omega)]

/-! After `setFault`. -/

@[simp] theorem isBusy_setFault (w : StatusWord) (b : Bool) : isBusy (setFault w b) = isBusy w := by
  rw [isBusy, setFault, getLsbD_setStatusBit _ _ _ _ (by decide)]; exact if_neg (by decide)
@[simp] theorem isDone_setFault (w : StatusWord) (b : Bool) : isDone (setFault w b) = isDone w := by
  rw [isDone, setFault, getLsbD_setStatusBit _ _ _ _ (by decide)]; exact if_neg (by decide)
@[simp] theorem isFault_setFault (w : StatusWord) (b : Bool) : isFault (setFault w b) = b := by
  rw [isFault, setFault, getLsbD_setStatusBit _ _ _ _ (by decide)]; exact if_pos rfl
@[simp] theorem freqValid_setFault (w : StatusWord) (b : Bool) : freqValid (setFault w b) = freqValid w := by
  rw [freqValid, setFault, getLsbD_setStatusBit _ _ _ _ (by decide)]; exact if_neg (by decide)
@[simp] theorem treeValid_setFault (w : StatusWord) (b : Bool) : treeValid (setFault w b) = treeValid w := by
  rw [treeValid, setFault, getLsbD_setStatusBit _ _ _ _ (by decide)]; exact if_neg (by decide)
@[simp] theorem codeValid_setFault (w : StatusWord) (b : Bool) : codeValid (setFault w b) = codeValid w := by
  rw [codeValid, setFault, getLsbD_setStatusBit _ _ _ _ (by decide)]; exact if_neg (by decide)
@[simp] theorem errOf_setFault (w : StatusWord) (b : Bool) : errOf (setFault w b) = errOf w := by
  apply BitVec.eq_of_getLsbD_eq
  intro i hi
  simp only [errOf, setFault, BitVec.getLsbD_extractLsb']
  rw [getLsbD_setStatusBit _ _ _ _ (by decide), if_neg (by omega)]
@[simp] theorem reservedOf_setFault (w : StatusWord) (b : Bool) : reservedOf (setFault w b) = reservedOf w := by
  apply BitVec.eq_of_getLsbD_eq
  intro i hi
  simp only [reservedOf, setFault, BitVec.getLsbD_extractLsb']
  rw [getLsbD_setStatusBit _ _ _ _ (by decide), if_neg (by omega)]

/-! After `setFreqValid`. -/

@[simp] theorem isBusy_setFreqValid (w : StatusWord) (b : Bool) : isBusy (setFreqValid w b) = isBusy w := by
  rw [isBusy, setFreqValid, getLsbD_setStatusBit _ _ _ _ (by decide)]; exact if_neg (by decide)
@[simp] theorem isDone_setFreqValid (w : StatusWord) (b : Bool) : isDone (setFreqValid w b) = isDone w := by
  rw [isDone, setFreqValid, getLsbD_setStatusBit _ _ _ _ (by decide)]; exact if_neg (by decide)
@[simp] theorem isFault_setFreqValid (w : StatusWord) (b : Bool) : isFault (setFreqValid w b) = isFault w := by
  rw [isFault, setFreqValid, getLsbD_setStatusBit _ _ _ _ (by decide)]; exact if_neg (by decide)
@[simp] theorem freqValid_setFreqValid (w : StatusWord) (b : Bool) : freqValid (setFreqValid w b) = b := by
  rw [freqValid, setFreqValid, getLsbD_setStatusBit _ _ _ _ (by decide)]; exact if_pos rfl
@[simp] theorem treeValid_setFreqValid (w : StatusWord) (b : Bool) : treeValid (setFreqValid w b) = treeValid w := by
  rw [treeValid, setFreqValid, getLsbD_setStatusBit _ _ _ _ (by decide)]; exact if_neg (by decide)
@[simp] theorem codeValid_setFreqValid (w : StatusWord) (b : Bool) : codeValid (setFreqValid w b) = codeValid w := by
  rw [codeValid, setFreqValid, getLsbD_setStatusBit _ _ _ _ (by decide)]; exact if_neg (by decide)
@[simp] theorem errOf_setFreqValid (w : StatusWord) (b : Bool) : errOf (setFreqValid w b) = errOf w := by
  apply BitVec.eq_of_getLsbD_eq
  intro i hi
  simp only [errOf, setFreqValid, BitVec.getLsbD_extractLsb']
  rw [getLsbD_setStatusBit _ _ _ _ (by decide), if_neg (by omega)]
@[simp] theorem reservedOf_setFreqValid (w : StatusWord) (b : Bool) : reservedOf (setFreqValid w b) = reservedOf w := by
  apply BitVec.eq_of_getLsbD_eq
  intro i hi
  simp only [reservedOf, setFreqValid, BitVec.getLsbD_extractLsb']
  rw [getLsbD_setStatusBit _ _ _ _ (by decide), if_neg (by omega)]

/-! After `setTreeValid`. -/

@[simp] theorem isBusy_setTreeValid (w : StatusWord) (b : Bool) : isBusy (setTreeValid w b) = isBusy w := by
  rw [isBusy, setTreeValid, getLsbD_setStatusBit _ _ _ _ (by decide)]; exact if_neg (by decide)
@[simp] theorem isDone_setTreeValid (w : StatusWord) (b : Bool) : isDone (setTreeValid w b) = isDone w := by
  rw [isDone, setTreeValid, getLsbD_setStatusBit _ _ _ _ (by decide)]; exact if_neg (by decide)
@[simp] theorem isFault_setTreeValid (w : StatusWord) (b : Bool) : isFault (setTreeValid w b) = isFault w := by
  rw [isFault, setTreeValid, getLsbD_setStatusBit _ _ _ _ (by decide)]; exact if_neg (by decide)
@[simp] theorem freqValid_setTreeValid (w : StatusWord) (b : Bool) : freqValid (setTreeValid w b) = freqValid w := by
  rw [freqValid, setTreeValid, getLsbD_setStatusBit _ _ _ _ (by decide)]; exact if_neg (by decide)
@[simp] theorem treeValid_setTreeValid (w : StatusWord) (b : Bool) : treeValid (setTreeValid w b) = b := by
  rw [treeValid, setTreeValid, getLsbD_setStatusBit _ _ _ _ (by decide)]; exact if_pos rfl
@[simp] theorem codeValid_setTreeValid (w : StatusWord) (b : Bool) : codeValid (setTreeValid w b) = codeValid w := by
  rw [codeValid, setTreeValid, getLsbD_setStatusBit _ _ _ _ (by decide)]; exact if_neg (by decide)
@[simp] theorem errOf_setTreeValid (w : StatusWord) (b : Bool) : errOf (setTreeValid w b) = errOf w := by
  apply BitVec.eq_of_getLsbD_eq
  intro i hi
  simp only [errOf, setTreeValid, BitVec.getLsbD_extractLsb']
  rw [getLsbD_setStatusBit _ _ _ _ (by decide), if_neg (by omega)]
@[simp] theorem reservedOf_setTreeValid (w : StatusWord) (b : Bool) : reservedOf (setTreeValid w b) = reservedOf w := by
  apply BitVec.eq_of_getLsbD_eq
  intro i hi
  simp only [reservedOf, setTreeValid, BitVec.getLsbD_extractLsb']
  rw [getLsbD_setStatusBit _ _ _ _ (by decide), if_neg (by omega)]

/-! After `setCodeValid`. -/

@[simp] theorem isBusy_setCodeValid (w : StatusWord) (b : Bool) : isBusy (setCodeValid w b) = isBusy w := by
  rw [isBusy, setCodeValid, getLsbD_setStatusBit _ _ _ _ (by decide)]; exact if_neg (by decide)
@[simp] theorem isDone_setCodeValid (w : StatusWord) (b : Bool) : isDone (setCodeValid w b) = isDone w := by
  rw [isDone, setCodeValid, getLsbD_setStatusBit _ _ _ _ (by decide)]; exact if_neg (by decide)
@[simp] theorem isFault_setCodeValid (w : StatusWord) (b : Bool) : isFault (setCodeValid w b) = isFault w := by
  rw [isFault, setCodeValid, getLsbD_setStatusBit _ _ _ _ (by decide)]; exact if_neg (by decide)
@[simp] theorem freqValid_setCodeValid (w : StatusWord) (b : Bool) : freqValid (setCodeValid w b) = freqValid w := by
  rw [freqValid, setCodeValid, getLsbD_setStatusBit _ _ _ _ (by decide)]; exact if_neg (by decide)
@[simp] theorem treeValid_setCodeValid (w : StatusWord) (b : Bool) : treeValid (setCodeValid w b) = treeValid w := by
  rw [treeValid, setCodeValid, getLsbD_setStatusBit _ _ _ _ (by decide)]; exact if_neg (by decide)
@[simp] theorem codeValid_setCodeValid (w : StatusWord) (b : Bool) : codeValid (setCodeValid w b) = b := by
  rw [codeValid, setCodeValid, getLsbD_setStatusBit _ _ _ _ (by decide)]; exact if_pos rfl
@[simp] theorem errOf_setCodeValid (w : StatusWord) (b : Bool) : errOf (setCodeValid w b) = errOf w := by
  apply BitVec.eq_of_getLsbD_eq
  intro i hi
  simp only [errOf, setCodeValid, BitVec.getLsbD_extractLsb']
  rw [getLsbD_setStatusBit _ _ _ _ (by decide), if_neg (by omega)]
@[simp] theorem reservedOf_setCodeValid (w : StatusWord) (b : Bool) : reservedOf (setCodeValid w b) = reservedOf w := by
  apply BitVec.eq_of_getLsbD_eq
  intro i hi
  simp only [reservedOf, setCodeValid, BitVec.getLsbD_extractLsb']
  rw [getLsbD_setStatusBit _ _ _ _ (by decide), if_neg (by omega)]

/-! After `setErr`. -/

@[simp] theorem isBusy_setErr (w : StatusWord) (e : BitVec 4) : isBusy (setErr w e) = isBusy w := by
  rw [isBusy, getLsbD_setErr]; exact if_neg (by decide)
@[simp] theorem isDone_setErr (w : StatusWord) (e : BitVec 4) : isDone (setErr w e) = isDone w := by
  rw [isDone, getLsbD_setErr]; exact if_neg (by decide)
@[simp] theorem isFault_setErr (w : StatusWord) (e : BitVec 4) : isFault (setErr w e) = isFault w := by
  rw [isFault, getLsbD_setErr]; exact if_neg (by decide)
@[simp] theorem freqValid_setErr (w : StatusWord) (e : BitVec 4) : freqValid (setErr w e) = freqValid w := by
  rw [freqValid, getLsbD_setErr]; exact if_neg (by decide)
@[simp] theorem treeValid_setErr (w : StatusWord) (e : BitVec 4) : treeValid (setErr w e) = treeValid w := by
  rw [treeValid, getLsbD_setErr]; exact if_neg (by decide)
@[simp] theorem codeValid_setErr (w : StatusWord) (e : BitVec 4) : codeValid (setErr w e) = codeValid w := by
  rw [codeValid, getLsbD_setErr]; exact if_neg (by decide)
@[simp] theorem errOf_setErr (w : StatusWord) (e : BitVec 4) : errOf (setErr w e) = e := by
  apply BitVec.eq_of_getLsbD_eq
  intro i hi
  simp [errOf, getLsbD_setErr, hi, show 3 + i < 7 by omega]
@[simp] theorem reservedOf_setErr (w : StatusWord) (e : BitVec 4) : reservedOf (setErr w e) = reservedOf w := by
  apply BitVec.eq_of_getLsbD_eq
  intro i hi
  simp only [reservedOf, BitVec.getLsbD_extractLsb']
  rw [getLsbD_setErr, if_neg (by omega)]

/-- `STATUS` is its fields: two words that agree on each are equal. -/
theorem status_ext {w v : StatusWord} (h0 : isBusy w = isBusy v) (h1 : isDone w = isDone v)
    (h2 : isFault w = isFault v) (he : errOf w = errOf v) (h7 : freqValid w = freqValid v)
    (h8 : treeValid w = treeValid v) (h9 : codeValid w = codeValid v) (hr : reservedOf w = reservedOf v) : w = v := by
  apply BitVec.eq_of_getLsbD_eq
  intro i hi
  have er : ∀ k < 4, w.getLsbD (3 + k) = v.getLsbD (3 + k) := fun k hk => by
    have := congrArg (fun x => x.getLsbD k) he
    simpa [errOf, BitVec.getLsbD_extractLsb', hk] using this
  have rr : ∀ k < 6, w.getLsbD (10 + k) = v.getLsbD (10 + k) := fun k hk => by
    have := congrArg (fun x => x.getLsbD k) hr
    simpa [reservedOf, BitVec.getLsbD_extractLsb', hk] using this
  have e3 := er 0 (by omega)
  have e4 := er 1 (by omega)
  have e5 := er 2 (by omega)
  have e6 := er 3 (by omega)
  have r0 := rr 0 (by omega)
  have r1 := rr 1 (by omega)
  have r2 := rr 2 (by omega)
  have r3 := rr 3 (by omega)
  have r4 := rr 4 (by omega)
  have r5 := rr 5 (by omega)
  interval_cases i <;> assumption

end Sys2Proof.Machine
end

