-- ==== Sys2Proof/Laws/Ops.lean ====
section
/-! SUPPORT. One specification lemma for each shared operation of Machine/Ops.lean: the primitives (R31 to R34), the end
of a body (R115, R127), acceptance (R113), and what a body leaves alone. -/

namespace Sys2Proof.Machine

/-! ## Bodies in sequence -/

@[simp] theorem andThen_done (s : State) (k : State → Body) : (Body.done s).andThen k = k s := rfl
@[simp] theorem andThen_raised (e : Cause) (s : State) (k : State → Body) :
    (Body.raised e s).andThen k = .raised e s := rfl
@[simp] theorem andThen_refused (r : Refusal) (k : State → Body) : (Body.refused r).andThen k = .refused r := rfl
@[simp] theorem andThen_stuck (f : Fault) (k : State → Body) : (Body.stuck f).andThen k = .stuck f := rfl

theorem andThen_assoc (b : Body) (k l : State → Body) :
    (b.andThen k).andThen l = b.andThen fun s => (k s).andThen l := by cases b <;> rfl

theorem andThen_eq_done {b : Body} {k : State → Body} {t : State} (h : b.andThen k = .done t) :
    ∃ s, b = .done s ∧ k s = .done t := by
  cases b with
  | done s => exact ⟨s, rfl, h⟩
  | raised e s => cases h
  | refused r => cases h
  | stuck f => cases h

theorem andThen_eq_raised {b : Body} {k : State → Body} {e : Cause} {t : State} (h : b.andThen k = .raised e t) :
    b = .raised e t ∨ ∃ s, b = .done s ∧ k s = .raised e t := by
  cases b with
  | done s => exact .inr ⟨s, rfl, h⟩
  | raised e s => exact .inl h
  | refused r => cases h
  | stuck f => cases h

theorem andThen_eq_refused {b : Body} {k : State → Body} {r : Refusal} (h : b.andThen k = .refused r) :
    b = .refused r ∨ ∃ s, b = .done s ∧ k s = .refused r := by
  cases b with
  | done s => exact .inr ⟨s, rfl, h⟩
  | raised e s => cases h
  | refused q => exact .inl h
  | stuck f => cases h

theorem andThen_eq_stuck {b : Body} {k : State → Body} {f : Fault} (h : b.andThen k = .stuck f) :
    b = .stuck f ∨ ∃ s, b = .done s ∧ k s = .stuck f := by
  cases b with
  | done s => exact .inr ⟨s, rfl, h⟩
  | raised e s => cases h
  | refused r => cases h
  | stuck g => exact .inl h

/-- Whatever state a body ends in, by `raise` or not, satisfies `P`. -/
def Body.Ends (P : State → Prop) : Body → Prop
  | .done s => P s
  | .raised _ s => P s
  | .refused _ => True
  | .stuck _ => True

@[simp] theorem ends_done (P : State → Prop) (s : State) : (Body.done s).Ends P ↔ P s := Iff.rfl
@[simp] theorem ends_raised (P : State → Prop) (e : Cause) (s : State) : (Body.raised e s).Ends P ↔ P s := Iff.rfl
@[simp] theorem ends_refused (P : State → Prop) (r : Refusal) : (Body.refused r).Ends P := trivial
@[simp] theorem ends_stuck (P : State → Prop) (f : Fault) : (Body.stuck f).Ends P := trivial

theorem ends_mono {P Q : State → Prop} {b : Body} (h : b.Ends P) (hPQ : ∀ s, P s → Q s) : b.Ends Q := by
  cases b with
  | done s => exact hPQ s h
  | raised e s => exact hPQ s h
  | refused r => trivial
  | stuck f => trivial

theorem ends_andThen {P Q : State → Prop} {b : Body} {k : State → Body} (h : b.Ends P) (hPQ : ∀ s, P s → Q s)
    (hk : ∀ s, P s → (k s).Ends Q) : (b.andThen k).Ends Q := by
  cases b with
  | done s => exact hk s h
  | raised e s => exact hPQ s h
  | refused r => trivial
  | stuck f => trivial

/-! ## The source -/

theorem remaining_length (s : State) : (remaining s).length = s.src.bits.length - s.src.pos := by simp [remaining]

@[simp] theorem remaining_withSrcPos (s : State) (k : Nat) : remaining (withSrcPos s k) = s.src.bits.drop k := rfl
@[simp] theorem remaining_withStatus (s : State) (w : StatusWord) : remaining (withStatus s w) = remaining s := rfl
@[simp] theorem remaining_withSink (s : State) (k : Sink) : remaining (withSink s k) = remaining s := rfl
@[simp] theorem remaining_withCur (s : State) (c : NodeIdx) : remaining (withCur s c) = remaining s := rfl
@[simp] theorem remaining_withNode (s : State) (m : Vector NodeEntry 513) : remaining (withNode s m) = remaining s := rfl
@[simp] theorem remaining_withTable (s : State) (f : Vector Count 257) (t : Count) :
    remaining (withTable s f t) = remaining s := rfl

/-- SrcRead with its bits at hand (R31). -/
theorem srcRead_append {n : Nat} {s : State} {g rest : Bits} (h : remaining s = g ++ rest) (hg : g.length = n) (hn : 0 < n) :
    srcRead n s = (some (BitVec.ofNat n (bitsVal g)), withSrcPos s (s.src.pos + n)) ∧
      remaining (withSrcPos s (s.src.pos + n)) = rest := by
  have hl := congrArg List.length h
  rw [remaining_length, List.length_append, hg] at hl
  constructor
  · rw [srcRead, if_pos (by omega)]
    rw [show s.src.bits.drop s.src.pos = g ++ rest from h, List.take_left' hg]
  · rw [remaining_withSrcPos, ← List.drop_drop, show s.src.bits.drop s.src.pos = g ++ rest from h, List.drop_left' hg]

/-- SrcRead with too few bits left (R31): END, and nothing moves. -/
theorem srcRead_short {n : Nat} {s : State} (h : (remaining s).length < n) : srcRead n s = (none, s) := by
  rw [remaining_length] at h
  rw [srcRead, if_neg (by omega)]

/-- The two answers of SrcRead. -/
theorem srcRead_cases (n : Nat) (s : State) :
    (s.src.pos + n ≤ s.src.bits.length ∧
      srcRead n s = (some (BitVec.ofNat n (bitsVal ((remaining s).take n))), withSrcPos s (s.src.pos + n))) ∨
    (s.src.bits.length < s.src.pos + n ∧ srcRead n s = (none, s)) := by
  by_cases h : s.src.pos + n ≤ s.src.bits.length
  · exact .inl ⟨h, by rw [srcRead, if_pos h]; rfl⟩
  · exact .inr ⟨by omega, by rw [srcRead, if_neg h]⟩

/-! ## The sink -/

theorem snkWrite_open {s : State} (h : s.snk.closed = false) (n v : Nat) :
    snkWrite n v s = .done (withSink s ⟨s.snk.bits ++ bitsOf n v, false⟩) := by simp [snkWrite, h]
theorem snkWrite_closed {s : State} (h : s.snk.closed = true) (n v : Nat) : snkWrite n v s = .refused .sinkClosed := by
  simp [snkWrite, h]
theorem snkClose_open {s : State} (h : s.snk.closed = false) (p : Config.Params) :
    snkClose p s = .done (withSink s ⟨s.snk.bits ++ p.padding (padLength s.snk.bits.length), true⟩) := by simp [snkClose, h]
theorem snkClose_closed {s : State} (h : s.snk.closed = true) (p : Config.Params) :
    snkClose p s = .refused .sinkClosed := by simp [snkClose, h]

theorem padLength_lt (k : Nat) : padLength k < 8 := Nat.mod_lt _ (by decide)
theorem add_padLength_mod (k : Nat) : (k + padLength k) % 8 = 0 := by unfold padLength; omega

/-! ## The wrapper -/

@[simp] theorem isBusy_acknowledge (s : State) : isBusy (acknowledge s).status = true := by simp [acknowledge]
@[simp] theorem isDone_acknowledge (s : State) : isDone (acknowledge s).status = false := by simp [acknowledge]
@[simp] theorem isFault_acknowledge (s : State) : isFault (acknowledge s).status = isFault s.status := by simp [acknowledge]
@[simp] theorem errOf_acknowledge (s : State) : errOf (acknowledge s).status = errOf s.status := by simp [acknowledge]
@[simp] theorem freqValid_acknowledge (s : State) : freqValid (acknowledge s).status = freqValid s.status := by
  simp [acknowledge]
@[simp] theorem treeValid_acknowledge (s : State) : treeValid (acknowledge s).status = treeValid s.status := by
  simp [acknowledge]
@[simp] theorem codeValid_acknowledge (s : State) : codeValid (acknowledge s).status = codeValid s.status := by
  simp [acknowledge]
@[simp] theorem reservedOf_acknowledge (s : State) : reservedOf (acknowledge s).status = reservedOf s.status := by
  simp [acknowledge]

/-- `Complete()` (R115), field by field. -/
theorem complete_spec (s : State) :
    isBusy (complete s).status = false ∧ isDone (complete s).status = true ∧
      isFault (complete s).status = isFault s.status ∧ errOf (complete s).status = errOf s.status ∧
      FlagsAre s (complete s) (freqValid s.status) (treeValid s.status) (codeValid s.status) ∧ SameInside s (complete s) ∧
      (complete s).src = s.src ∧ (complete s).snk = s.snk := by
  simp [complete, FlagsAre, SameInside, SameRoot, SameTable, SameHost]

/-- `raise E` (R127), field by field. -/
theorem raiseFault_spec (e : Cause) (s : State) :
    TookFault e s (raiseFault e s) (freqValid s.status) (treeValid s.status) (codeValid s.status) ∧
      SameInside s (raiseFault e s) ∧ (raiseFault e s).src = s.src ∧ (raiseFault e s).snk = s.snk := by
  simp [raiseFault, TookFault, FlagsAre, SameInside, SameRoot, SameTable, SameHost]

theorem accept_ready {needs : StatusWord → Bool} {atStart : StatusWord → StatusWord} {body : State → Body} {s : State}
    (h : Ready s) (hn : needs (acknowledge s).status = true) :
    accept needs atStart body s = finish (body (withStatus (acknowledge s) (atStart (acknowledge s).status))) := by
  simp [accept, h.1, h.2, hn]

theorem accept_sequence {needs : StatusWord → Bool} {atStart : StatusWord → StatusWord} {body : State → Body} {s : State}
    (h : Ready s) (hn : needs (acknowledge s).status = false) :
    accept needs atStart body s = .next (raiseFault .sequence (acknowledge s)) := by
  simp [accept, h.1, h.2, hn]

theorem accept_dropped {needs : StatusWord → Bool} {atStart : StatusWord → StatusWord} {body : State → Body} {s : State}
    (h : isBusy s.status = true ∨ isFault s.status = true) : accept needs atStart body s = .next s := by
  rcases h with h | h <;> simp [accept, h]

/-- What `accept` can answer (R113). -/
theorem accept_cases (needs : StatusWord → Bool) (atStart : StatusWord → StatusWord) (body : State → Body) (s : State) :
    ((isBusy s.status = true ∨ isFault s.status = true) ∧ accept needs atStart body s = .next s) ∨
    (Ready s ∧ needs (acknowledge s).status = false ∧
      accept needs atStart body s = .next (raiseFault .sequence (acknowledge s))) ∨
    (Ready s ∧ needs (acknowledge s).status = true ∧ accept needs atStart body s =
      finish (body (withStatus (acknowledge s) (atStart (acknowledge s).status)))) := by
  by_cases h : isBusy s.status = true ∨ isFault s.status = true
  · exact .inl ⟨h, accept_dropped h⟩
  · have hr : Ready s := by simpa using h
    by_cases hn : needs (acknowledge s).status = true
    · exact .inr (.inr ⟨hr, hn, accept_ready hr hn⟩)
    · exact .inr (.inl ⟨hr, by simpa using hn, accept_sequence hr (by simpa using hn)⟩)

/-- A body that ended in a next state ended by `done` or by `raise`. -/
theorem finish_eq_next {b : Body} {t : State} (h : finish b = .next t) :
    (∃ s, b = .done s ∧ t = complete s) ∨ ∃ e s, b = .raised e s ∧ t = raiseFault e s := by
  cases b with
  | done s => exact .inl ⟨s, rfl, by cases h; rfl⟩
  | raised e s => exact .inr ⟨e, s, rfl, by cases h; rfl⟩
  | refused r => cases h
  | stuck f => cases h

/-- `exec` is the build with this hardware's parameters. -/
theorem exec_eq (i : Instr) (s : State) : exec i s = runWith hwParams i s := by cases i <;> rfl

end Sys2Proof.Machine
end

