-- ==== Sys2Proof/Laws/Loops.lean ====
section
/-! SUPPORT. What the loops and recursions of the commands can do: one step of each (R70, R92, R104, R101), that none
outlives its bound (R119), and the frame each keeps (R21). -/

namespace Sys2Proof.Machine

/-! ## Updates that meet -/

@[simp] theorem withSrcPos_withSrcPos (s : State) (j k : Nat) : withSrcPos (withSrcPos s j) k = withSrcPos s k := rfl
@[simp] theorem withSrcPos_self (s : State) : withSrcPos s s.src.pos = s := rfl
@[simp] theorem withTable_withTable (s : State) (f g : Vector Count 257) (m n : Count) :
    withTable (withTable s f m) g n = withTable s g n := rfl
@[simp] theorem withTable_self (s : State) : withTable s s.freq s.total = s := rfl
@[simp] theorem withSink_withSink (s : State) (j k : Sink) : withSink (withSink s j) k = withSink s k := rfl
@[simp] theorem withSink_self (s : State) : withSink s s.snk = s := rfl
@[simp] theorem withCur_withCur (s : State) (j k : NodeIdx) : withCur (withCur s j) k = withCur s k := rfl
@[simp] theorem withCur_self (s : State) : withCur s s.cur = s := rfl
@[simp] theorem withNode_withNode (s : State) (j k : Vector NodeEntry 513) : withNode (withNode s j) k = withNode s k := rfl
@[simp] theorem withNode_self (s : State) : withNode s s.node = s := rfl

/-- The sink with bits appended, as open or closed as it was. -/
def appended (s : State) (l : Bits) : State := withSink s ⟨s.snk.bits ++ l, s.snk.closed⟩

@[simp] theorem appended_nil (s : State) : appended s [] = s := by rw [appended, List.append_nil]; rfl
@[simp] theorem appended_appended (s : State) (l m : Bits) : appended (appended s l) m = appended s (l ++ m) := by
  simp [appended]

/-- SnkWrite appends or is refused (R33). -/
theorem snkWrite_cases (n v : Nat) (s : State) :
    (s.snk.closed = false ∧ snkWrite n v s = .done (appended s (bitsOf n v))) ∨
    (s.snk.closed = true ∧ snkWrite n v s = .refused .sinkClosed) := by
  cases h : s.snk.closed with
  | false => exact .inl ⟨rfl, by rw [snkWrite_open h, appended, h]⟩
  | true => exact .inr ⟨rfl, snkWrite_closed h n v⟩

/-! ## COUNT's loop (R70) -/

theorem countLoop_end {p : Config.Params} {fuel : Nat} {s : State} (h : (remaining s).length < 8) :
    countLoop p (fuel + 1) s = .done s := by rw [countLoop, srcRead_short h]

theorem countLoop_byte {p : Config.Params} {fuel : Nat} {s : State} {b : Byte} {rest : Bits}
    (h : remaining s = bitsOf 8 b.toNat ++ rest) (ht : s.total.toNat < p.nMax) :
    countLoop p (fuel + 1) s = countLoop p fuel (countSymbol (byteSymbol b) (withSrcPos s (s.src.pos + 8))) := by
  rw [countLoop, (srcRead_append h (by simp) (by decide)).1, ofNat_bitsVal_bitsOf]
  simp [ht]

theorem countLoop_overflow {p : Config.Params} {fuel : Nat} {s : State} {b : Byte} {rest : Bits}
    (h : remaining s = bitsOf 8 b.toNat ++ rest) (ht : p.nMax ≤ s.total.toNat) :
    countLoop p (fuel + 1) s = .raised .overflow (withSrcPos s (s.src.pos + 8)) := by
  rw [countLoop, (srcRead_append h (by simp) (by decide)).1]
  simp [Nat.not_lt.2 ht]

/-- The loop writes FREQ, TOTAL and the source cursor, and nothing else. -/
theorem countLoop_frame (p : Config.Params) (fuel : Nat) (s : State) :
    (countLoop p fuel s).Ends fun t => ∃ f n k, t = withSrcPos (withTable s f n) k := by
  induction fuel generalizing s with
  | zero => trivial
  | succ fuel ih =>
    rw [countLoop]
    rcases srcRead_cases 8 s with ⟨-, h⟩ | ⟨-, h⟩
    · simp only [h]
      split
      · exact ends_mono (ih _) fun t ⟨f, n, k, ht⟩ => ⟨f, n, k, ht⟩
      · exact ⟨s.freq, s.total, s.src.pos + 8, rfl⟩
    · simp only [h]
      exact ⟨s.freq, s.total, s.src.pos, rfl⟩

/-- With more fuel than bits left the loop ends, by itself or by Overflow. -/
theorem countLoop_ends (p : Config.Params) (fuel : Nat) (s : State) (h : (remaining s).length < fuel) :
    (∃ t, countLoop p fuel s = .done t) ∨ ∃ t, countLoop p fuel s = .raised .overflow t := by
  induction fuel generalizing s with
  | zero => omega
  | succ fuel ih =>
    rw [countLoop]
    rcases srcRead_cases 8 s with ⟨hp, hr⟩ | ⟨-, hr⟩
    · simp only [hr]
      split
      · refine ih _ ?_
        rw [remaining_length] at h ⊢
        simp only [countSymbol, withTable_src, withSrcPos_src]
        omega
      · exact .inr ⟨_, rfl⟩
    · simp only [hr]
      exact .inl ⟨_, rfl⟩

/-! ## ENCODE's loop (R92) -/

theorem encodeLoop_end {fuel : Nat} {s : State} (h : (remaining s).length < 8) : encodeLoop (fuel + 1) s = .done s := by
  rw [encodeLoop, srcRead_short h]

theorem encodeLoop_byte {fuel : Nat} {s : State} {b : Byte} {rest : Bits} (h : remaining s = bitsOf 8 b.toNat ++ rest) :
    encodeLoop (fuel + 1) s =
      (writeCode (byteSymbol b) (withSrcPos s (s.src.pos + 8))).andThen (encodeLoop fuel) := by
  rw [encodeLoop, (srcRead_append h (by simp) (by decide)).1, ofNat_bitsVal_bitsOf]
  simp

/-- What writing a codeword can do (R92, R93). -/
theorem writeCode_cases (v : Symbol) (s : State) :
    (s.code[v].len = 0 ∧ writeCode v s = .raised .noCode s) ∨
    (s.code[v].len ≠ 0 ∧ s.snk.closed = false ∧ writeCode v s = .done (appended s (codeword s.code[v]))) ∨
    (s.code[v].len ≠ 0 ∧ s.snk.closed = true ∧ writeCode v s = .refused .sinkClosed) := by
  by_cases h : s.code[v].len = 0
  · exact .inl ⟨h, by rw [writeCode, if_pos (by exact h)]⟩
  · refine .inr ?_
    rw [writeCode, if_neg (by exact h)]
    rcases snkWrite_cases (codeRead s v).len.toNat (codeRead s v).bits.toNat s with ⟨hc, hw⟩ | ⟨hc, hw⟩
    · exact .inl ⟨h, hc, hw⟩
    · exact .inr ⟨h, hc, hw⟩

/-- The loop moves the source cursor and appends to the sink, and nothing else. -/
theorem encodeLoop_frame (fuel : Nat) (s : State) :
    (encodeLoop fuel s).Ends fun t => ∃ k l, t = appended (withSrcPos s k) l := by
  induction fuel generalizing s with
  | zero => trivial
  | succ fuel ih =>
    rw [encodeLoop]
    rcases srcRead_cases 8 s with ⟨-, h⟩ | ⟨-, h⟩
    · simp only [h]
      rcases writeCode_cases (byteSymbol (BitVec.ofNat 8 (bitsVal ((remaining s).take 8))))
        (withSrcPos s (s.src.pos + 8)) with ⟨-, hw⟩ | ⟨-, -, hw⟩ | ⟨-, -, hw⟩
      · rw [hw]
        exact ⟨s.src.pos + 8, [], by simp⟩
      · rw [hw, andThen_done]
        refine ends_mono (ih _) ?_
        rintro t ⟨k, l, rfl⟩
        refine ⟨k, codeword (withSrcPos s (s.src.pos + 8)).code[byteSymbol (BitVec.ofNat 8 (bitsVal ((remaining s).take 8)))] ++ l, ?_⟩
        simp [appended, withSink, withSrcPos]
      · rw [hw]
        trivial
    · simp only [h]
      exact ⟨s.src.pos, [], by simp⟩

/-- With more fuel than bits left the loop is not stuck. -/
theorem encodeLoop_not_stuck (fuel : Nat) (s : State) (f : Fault) (h : (remaining s).length < fuel) :
    encodeLoop fuel s ≠ .stuck f := by
  induction fuel generalizing s with
  | zero => omega
  | succ fuel ih =>
    rw [encodeLoop]
    rcases srcRead_cases 8 s with ⟨hp, hr⟩ | ⟨-, hr⟩
    · simp only [hr]
      rcases writeCode_cases (byteSymbol (BitVec.ofNat 8 (bitsVal ((remaining s).take 8))))
        (withSrcPos s (s.src.pos + 8)) with ⟨-, hw⟩ | ⟨-, -, hw⟩ | ⟨-, -, hw⟩
      · simp [hw]
      · rw [hw, andThen_done]
        refine ih _ ?_
        rw [remaining_length] at h ⊢
        simp only [appended, withSink_src, withSrcPos_src]
        omega
      · simp [hw]
    · simp [hr]

/-! ## DECODE's loop (R104) -/

theorem decodeLoop_end {fuel : Nat} {s : State} (h : remaining s = []) :
    decodeLoop (fuel + 1) s = .raised .malformedStream s := by rw [decodeLoop, srcRead_short (by simp [h])]

/-- One bit moves `CUR` over one edge, to an internal node: the walk goes on. -/
theorem decodeLoop_inner {fuel : Nat} {s : State} {b : Bool} {rest : Bits} {e c : NodeEntry}
    (h : remaining s = b :: rest) (he : nodeRead s s.cur = some e)
    (hc : nodeRead s (if b then e.right else e.left) = some c) (hl : c.leaf = false) :
    decodeLoop (fuel + 1) s =
      decodeLoop fuel (withCur (withSrcPos s (s.src.pos + 1)) (if b then e.right else e.left)) := by
  have hr := (srcRead_append (n := 1) (s := s) (g := [b]) (rest := rest) (by simpa using h) rfl (by decide)).1
  simp only [nodeRead] at he hc
  cases b <;> simp_all [decodeLoop, nodeRead, bitsVal]

/-- One bit moves `CUR` over one edge, to a data leaf: its byte is written and the walk starts again at the root. -/
theorem decodeLoop_byte {fuel : Nat} {s : State} {b : Bool} {rest : Bits} {e c : NodeEntry}
    (h : remaining s = b :: rest) (he : nodeRead s s.cur = some e)
    (hc : nodeRead s (if b then e.right else e.left) = some c) (hl : c.leaf = true) (hs : c.sym ≠ 256) :
    decodeLoop (fuel + 1) s =
      (snkWrite 8 c.sym.toNat (withCur (withSrcPos s (s.src.pos + 1)) (if b then e.right else e.left))).andThen
        fun t => decodeLoop fuel (withCur t t.root) := by
  have hr := (srcRead_append (n := 1) (s := s) (g := [b]) (rest := rest) (by simpa using h) rfl (by decide)).1
  simp only [nodeRead] at he hc
  cases b <;> simp_all [decodeLoop, nodeRead, bitsVal]

/-- One bit moves `CUR` over one edge, to a sentinel's leaf: the loop ends there. -/
theorem decodeLoop_sentinel {fuel : Nat} {s : State} {b : Bool} {rest : Bits} {e c : NodeEntry}
    (h : remaining s = b :: rest) (he : nodeRead s s.cur = some e)
    (hc : nodeRead s (if b then e.right else e.left) = some c) (hl : c.leaf = true) (hs : c.sym = 256) :
    decodeLoop (fuel + 1) s = .done (withCur (withSrcPos s (s.src.pos + 1)) (if b then e.right else e.left)) := by
  have hr := (srcRead_append (n := 1) (s := s) (g := [b]) (rest := rest) (by simpa using h) rfl (by decide)).1
  simp only [nodeRead] at he hc
  cases b <;> simp_all [decodeLoop, nodeRead, bitsVal]

/-- The loop moves the source cursor and `CUR` and appends whole bytes to the sink, and nothing else. -/
theorem decodeLoop_frame (fuel : Nat) (s : State) :
    (decodeLoop fuel s).Ends fun t => ∃ k c l, l.length % 8 = 0 ∧ t = appended (withCur (withSrcPos s k) c) l := by
  induction fuel generalizing s with
  | zero => trivial
  | succ fuel ih =>
    rw [decodeLoop]
    rcases srcRead_cases 1 s with ⟨-, h⟩ | ⟨-, h⟩
    · simp only [h]
      split
      · trivial
      · rename_i e he
        split
        · trivial
        · rename_i c hc
          split
          · split
            · exact ⟨_, _, [], rfl, (appended_nil _).symm⟩
            · rcases snkWrite_cases 8 c.sym.toNat (withCur (withSrcPos s (s.src.pos + 1))
                (if BitVec.ofNat 1 (bitsVal (List.take 1 (remaining s))) = 0 then e.left else e.right)) with
                ⟨-, hw⟩ | ⟨-, hw⟩
              · rw [hw, andThen_done]
                refine ends_mono (ih _) ?_
                rintro t ⟨k, c', l, hl, rfl⟩
                refine ⟨k, c', bitsOf 8 c.sym.toNat ++ l, by simp [hl], ?_⟩
                simp [appended, withSink, withSrcPos, withCur]
              · rw [hw]
                trivial
          · refine ends_mono (ih _) ?_
            rintro t ⟨k, c', l, hl, rfl⟩
            exact ⟨k, c', l, hl, rfl⟩
    · simp only [h]
      exact ⟨s.src.pos, s.cur, [], rfl, by simp⟩

/-- With more fuel than bits left the loop never meets its bound. -/
theorem decodeLoop_not_loopBound (fuel : Nat) (s : State) (h : (remaining s).length < fuel) :
    decodeLoop fuel s ≠ .stuck .loopBound := by
  induction fuel generalizing s with
  | zero => omega
  | succ fuel ih =>
    rw [decodeLoop]
    rcases srcRead_cases 1 s with ⟨hp, hr⟩ | ⟨-, hr⟩
    · have hlen : ∀ (c : NodeIdx) (l : Bits) (c' : NodeIdx),
          (remaining (withCur (appended (withCur (withSrcPos s (s.src.pos + 1)) c) l) c')).length < fuel := by
        intro c l c'
        rw [remaining_length] at h ⊢
        simp only [appended, withCur_src, withSink_src, withSrcPos_src]
        omega
      simp only [hr]
      split
      · simp
      · rename_i e he
        split
        · simp
        · rename_i c hc
          split
          · split
            · simp
            · rcases snkWrite_cases 8 c.sym.toNat (withCur (withSrcPos s (s.src.pos + 1))
                (if BitVec.ofNat 1 (bitsVal (List.take 1 (remaining s))) = 0 then e.left else e.right)) with
                ⟨-, hw⟩ | ⟨-, hw⟩
              · rw [hw, andThen_done]
                exact ih _ (hlen _ _ _)
              · rw [hw, andThen_refused]
                exact fun hx => Body.noConfusion hx
          · exact ih _ (hlen 0 [] 0)
    · simp [hr]

/-! ## Rd (R101, R102) -/

/-- What `rd` can do. An accepted subtree has its root at the first free entry, its nodes after it, and leaves the
entries below alone; the only fault is MalformedHeader; nothing but NODE and the source cursor is written. -/
theorem rd_cases (fuel n : Nat) (s : State) :
    (∃ m t, rd fuel n s = .ok n m t ∧ n < m ∧ m ≤ 513 ∧ ∃ mem k, t = withSrcPos (withNode s mem) k) ∨
    (∃ t, rd fuel n s = .raised .malformedHeader t ∧ ∃ mem k, t = withSrcPos (withNode s mem) k) ∨
    rd fuel n s = .stuck .loopBound := by
  induction fuel generalizing n s with
  | zero => exact .inr (.inr rfl)
  | succ fuel ih =>
    rw [rd]
    split
    · rename_i hn
      rcases srcRead_cases 1 s with ⟨-, h1⟩ | ⟨-, h1⟩
      · simp only [h1]
        split
        · rcases srcRead_cases 9 (withSrcPos s (s.src.pos + 1)) with ⟨-, h9⟩ | ⟨-, h9⟩
          · simp only [h9]
            split
            · exact .inl ⟨n + 1, _, rfl, by omega, by omega, _, _, rfl⟩
            · exact .inr (.inl ⟨_, rfl, s.node, _, rfl⟩)
          · simp only [h9]
            exact .inr (.inl ⟨_, rfl, s.node, _, rfl⟩)
        · rcases ih (n + 1) (withSrcPos s (s.src.pos + 1)) with ⟨m, t, hl, hlt, hle, mem, k, rfl⟩ | ⟨t, hl, mem, k, rfl⟩ | hl
          · simp only [hl]
            rcases ih m (withSrcPos (withNode (withSrcPos s (s.src.pos + 1)) mem) k) with
              ⟨m', t, hr, hlt', hle', mem', k', rfl⟩ | ⟨t, hr, mem', k', rfl⟩ | hr
            · simp only [hr]
              exact .inl ⟨m', _, rfl, by omega, hle', _, k', rfl⟩
            · simp only [hr]
              exact .inr (.inl ⟨_, rfl, mem', k', rfl⟩)
            · simp only [hr]
              exact .inr (.inr trivial)
          · simp only [hl]
            exact .inr (.inl ⟨_, rfl, mem, k, rfl⟩)
          · simp only [hl]
            exact .inr (.inr trivial)
      · simp only [h1]
        exact .inr (.inl ⟨_, rfl, s.node, s.src.pos, rfl⟩)
    · exact .inr (.inl ⟨_, rfl, s.node, s.src.pos, rfl⟩)

/-- The node capacity ends the recursion before the fuel does. -/
theorem rd_not_stuck (fuel n : Nat) (s : State) (h : 513 < n + fuel) (h0 : 0 < fuel) :
    rd fuel n s ≠ .stuck .loopBound := by
  induction fuel generalizing n s with
  | zero => omega
  | succ fuel ih =>
    rw [rd]
    split
    · rename_i hn
      rcases srcRead_cases 1 s with ⟨-, h1⟩ | ⟨-, h1⟩
      · simp only [h1]
        split
        · rcases srcRead_cases 9 (withSrcPos s (s.src.pos + 1)) with ⟨-, h9⟩ | ⟨-, h9⟩
          · simp only [h9]
            split <;> simp
          · simp [h9]
        · have hl := ih (n + 1) (withSrcPos s (s.src.pos + 1)) (by omega) (by omega)
          rcases rd_cases fuel (n + 1) (withSrcPos s (s.src.pos + 1)) with ⟨m, t, hx, hlt, -⟩ | ⟨t, hx, -⟩ | hx
          · simp only [hx]
            have hr := ih m t (by omega) (by omega)
            rcases rd_cases fuel m t with ⟨m', t', hy, -⟩ | ⟨t', hy, -⟩ | hy
            · simp [hy]
            · simp [hy]
            · exact absurd hy hr
          · simp [hx]
          · exact absurd hx hl
      · simp [h1]
    · simp

/-! ## Wr (R91) and Walk (R85) -/

/-- `Wr` appends to the sink and changes nothing else, or is refused. -/
theorem writeTree_cases (T : CodeTree) (s : State) :
    (s.snk.closed = false ∧ ∃ l, writeTree T s = .done (appended s l)) ∨
    (s.snk.closed = true ∧ writeTree T s = .refused .sinkClosed) := by
  induction T generalizing s with
  | leaf sym =>
    rw [writeTree]
    rcases snkWrite_cases 1 1 s with ⟨hc, hw⟩ | ⟨hc, hw⟩
    · refine .inl ⟨hc, ?_⟩
      rw [hw, andThen_done, snkWrite_open (by exact hc)]
      exact ⟨bitsOf 1 1 ++ bitsOf 9 sym.toNat, by simp [appended, withSink, hc]⟩
    · exact .inr ⟨hc, by rw [hw, andThen_refused]⟩
  | node l r ihl ihr =>
    rw [writeTree]
    rcases snkWrite_cases 1 0 s with ⟨hc, hw⟩ | ⟨hc, hw⟩
    · refine .inl ⟨hc, ?_⟩
      rw [hw, andThen_done]
      rcases ihl (appended s (bitsOf 1 0)) with ⟨-, bl, hl⟩ | ⟨hx, -⟩
      · rw [hl, andThen_done]
        rcases ihr (appended (appended s (bitsOf 1 0)) bl) with ⟨-, br, hr⟩ | ⟨hx, -⟩
        · exact ⟨bitsOf 1 0 ++ bl ++ br, by rw [hr]; simp⟩
        · simp [appended, hc] at hx
      · simp [appended, hc] at hx
    · exact .inr ⟨hc, by rw [hw, andThen_refused, andThen_refused]⟩

/-- `Walk` writes the entries of the tree's symbols and no others. -/
theorem walk_other (T : CodeTree) (len : Nat) (path : BitVec 256) (m : Vector CodeEntry 257) (v : Symbol)
    (h : ∀ x ∈ T.symbols, x.toNat ≠ v.val) : (walk T len path m)[v] = m[v] := by
  induction T generalizing len path m with
  | leaf sym =>
    have hne : sym.toNat ≠ v.val := h sym (by simp [CodeTree.symbols])
    simp [walk, hne]
  | node l r ihl ihr =>
    rw [walk, ihr _ _ _ fun x hx => h x (by simp [CodeTree.symbols, hx]),
      ihl _ _ _ fun x hx => h x (by simp [CodeTree.symbols, hx])]

end Sys2Proof.Machine
end

