-- ==== Sys2Proof/Laws/PerInstr.lean ====
section
/-! SUPPORT. Statements about every command as syntax, one lemma per constructor (LAWS.json). -/

namespace Sys2Proof.Laws

/-- A command is well formed, and the word the encoder gives it decodes to it, in the numbering of
spec/opcode_table.json (R50, R51). -/
def Encoding.Statement (i : Instr) : Prop := i.wf = true ∧ decodeTableWord 8 (encode i).toNat = some i

theorem Encoding.clear : Encoding.Statement .clear := by unfold Encoding.Statement; decide
theorem Encoding.count : Encoding.Statement .count := by unfold Encoding.Statement; decide
theorem Encoding.build : Encoding.Statement .build := by unfold Encoding.Statement; decide
theorem Encoding.gencodes : Encoding.Statement .gencodes := by unfold Encoding.Statement; decide
theorem Encoding.wrhdr : Encoding.Statement .wrhdr := by unfold Encoding.Statement; decide
theorem Encoding.encode : Encoding.Statement .encode := by unfold Encoding.Statement; decide
theorem Encoding.rdhdr : Encoding.Statement .rdhdr := by unfold Encoding.Statement; decide
theorem Encoding.decode : Encoding.Statement .decode := by unfold Encoding.Statement; decide
theorem Encoding.compress : Encoding.Statement .compress := by unfold Encoding.Statement; decide
theorem Encoding.decompress : Encoding.Statement .decompress := by unfold Encoding.Statement; decide
theorem Encoding.reservedA : Encoding.Statement .reservedA := by unfold Encoding.Statement; decide
theorem Encoding.reservedB : Encoding.Statement .reservedB := by unfold Encoding.Statement; decide
theorem Encoding.reservedC : Encoding.Statement .reservedC := by unfold Encoding.Statement; decide
theorem Encoding.reservedD : Encoding.Statement .reservedD := by unfold Encoding.Statement; decide
theorem Encoding.reservedE : Encoding.Statement .reservedE := by unfold Encoding.Statement; decide
theorem Encoding.reservedF : Encoding.Statement .reservedF := by unfold Encoding.Statement; decide

end Sys2Proof.Laws
end

