-- ==== Sys2Proof/Laws/Trees.lean ====
section
/-! SUPPORT. The heap of BUILD (R75, R76) and the tree as a value (R19): what each operation can do. -/

namespace Sys2Proof.Machine

/-! ## RemoveMin (R76) -/

/-- An element leaves first only if it is in the list, and some element does unless the list is empty. -/
theorem firstOf_cases (p : Config.Params) (l : List (Count × Nat)) :
    (l = [] ∧ firstOf p l = none) ∨ ∃ x ∈ l, firstOf p l = some x := by
  induction l with
  | nil => exact .inl ⟨rfl, rfl⟩
  | cons x t ih =>
    refine .inr ?_
    rcases ih with ⟨rfl, h⟩ | ⟨y, hy, h⟩
    · exact ⟨x, by simp, by simp [firstOf]⟩
    · by_cases hb : p.before y.1 y.2 x.1 x.2 = true
      · exact ⟨y, by simp [hy], by simp [firstOf, h, hb]⟩
      · exact ⟨x, by simp, by simp [firstOf, h, hb]⟩

/-- What RemoveMin can do: nothing on an empty set; else it clears the membership bit of one element. -/
theorem removeMin_cases (p : Config.Params) (h : Heap) :
    (prioritySet h = [] ∧ removeMin p h = none) ∨
    ∃ w m, (w, m) ∈ prioritySet h ∧ removeMin p h = some (w, m, ⟨h.node, h.inq.setIfInBounds m false, h.n⟩) := by
  rcases firstOf_cases p (prioritySet h) with ⟨he, hf⟩ | ⟨x, hx, hf⟩
  · exact .inl ⟨he, by simp [removeMin, hf]⟩
  · exact .inr ⟨x.1, x.2, hx, by simp [removeMin, hf]⟩

@[simp] theorem heapAdd_n (h : Heap) (e : NodeEntry) : (heapAdd h e).n = h.n + 1 := rfl
@[simp] theorem heapAdd_node (h : Heap) (e : NodeEntry) : (heapAdd h e).node = h.node.setIfInBounds h.n e := rfl
@[simp] theorem heapAdd_inq (h : Heap) (e : NodeEntry) : (heapAdd h e).inq = h.inq.setIfInBounds h.n true := rfl

/-- The merge loop stops when one node is left, and otherwise makes one merge and goes on. -/
theorem mergeLoop_cases (p : Config.Params) (fuel : Nat) (h : Heap) :
    ((prioritySet h).length ≤ 1 ∧ mergeLoop p (fuel + 1) h = some h) ∨
    (1 < (prioritySet h).length ∧ mergeLoop p (fuel + 1) h =
      (removeMin p h).bind fun x => (removeMin p x.2.2).bind fun y =>
        mergeLoop p fuel (heapAdd y.2.2 (mergeEntry p x.1 x.2.1 y.1 y.2.1))) := by
  rw [mergeLoop]
  by_cases hl : (prioritySet h).length ≤ 1
  · exact .inl ⟨hl, by rw [if_pos hl]⟩
  · refine .inr ⟨by omega, ?_⟩
    rw [if_neg hl]
    rcases removeMin p h with _ | ⟨wa, a, h1⟩
    · rfl
    · rcases hb : removeMin p h1 with _ | ⟨wb, b, h2⟩ <;> simp [hb]

/-! ## The tree as a value (R19) -/

theorem treeAt_leaf {m : Vector NodeEntry 513} {fuel i : Nat} {e : NodeEntry} (h : m[i]? = some e) (hl : e.leaf = true) :
    treeAt m (fuel + 1) i = some (.leaf e.sym) := by simp [treeAt, h, hl]

theorem treeAt_node {m : Vector NodeEntry 513} {fuel i : Nat} {e : NodeEntry} {l r : CodeTree} (h : m[i]? = some e)
    (hn : e.leaf = false) (hl : treeAt m fuel e.left.toNat = some l) (hr : treeAt m fuel e.right.toNat = some r) :
    treeAt m (fuel + 1) i = some (.node l r) := by simp [treeAt, h, hn, hl, hr]

/-- How a tree value comes about: from a leaf entry, or from an internal entry and its two subtrees. -/
theorem treeAt_eq_some {m : Vector NodeEntry 513} {fuel i : Nat} {T : CodeTree} (h : treeAt m fuel i = some T) :
    ∃ f e, fuel = f + 1 ∧ m[i]? = some e ∧
      ((e.leaf = true ∧ T = .leaf e.sym) ∨
        (e.leaf = false ∧ ∃ l r, T = .node l r ∧ treeAt m f e.left.toNat = some l ∧ treeAt m f e.right.toNat = some r)) := by
  cases fuel with
  | zero => simp [treeAt] at h
  | succ f =>
    rw [treeAt] at h
    split at h
    · cases h
    · rename_i e he
      refine ⟨f, e, rfl, he, ?_⟩
      split at h
      · rename_i hl
        exact .inl ⟨hl, by cases h; rfl⟩
      · rename_i hl
        refine .inr ⟨by simpa using hl, ?_⟩
        split at h
        · rename_i l r hx hy
          exact ⟨l, r, by cases h; rfl, hx, hy⟩
        · cases h

/-- More fuel reads the same tree. -/
theorem treeAt_mono {m : Vector NodeEntry 513} {f g i : Nat} {T : CodeTree} (h : treeAt m f i = some T) (hfg : f ≤ g) :
    treeAt m g i = some T := by
  induction T generalizing f g i with
  | leaf sym =>
    obtain ⟨f', e, rfl, he, ⟨hl, hT⟩ | ⟨-, l, r, hT, -⟩⟩ := treeAt_eq_some h
    · obtain ⟨g', rfl⟩ : ∃ g', g = g' + 1 := ⟨g - 1, by omega⟩
      rw [treeAt_leaf he hl, hT]
    · cases hT
  | node l r ihl ihr =>
    obtain ⟨f', e, rfl, he, ⟨-, hT⟩ | ⟨hn, l', r', hT, hl, hr⟩⟩ := treeAt_eq_some h
    · cases hT
    · obtain ⟨g', rfl⟩ : ∃ g', g = g' + 1 := ⟨g - 1, by omega⟩
      cases hT
      exact treeAt_node he hn (ihl hl (by omega)) (ihr hr (by omega))

/-- A tree of depth `d` is read with `d + 1` levels of fuel. -/
theorem treeAt_fuel {m : Vector NodeEntry 513} {f i : Nat} {T : CodeTree} (h : treeAt m f i = some T) :
    treeAt m (T.depth + 1) i = some T := by
  induction T generalizing f i with
  | leaf sym =>
    obtain ⟨f', e, rfl, he, ⟨hl, hT⟩ | ⟨-, l, r, hT, -⟩⟩ := treeAt_eq_some h
    · rw [treeAt_leaf he hl, hT]
    · cases hT
  | node l r ihl ihr =>
    obtain ⟨f', e, rfl, he, ⟨-, hT⟩ | ⟨hn, l', r', hT, hl, hr⟩⟩ := treeAt_eq_some h
    · cases hT
    · cases hT
      exact treeAt_node he hn (treeAt_mono (ihl hl) (by simp [CodeTree.depth]; omega))
        (treeAt_mono (ihr hr) (by simp [CodeTree.depth]; omega))

/-- Two memories that agree on the entries a tree is read from hold the same tree. -/
theorem treeAt_congr {m m' : Vector NodeEntry 513} (P : Nat → Prop) {f i : Nat} (hi : P i)
    (hm : ∀ j, P j → m'[j]? = m[j]?)
    (hc : ∀ j e, P j → m[j]? = some e → e.leaf = false → P e.left.toNat ∧ P e.right.toNat) :
    treeAt m' f i = treeAt m f i := by
  induction f generalizing i with
  | zero => rfl
  | succ f ih =>
    rw [treeAt, treeAt, hm i hi]
    split
    · rfl
    · rename_i e he
      split
      · rfl
      · rename_i hl
        obtain ⟨h1, h2⟩ := hc i e hi he (by simpa using hl)
        rw [ih h1, ih h2]

/-! ## Sizes -/

/-- A tree of `L` leaves has `2L - 1` nodes (R3). -/
theorem size_add_one (T : CodeTree) : T.size + 1 = 2 * T.symbols.length := by
  induction T with
  | leaf s => rfl
  | node l r ihl ihr => simp only [CodeTree.size, CodeTree.symbols, List.length_append]; omega

/-- A tree of `L` leaves costs `11 L - 1` bits (R56). -/
theorem serialize_length (T : CodeTree) : (serialize T).length + 1 = 11 * T.symbols.length := by
  induction T with
  | leaf s => simp [serialize, CodeTree.symbols]
  | node l r ihl ihr => simp only [serialize, CodeTree.symbols, List.length_cons, List.length_append]; omega

theorem symbols_ne_nil (T : CodeTree) : T.symbols ≠ [] := by
  induction T with
  | leaf s => simp [CodeTree.symbols]
  | node l r ihl ihr => simp [CodeTree.symbols, ihl]

/-- The depth of a tree of `L` leaves is at most `L - 1` (R3). -/
theorem depth_lt (T : CodeTree) : T.depth < T.symbols.length := by
  induction T with
  | leaf s => simp [CodeTree.depth, CodeTree.symbols]
  | node l r ihl ihr => simp only [CodeTree.depth, CodeTree.symbols, List.length_append]; omega

/-- The leaves in pre-order are the symbols in pre-order. -/
theorem leafPaths_symbols (T : CodeTree) : (leafPaths T).map Prod.fst = T.symbols := by
  induction T with
  | leaf s => rfl
  | node l r ihl ihr => simp [leafPaths, CodeTree.symbols, ← ihl, ← ihr, Function.comp_def]

/-- No path is longer than the tree is deep. -/
theorem leafPaths_length_le (T : CodeTree) : ∀ x ∈ leafPaths T, x.2.length ≤ T.depth := by
  induction T with
  | leaf s => simp [leafPaths]
  | node l r ihl ihr =>
    intro x hx
    simp only [leafPaths, List.mem_append, List.mem_map] at hx
    rcases hx with ⟨y, hy, rfl⟩ | ⟨y, hy, rfl⟩
    · have := ihl y hy
      simp only [CodeTree.depth, List.length_cons]
      omega
    · have := ihr y hy
      simp only [CodeTree.depth, List.length_cons]
      omega

end Sys2Proof.Machine
end

