-- ==== Sys2Proof/Tests/Slice0.lean ====
section
/-! SUPPORT. The model's own tests. Expected results are the spec's: the table of R51 (30_encoding.md), the vectors and
programs of 95_test_vectors.md (V-..., P...), and the checks of R102. Then one witness per statement with hypotheses. -/

namespace Sys2Proof.Tests

-- One theorem at a time: the kernel evaluations below would otherwise each hold a thread.
set_option Elab.async false

open Sys2Proof Sys2Proof.Machine

/-- A property of the state an outcome leaves; false for a fault or refusal. -/
def after (o : Host.Outcome State Fault Refusal) (f : State → Bool) : Bool :=
  match o with
  | .next s => f s
  | .fault _ => false
  | .refused _ => false

/-- Bytes as a bit string. -/
def bitsOfBytes (l : List Nat) : Bits := bytesToBits (l.map (BitVec.ofNat 8))

/-- The reset state with these source bytes. -/
def source (l : List Nat) : State := launch (bitsOfBytes l)

/-- The input of V1, "AAAB". -/
def aaab : List Nat := [0x41, 0x41, 0x41, 0x42]
/-- The file of V1. -/
def fileAAAB : List Nat := [0xFA, 0xCE, 0x82, 0x01, 0x48, 0x2C, 0x02, 0x42, 0x1C]

/-- After COUNT of "AAAB" (V-C1). -/
def tableAAAB : State :=
  { source aaab with
    status := 0x0082#16, total := 4, freq := ((State.reset.freq.set 65 3).set 66 1).set 256 1, src := ⟨bitsOfBytes aaab, 32⟩ }

/-- After BUILD of it (V-B1). -/
def treeAAAB : State :=
  { tableAAAB with
    status := 0x0182#16, root := 4, nnodes := 5, inq := State.reset.inq.set 4 true
    node := ((((State.reset.node.set 0 (leafEntry 65 3)).set 1 (leafEntry 66 1)).set 2 (leafEntry 256 1)).set 3
      (innerEntry 2 2 1)).set 4 (innerEntry 5 0 3) }

/-- After GENCODES of it (V-G1). -/
def codesAAAB : State :=
  { treeAAAB with
    status := 0x0382#16, code := ((State.reset.code.set 65 ⟨1, 0⟩).set 256 ⟨2, 2⟩).set 66 ⟨2, 3⟩ }

/-- After RDHDR of V1's file (V-R1). -/
def headerAAAB : State :=
  { source fileAAAB with
    status := 0x0102#16, root := 0, nnodes := 5, src := ⟨bitsOfBytes fileAAAB, 64⟩
    node := ((((State.reset.node.set 0 (innerEntry 0 1 2)).set 1 (leafEntry 65 0)).set 2 (innerEntry 0 3 4)).set 3
      (leafEntry 256 0)).set 4 (leafEntry 66 0) }

/-- The tree of V1 as a value. -/
def valueAAAB : CodeTree := .node (.leaf 65) (.node (.leaf 256) (.leaf 66))

/-! ## The syntax checks refuse what is ill formed -/

theorem test_wf_accepts_V1 : valueAAAB.wf = true := by decide
theorem test_wf_refuses_leaf_root : (CodeTree.leaf 65).wf = false := by decide
theorem test_wf_refuses_symbol_257 : (CodeTree.node (.leaf 257) (.leaf 256)).wf = false := by decide

/-- A chain of `n + 1` leaves. -/
def chain : Nat → CodeTree
  | 0 => .leaf 256
  | n + 1 => .node (.leaf (BitVec.ofNat 9 n)) (chain n)

theorem test_wf_accepts_513_nodes : (chain 256).wf = true := by decide +kernel
theorem test_wf_refuses_515_nodes : (chain 257).fits = false := by decide +kernel
theorem test_word_16_does_not_fit : cmdWordFits 16 = false := by decide
theorem test_word_16_refused : decodeWord 8 16 = .error .wordTooWide := rfl
theorem test_word_of_3_bits_refused : decodeWord 3 1 = .error .wordTooShort := rfl
theorem test_instr_wf : ∀ i : Instr, i.wf = true := by intro i; cases i <;> rfl

/-! ## Decoding: each row of R51, bit by bit (column "binary") -/

theorem test_decode_clear : decodeOp 0b0000#4 = .clear := by decide
theorem test_decode_count : decodeOp 0b0001#4 = .count := by decide
theorem test_decode_build : decodeOp 0b0010#4 = .build := by decide
theorem test_decode_gencodes : decodeOp 0b0011#4 = .gencodes := by decide
theorem test_decode_wrhdr : decodeOp 0b0100#4 = .wrhdr := by decide
theorem test_decode_encode : decodeOp 0b0101#4 = .encode := by decide
theorem test_decode_rdhdr : decodeOp 0b0110#4 = .rdhdr := by decide
theorem test_decode_decode : decodeOp 0b0111#4 = .decode := by decide
theorem test_decode_compress : decodeOp 0b1000#4 = .compress := by decide
theorem test_decode_decompress : decodeOp 0b1001#4 = .decompress := by decide
theorem test_decode_reserved :
    [0b1010#4, 0b1011#4, 0b1100#4, 0b1101#4, 0b1110#4, 0b1111#4].map decodeOp = reservedCodes := by decide
/-- P2: `COUNT BUILD GENCODES WRHDR ENCODE` is `1 2 3 4 5`. -/
theorem test_encode_P2 : encodeProgram [.count, .build, .gencodes, .wrhdr, .encode] = [1, 2, 3, 4, 5] := by decide

/-! ## Commands -/

/-- R116's example: after BadMagic (`0x000C`) CLEAR gives `0x0002`; V-K6. -/
theorem test_clear_after_fault :
    after (exec .clear { State.reset with status := 0x000C#16, cur := 3 }) (fun s => s.status = 0x0002#16 ∧ s.cur = 0) := by
  decide +kernel
/-- V-C1. -/
theorem test_count_V_C1 :
    after (exec .count (source aaab)) (fun s => s.status = 0x0082#16 ∧ s.freq[65] = 3 ∧ s.freq[66] = 1 ∧ s.freq[256] = 1 ∧ s.freq[67] = 0 ∧ s.total = 4 ∧ s.src.pos = 32) := by
  decide +kernel
/-- V-C8, with `N_MAX = 2` for 14: the third byte overflows. -/
theorem test_count_V_C8 :
    after (runWith { hwParams with nMax := 2 } .count (source [0, 0, 0]))
      (fun s => s.status = 0x003C#16 ∧ s.freq[0] = 2 ∧ s.total = 2 ∧ s.src.pos = 24) := by
  decide +kernel
/-- V-B1. -/
theorem test_build_V_B1 :
    after (exec .build tableAAAB) (fun s => s.status = 0x0182#16 ∧ s.node.toList.take 5 = treeAAAB.node.toList.take 5 ∧
        s.inq.toList.take 6 = [false, false, false, false, true, false] ∧ s.root = 4 ∧ s.nnodes = 5) := by
  decide +kernel
/-- V-B6: a leaf ties with an internal node. -/
theorem test_build_V_B6 :
    after (exec .build { State.reset with
        status := 0x0082#16, total := 4, freq := (((State.reset.freq.set 97 1).set 98 1).set 99 2).set 256 1 })
      (fun s => s.node.toList.take 7 = [leafEntry 97 1, leafEntry 98 1, leafEntry 99 2, leafEntry 256 1, innerEntry 2 1 0,
        innerEntry 3 2 3, innerEntry 5 5 4] ∧ s.root = 6) := by
  decide +kernel
/-- V-G1. -/
theorem test_gencodes_V_G1 :
    after (exec .gencodes treeAAAB) (fun s => s.status = 0x0382#16 ∧ s.code[65] = ⟨1, 0⟩ ∧ s.code[256] = ⟨2, 2⟩ ∧ s.code[66] = ⟨2, 3⟩ ∧ s.code[0] = ⟨0, 0⟩) := by
  decide +kernel
/-- V-G10: a received tree with symbol 65 twice; the later leaf wins (R87). -/
theorem test_gencodes_V_G10 :
    after (exec .gencodes { headerAAAB with node := headerAAAB.node.set 3 (leafEntry 65 0) |>.set 4 (leafEntry 256 0) })
      (fun s => codeword s.code[65] = [true, false] ∧ codeword s.code[256] = [true, true] ∧ s.code[66].len = 0) := by
  decide +kernel
/-- V-W1 and R90's example. -/
theorem test_wrhdr_V_W1 :
    after (exec .wrhdr treeAAAB)
      (fun s => bitsToBytes s.snk.bits = [0xFA, 0xCE, 0x82, 0x01, 0x48, 0x2C, 0x02, 0x42] ∧ s.snk.bits.length = 64 ∧
        s.snk.closed = false) := by
  decide +kernel
/-- R92's example: payload `0001110` and one padding bit. -/
theorem test_encode_V1 :
    after (exec .encode codesAAAB)
      (fun s => s.snk = ⟨[false, false, false, true, true, true, false, false], true⟩ ∧ s.src.pos = 32 ∧
        s.status = 0x0382#16) := by
  decide +kernel
/-- P7: the first byte of the source, 0xFA, has no code. -/
theorem test_encode_P7 :
    after (exec .encode { codesAAAB with status := 0x0302#16, src := ⟨bitsOfBytes fileAAAB, 64⟩ })
      (fun s => s.status = 0x0334#16 ∧ s.src.pos = 8 ∧ s.snk = ⟨[], false⟩) := by
  decide +kernel
/-- V-R1. -/
theorem test_rdhdr_V_R1 :
    after (exec .rdhdr (source fileAAAB))
      (fun s => s.status = 0x0102#16 ∧ s.node.toList.take 5 = headerAAAB.node.toList.take 5 ∧ s.nnodes = 5 ∧ s.src.pos = 64) := by
  decide +kernel
/-- V-R9: symbol 257. -/
theorem test_rdhdr_V_R9 :
    after (exec .rdhdr (source [0xFA, 0xCE, 0x82, 0x01, 0x60, 0x38, 0x04])) (fun s => s.status = 0x0014#16 ∧ s.src.pos = 43) := by
  decide +kernel
/-- R104's example, V-D1: the payload `0001110` with its padding bit unread; P3: `CUR = 3`. -/
theorem test_decode_V_D1 :
    after (exec .decode headerAAAB)
      (fun s => s.snk = ⟨bitsOfBytes aaab, true⟩ ∧ s.src.pos = 71 ∧ s.cur = 3 ∧ s.status = 0x0102#16) := by
  decide +kernel
/-- V-D6: V1's file cut to 8 bytes. -/
theorem test_decode_V_D6 :
    after (exec .decode { headerAAAB with src := ⟨bitsOfBytes (fileAAAB.take 8), 64⟩ })
      (fun s => s.status = 0x011C#16 ∧ s.snk = ⟨[], false⟩ ∧ s.src.pos = 64) := by
  decide +kernel
/-- V1, P1. -/
theorem test_compress_V1 :
    after (exec .compress (source aaab))
      (fun s => s.status = 0x0382#16 ∧ s.snk = ⟨bitsOfBytes fileAAAB, true⟩ ∧ s.total = 4 ∧ s.src.pos = 32) := by
  decide +kernel
/-- V2, P4: the empty input. -/
theorem test_compress_V2 :
    after (exec .compress (source []))
      (fun s => s.status = 0x0382#16 ∧ s.snk = ⟨bitsOfBytes [0xFA, 0xCE, 0x82, 0x01, 0x60, 0x10, 0x00], true⟩) := by
  decide +kernel
/-- V-D5: the padding bit set and two trailing bytes. -/
theorem test_decompress_V_D5 :
    after (exec .decompress (source [0xFA, 0xCE, 0x82, 0x01, 0x48, 0x2C, 0x02, 0x42, 0x1D, 0xFF, 0xFF]))
      (fun s => s.status = 0x0102#16 ∧ s.snk = ⟨bitsOfBytes aaab, true⟩ ∧ s.src.pos = 71) := by
  decide +kernel
/-- V-R3, P6: the last magic byte is wrong. -/
theorem test_decompress_P6 :
    after (exec .decompress (source [0xFA, 0xCE, 0x82, 0x00, 0x48, 0x2C, 0x02, 0x42, 0x1C]))
      (fun s => s.status = 0x000C#16 ∧ s.src.pos = 32 ∧ s.snk = ⟨[], false⟩) := by
  decide +kernel
/-- V-K4, each reserved code. -/
theorem test_reserved_V_K4 :
    reservedCodes.all (fun i => after (exec i State.reset) (fun s => s.status = 0x002C#16)) := by decide +kernel
/-- V-K1 to V-K3. -/
theorem test_sequence_V_K1_to_3 :
    [Instr.build, .gencodes, .wrhdr, .encode, .decode].all
      (fun i => after (exec i State.reset) (fun s => s.status = 0x0024#16)) := by decide +kernel
/-- V-K5: dropped. -/
theorem test_dropped_V_K5 :
    after (exec .count { source aaab with status := 0x0024#16 }) (fun s => s.status = 0x0024#16 ∧ s.src.pos = 0) := by
  decide +kernel
/-- U6: a second ENCODE on a closed sink. -/
theorem test_closed_sink_refused :
    (match exec .encode { codesAAAB with snk := ⟨[], true⟩ } with
      | .refused r => decide (r = .sinkClosed)
      | _ => false) = true := by
  decide +kernel
/-- R44: 70 bits go as 6, 32 and 32. -/
theorem test_transfers_of_70_bits : snkTransfers 70 (2 ^ 69 + 5 * 2 ^ 32 + 7) = [(6, 32), (32, 5), (32, 7)] := by decide
/-- R149, log 4: the host's two presentations, one a step. -/
theorem test_step_takes_one_action :
    after (step (withHost (source aaab) [.command 0x1#4, .command 0x2#4]))
      (fun s => s.status = 0x0082#16 ∧ s.host = [.command 0x2#4]) := by decide +kernel

/-! ## Witnesses: the hypotheses of each statement of Certificates/Slice0/Obligations.lean can be met -/

/-- A faulted state (V-K1). -/
def faulted : State := { State.reset with status := 0x0024#16 }
/-- A busy state. -/
def busy : State := { State.reset with status := 0x0001#16 }
/-- A heap with the leaves of V-B1. -/
def heapAAAB : Heap := initialHeap hwParams tableAAAB
/-- After the table of one distinct byte, 0x41 (V3). -/
def tableA : State := { State.reset with status := 0x0082#16, total := 1, freq := (State.reset.freq.set 65 1).set 256 1 }
/-- The table of the empty input (V-C2). -/
def tableEmpty : State := { State.reset with status := 0x0082#16, freq := State.reset.freq.set 256 1 }
/-- The bits of V1's header. -/
def headerBits : Bits := bitsOf 32 hwParams.magic.toNat ++ serialize valueAAAB
/-- V1's payload as leaves. -/
def leavesAAAB : List (SymField × Bits) := [(65, [false]), (65, [false]), (65, [false]), (66, [true, true])]

theorem witness_host_does_nothing : State.reset.host = [] := rfl
theorem witness_reset_during : ∃ t, hostAct (.resetDuring 0xA#4) State.reset = .next t := ⟨_, rfl⟩
theorem witness_word_too_wide : (16 : Nat) ≤ 16 := le_refl _
theorem witness_command_presented : (withHost State.reset [.command 0x1#4]).host = .command 0x1#4 :: [] := rfl
theorem witness_word_decodes : decodeTableWord 8 0x9 = some .decompress := by decide
theorem witness_read_fits : (source aaab).src.pos + 32 ≤ (source aaab).src.bits.length := by decide
theorem witness_read_ends : (source []).src.bits.length < (source []).src.pos + 1 := by decide
theorem witness_sink_open : (source aaab).snk.closed = false := rfl
theorem witness_sink_closed : { State.reset with snk := ⟨[], true⟩ }.snk.closed = true := rfl
theorem witness_busy : isBusy busy.status = true := by decide
theorem witness_faulted : isBusy faulted.status = false ∧ isFault faulted.status = true ∧ Instr.count ≠ .clear := by decide
theorem witness_ready : Ready State.reset := by decide
theorem witness_reserved : Instr.reservedF ∈ reservedCodes ∧ Ready State.reset ∧ Instr.clear ≠ .count := by decide
theorem witness_prerequisite_missing : Ready State.reset ∧ prerequisite .encode State.reset.status = false := by decide
theorem witness_prerequisite_met : Ready treeAAAB ∧ prerequisite .wrhdr treeAAAB.status = true := by decide +kernel
theorem witness_fault_taken :
    Ready State.reset ∧ after (exec .build State.reset) (fun t => isFault t.status && errOf t.status = causeCode .sequence) := by
  decide +kernel
theorem witness_no_fault : Ready (source aaab) ∧ after (exec .count (source aaab)) (fun t => !isFault t.status) := by
  decide +kernel
theorem witness_next_state : after (exec .gencodes treeAAAB) (fun _ => true) := by decide +kernel
theorem witness_other_sink : ([] : Bits).length % 8 = (source aaab).snk.bits.length % 8 := rfl
theorem witness_count : Ready (source aaab) ∧ (remainingBytes (source aaab)).length ≤ hwParams.nMax := by decide +kernel
theorem witness_count_overflows :
    { hwParams with nMax := 2 }.nMax < 2 ^ 64 ∧ Ready (source aaab) ∧
      { hwParams with nMax := 2 }.nMax < (remainingBytes (source aaab)).length := by decide +kernel
theorem witness_remove_min : (removeMin hwParams heapAAAB).isSome = true := by decide +kernel
theorem witness_merge :
    1 < (prioritySet heapAAAB).length ∧
      ((removeMin hwParams heapAAAB).bind fun x => removeMin hwParams x.2.2).isSome = true := by decide +kernel
theorem witness_build : Ready tableAAAB ∧ freqValid tableAAAB.status = true ∧ tableAAAB.freq[eosSymbol] ≠ 0 := by
  decide +kernel
theorem tableAAAB_ok : TableOk tableAAAB := by decide +kernel
theorem witness_table : Ready tableAAAB ∧ freqValid tableAAAB.status = true ∧ TableOk tableAAAB :=
  ⟨by decide +kernel, by decide +kernel, tableAAAB_ok⟩
theorem witness_two_live_symbols : 2 ≤ (liveSymbols tableAAAB).length := by decide +kernel
theorem witness_empty_input :
    Ready tableEmpty ∧ freqValid tableEmpty.status = true ∧
      ∀ v : Symbol, tableEmpty.freq[v] = if v = eosSymbol then 1 else 0 := by decide +kernel
theorem witness_one_byte_value :
    Ready tableA ∧ freqValid tableA.status = true ∧
      ∀ v : Symbol, tableA.freq[v] ≠ 0 ↔ v = eosSymbol ∨ v = byteSymbol 0x41#8 := by decide +kernel
theorem witness_optimal :
    Ready tableAAAB ∧ TableOk tableAAAB ∧
      after (exec .build tableAAAB) (fun t => decide (currentTree t = some (.node (.leaf 65) (.node (.leaf 256) (.leaf 66))))) ∧
      (CodeTree.node (.leaf 66) (.node (.leaf 65) (.leaf 256))).symbols.Perm [65, 256, 66] :=
  ⟨by decide +kernel, tableAAAB_ok, by decide +kernel, by decide +kernel⟩
theorem treeAAAB_wf : TreeWF treeAAAB := by decide +kernel
theorem headerAAAB_wf : TreeWF headerAAAB := by decide +kernel
theorem witness_tree : ReadyToWrite treeAAAB ∧ treeValid treeAAAB.status = true ∧ TreeWF treeAAAB :=
  ⟨by decide +kernel, by decide +kernel, treeAAAB_wf⟩
theorem witness_prefix_free :
    after (exec .gencodes treeAAAB) (fun t => decide (t.code[(65 : Symbol)].len ≠ 0 ∧ t.code[eosSymbol].len ≠ 0)) := by
  decide +kernel
theorem witness_encode :
    ReadyToWrite codesAAAB ∧ codeValid codesAAAB.status = true ∧
      (∀ b ∈ sourceBytes codesAAAB, codesAAAB.code[byteSymbol b].len ≠ 0) ∧ codesAAAB.code[eosSymbol].len ≠ 0 := by
  decide +kernel
/-- "AC": the second byte has no code. -/
def codesShort : State := { codesAAAB with src := ⟨bitsOfBytes [0x41, 0x43], 0⟩ }
theorem witness_no_code :
    ReadyToWrite codesShort ∧ codeValid codesShort.status = true ∧ sourceBytes codesShort = [0x41#8] ++ 0x43#8 :: [] ∧
      (∀ x ∈ [0x41#8], codesShort.code[byteSymbol x].len ≠ 0) ∧ codesShort.code[byteSymbol 0x43#8].len = 0 := by
  decide +kernel
theorem witness_no_sentinel_code :
    ReadyToWrite { codesAAAB with code := codesAAAB.code.set 256 ⟨0, 0⟩ } ∧
      (∀ x ∈ sourceBytes codesAAAB, (codesAAAB.code.set 256 ⟨0, 0⟩)[byteSymbol x].len ≠ 0) ∧
      (codesAAAB.code.set 256 ⟨0, 0⟩)[eosSymbol].len = 0 := by decide +kernel
theorem witness_compress :
    ReadyToWrite (source aaab) ∧ (source aaab).src.pos = 0 ∧ (source aaab).snk.bits = [] ∧
      (sourceBytes (source aaab)).length ≤ hwParams.nMax := by decide +kernel
theorem witness_header :
    Ready (source fileAAAB) ∧ valueAAAB.wf = true ∧
      remaining (source fileAAAB) = bitsOf 32 hwParams.magic.toNat ++ serialize valueAAAB ++ bitsOfBytes [0x1C] := by
  decide +kernel
theorem witness_wrong_magic :
    Ready (source [0]) ∧ (remaining (source [0])).take 32 ≠ bitsOf 32 hwParams.magic.toNat := by decide +kernel
/-- A source that is the magic tag alone (V-R6): no tree can follow. -/
theorem witness_malformed :
    Ready (launch (bitsOf 32 hwParams.magic.toNat)) ∧
      (remaining (launch (bitsOf 32 hwParams.magic.toNat))).take 32 = bitsOf 32 hwParams.magic.toNat ∧
      ∀ (T : CodeTree) (rest : Bits), T.wf = true →
        remaining (launch (bitsOf 32 hwParams.magic.toNat)) ≠ bitsOf 32 hwParams.magic.toNat ++ serialize T ++ rest := by
  refine ⟨by decide +kernel, by decide +kernel, fun T rest _ h => ?_⟩
  have hl := congrArg List.length h
  rw [show remaining (launch (bitsOf 32 hwParams.magic.toNat)) = bitsOf 32 hwParams.magic.toNat from rfl] at hl
  cases T <;> simp [serialize] at hl
theorem witness_leaf_root :
    Ready (launch (bitsOf 32 hwParams.magic.toNat ++ true :: bitsOf 9 65)) ∧ (65 : SymField).toNat ≤ 256 ∧
      remaining (launch (bitsOf 32 hwParams.magic.toNat ++ true :: bitsOf 9 65)) =
        bitsOf 32 hwParams.magic.toNat ++ true :: bitsOf 9 (65 : SymField).toNat ++ [] := by decide +kernel
theorem witness_symbol_above_256 :
    Ready (launch (bitsOf 32 hwParams.magic.toNat ++ List.replicate 512 false ++ true :: bitsOf 9 257)) ∧
      256 < (257 : SymField).toNat ∧
      remaining (launch (bitsOf 32 hwParams.magic.toNat ++ List.replicate 512 false ++ true :: bitsOf 9 257)) =
        bitsOf 32 hwParams.magic.toNat ++ List.replicate 512 false ++ true :: bitsOf 9 (257 : SymField).toNat ++ [] := by
  decide +kernel
theorem witness_too_many_nodes :
    remaining (launch (bitsOf 32 hwParams.magic.toNat ++ List.replicate 513 false)) =
      bitsOf 32 hwParams.magic.toNat ++ List.replicate 513 false ++ [] := by decide +kernel
theorem witness_decode :
    ReadyToWrite headerAAAB ∧ treeValid headerAAAB.status = true ∧ TreeWF headerAAAB ∧
      currentTree headerAAAB = some valueAAAB ∧ DataLeaves valueAAAB leavesAAAB ∧
      ((256 : SymField), [true, false]) ∈ leafPaths valueAAAB ∧
      remaining headerAAAB = pathBits leavesAAAB ++ [true, false] ++ [false] :=
  ⟨by decide +kernel, by decide +kernel, headerAAAB_wf, by decide +kernel⟩
/-- V1's stream cut after the first bit of the sentinel's codeword. -/
def headerCut : State := withSource headerAAAB ⟨(bitsOfBytes fileAAAB).take 70, 64⟩
theorem witness_decode_cut :
    ReadyToWrite headerCut ∧ treeValid headerCut.status = true ∧ TreeWF headerCut ∧
      currentTree headerCut = some valueAAAB ∧ DataLeaves valueAAAB leavesAAAB ∧
      ((256 : SymField), [true, false]) ∈ leafPaths valueAAAB ∧
      [true] <+: [true, false] ∧ [true] ≠ [true, false] ∧ remaining headerCut = pathBits leavesAAAB ++ [true] :=
  ⟨by decide +kernel, by decide +kernel, headerAAAB_wf, by decide +kernel⟩
theorem witness_decompress :
    ReadyToWrite (source fileAAAB) ∧ valueAAAB.wf = true ∧
      remaining (source fileAAAB) = bitsOf 32 hwParams.magic.toNat ++ serialize valueAAAB ++ pathBits leavesAAAB ++
        [true, false] ++ [false] := by decide +kernel
/-- One cut in each clause of R107: at the clauses' edges. -/
theorem witness_truncation :
    [0, 31, 32, 63, 64, 70, 71, 72].all (fun c =>
      decide (remaining (launch ((bitsOfBytes fileAAAB).take c)) = (bitsOf 32 hwParams.magic.toNat ++ serialize valueAAAB ++
        pathBits leavesAAAB ++ [true, false] ++ [false]).take c)) ∧
      32 + (serialize valueAAAB).length = 64 ∧ 64 + (pathBits leavesAAAB).length + [true, false].length = 71 := by
  decide +kernel
theorem witness_round_trip : ([] : List Byte).length ≤ hwParams.nMax := by decide
theorem witness_every_build :
    hwParams.nMax ≤ 2 ^ 64 - 2 ∧ hwParams.dummySym.toNat ≤ 256 ∧ (∀ k, (hwParams.padding k).length = k) ∧
      [0x41#8].length ≤ hwParams.nMax := ⟨by decide, by decide, by simp [hwParams], by decide⟩
/-- The invariant with every flag set. -/
theorem witness_invariant : Inv codesAAAB ∧ codesAAAB.snk.closed = false := by
  have hc : CodesOf valueAAAB codesAAAB.code := by decide +kernel
  exact ⟨⟨by decide +kernel, fun _ => by decide +kernel, fun _ => treeAAAB_wf,
    fun _ => ⟨by decide +kernel, valueAAAB, by decide +kernel, hc⟩, by decide +kernel, by decide +kernel⟩, rfl⟩
theorem witness_step : after (step (withHost codesAAAB [.command 0x5#4])) (fun _ => true) := by decide +kernel
/-- A sink that has been closed. -/
def treeClosed : State := withSink treeAAAB ⟨[], true⟩
theorem witness_closed_wrhdr :
    Ready treeClosed ∧ treeClosed.snk.closed = true ∧ treeValid treeClosed.status = true ∧ TreeWF treeClosed :=
  ⟨by decide +kernel, rfl, by decide +kernel, treeAAAB_wf⟩
theorem witness_closed_encode :
    Ready (withSink codesAAAB ⟨[], true⟩) ∧ codeValid codesAAAB.status = true ∧
      (∀ b ∈ sourceBytes codesAAAB, codesAAAB.code[byteSymbol b].len ≠ 0) ∧ codesAAAB.code[eosSymbol].len ≠ 0 := by
  decide +kernel
theorem witness_refused :
    (match exec .encode { codesAAAB with snk := ⟨[], true⟩ } with
      | .refused _ => true
      | _ => false) = true := by decide +kernel
/-- `tableAAAB` with other contents in memories no flag of it covers. -/
def tableOther : State := withCode (withNode tableAAAB treeAAAB.node) codesAAAB.code
theorem tableAAAB_inv : Inv tableAAAB :=
  ⟨by decide +kernel, fun _ => tableAAAB_ok, fun h => absurd h (by decide +kernel), fun h => absurd h (by decide +kernel),
    by decide +kernel, by decide +kernel⟩
theorem witness_alike : Inv tableAAAB ∧ Inv tableOther ∧ Alike tableAAAB tableOther ∧ tableOther.node[3] ≠ tableAAAB.node[3] :=
  ⟨tableAAAB_inv,
   ⟨by decide +kernel, fun _ => tableAAAB_ok, fun h => absurd h (by decide +kernel), fun h => absurd h (by decide +kernel),
    by decide +kernel, by decide +kernel⟩,
   ⟨rfl, ⟨rfl, rfl⟩, rfl, rfl, rfl, rfl, ⟨rfl, rfl⟩, fun _ => rfl, fun h => absurd h (by decide +kernel),
    fun h => absurd h (by decide +kernel)⟩,
   by decide +kernel⟩

end Sys2Proof.Tests
end

section
/-! SUPPORT. The loops that read the source byte by byte: COUNT's (R70) and ENCODE's (R92), over all the whole bytes that
are left at once. -/

namespace Sys2Proof.Machine

/-- A symbol as a field of 9 bits keeps its number (R2). -/
@[simp] theorem symbolField_toNat (v : Symbol) : (BitVec.ofNat 9 v.val).toNat = v.val := Nat.mod_eq_of_lt (by omega)

/-- What is left of the source is its whole bytes and at most 7 bits more (R73). -/
theorem remaining_eq_bytes (s : State) :
    ∃ tail, remaining s = bytesToBits (remainingBytes s) ++ tail ∧ tail.length < 8 := by
  refine ⟨(remaining s).drop (8 * ((remaining s).length / 8)), ?_, by simp; omega⟩
  rw [remainingBytes, bytesToBits_bitsToBytes, List.take_append_drop]

theorem remaining_eq_bits {s : State} (h : s.src.pos = 0) : remaining s = s.src.bits := by simp [remaining, h]

theorem remainingBytes_eq_sourceBytes {s : State} (h : s.src.pos = 0) : remainingBytes s = sourceBytes s := by
  rw [remainingBytes, remaining_eq_bits h, sourceBytes]

/-- A byte that stands next is read, and what follows it is left. -/
theorem remaining_after_byte {s : State} {b : Byte} {l : List Byte} {tail : Bits}
    (h : remaining s = bytesToBits (b :: l) ++ tail) :
    remaining s = bitsOf 8 b.toNat ++ (bytesToBits l ++ tail) ∧
      remaining (withSrcPos s (s.src.pos + 8)) = bytesToBits l ++ tail := by
  rw [bytesToBits_cons, List.append_assoc] at h
  exact ⟨h, (srcRead_append h (by simp) (by decide)).2⟩

/-! ## COUNT (R70) -/

/-- The table after counting the bytes of `l` (R70). -/
def addBytes (l : List Byte) (f : Vector Count 257) : Vector Count 257 :=
  l.foldl (fun f b => f.set (byteSymbol b) (f[byteSymbol b] + 1)) f

@[simp] theorem addBytes_nil (f : Vector Count 257) : addBytes [] f = f := rfl
@[simp] theorem addBytes_cons (b : Byte) (l : List Byte) (f : Vector Count 257) :
    addBytes (b :: l) f = addBytes l (f.set (byteSymbol b) (f[byteSymbol b] + 1)) := rfl

/-- Each byte adds its number of occurrences. -/
theorem addBytes_byte (l : List Byte) (f : Vector Count 257) (b : Byte) :
    (addBytes l f)[byteSymbol b] = f[byteSymbol b] + BitVec.ofNat 64 (l.count b) := by
  induction l generalizing f with
  | nil => simp
  | cons c l ih =>
    rw [addBytes_cons, ih]
    by_cases hcb : c = b
    · subst hcb
      simp only [Fin.getElem_fin, Vector.getElem_set_self, List.count_cons_self]
      rw [BitVec.ofNat_add, BitVec.add_assoc, BitVec.add_comm 1]
      rfl
    · have hv : (byteSymbol c).val ≠ (byteSymbol b).val := fun h => hcb (byteSymbol_inj (Fin.ext h))
      simp [List.count_cons_of_ne hcb, Vector.getElem_set_ne _ _ hv]

/-- COUNT's loop counts the whole bytes that are left, if `N_MAX` allows them (R70, R73). -/
theorem countLoop_bytes {p : Config.Params} (hp : p.nMax < 2 ^ 64) {l : List Byte} {tail : Bits} {fuel : Nat} {s : State}
    (h : remaining s = bytesToBits l ++ tail) (ht : tail.length < 8) (hf : l.length < fuel)
    (hn : s.total.toNat + l.length ≤ p.nMax) :
    countLoop p fuel s = .done (withSrcPos (withTable s (addBytes l s.freq) (s.total + BitVec.ofNat 64 l.length))
      (s.src.pos + 8 * l.length)) := by
  induction l generalizing fuel s with
  | nil =>
    obtain ⟨fuel, rfl⟩ : ∃ g, fuel = g + 1 := ⟨fuel - 1, by simp at hf; omega⟩
    rw [countLoop_end (by simpa [h] using ht)]
    simp
  | cons b l ih =>
    obtain ⟨fuel, rfl⟩ : ∃ g, fuel = g + 1 := ⟨fuel - 1, by omega⟩
    obtain ⟨hb, hrest⟩ := remaining_after_byte h
    simp only [List.length_cons] at hf hn
    have htotal : (s.total + 1).toNat = s.total.toNat + 1 := by
      rw [BitVec.toNat_add]; exact Nat.mod_eq_of_lt (by simp; omega)
    have hn' : (countSymbol (byteSymbol b) (withSrcPos s (s.src.pos + 8))).total.toNat + l.length ≤ p.nMax := by
      rw [countSymbol, withTable_total, withSrcPos_total, htotal]; omega
    have hsum : s.total + 1 + BitVec.ofNat 64 l.length = s.total + BitVec.ofNat 64 (l.length + 1) := by
      rw [BitVec.ofNat_add, BitVec.add_assoc, BitVec.add_comm 1]; rfl
    have hpos : s.src.pos + 8 + 8 * l.length = s.src.pos + 8 * (l.length + 1) := by omega
    rw [countLoop_byte hb (by omega), ih (by rw [countSymbol, remaining_withTable, hrest]) (by omega) hn',
      List.length_cons, addBytes_cons, ← hsum, ← hpos]
    rfl

/-- The table of a byte sequence: each byte its number of occurrences, the sentinel 1 (R14, R70, R71). -/
def byteTable (l : List Byte) : Vector Count 257 := (addBytes l (Vector.replicate 257 0)).set eosSymbol 1

theorem byteTable_eos (l : List Byte) : (byteTable l)[eosSymbol] = 1 := Vector.getElem_set_self _

theorem byteTable_byte (l : List Byte) (b : Byte) : (byteTable l)[byteSymbol b] = BitVec.ofNat 64 (l.count b) := by
  have hv : eosSymbol.val ≠ (byteSymbol b).val := fun h => byteSymbol_ne_eos b (Fin.ext h.symm)
  calc (byteTable l)[byteSymbol b] = (addBytes l (Vector.replicate 257 0))[byteSymbol b] :=
        Vector.getElem_set_ne _ _ hv
    _ = BitVec.ofNat 64 (l.count b) := by rw [addBytes_byte]; simp

/-- A byte that occurs has a count above 0. -/
theorem byteTable_ne_zero {l : List Byte} {b : Byte} (hb : b ∈ l) (hl : l.length < 2 ^ 64) :
    (byteTable l)[byteSymbol b] ≠ 0 := by
  have hle := List.count_le_length (a := b) (l := l)
  have hpos := List.count_pos_iff.2 hb
  rw [byteTable_byte]
  intro h
  have := congrArg BitVec.toNat h
  rw [BitVec.toNat_ofNat, Nat.mod_eq_of_lt (by omega)] at this
  simp at this
  omega

/-- What COUNT's body leaves (R70, R71). -/
theorem countBody_bytes {p : Config.Params} (hp : p.nMax < 2 ^ 64) {s : State}
    (hn : (remainingBytes s).length ≤ p.nMax) :
    countBody p s = .done (withSrcPos (withTable s (byteTable (remainingBytes s))
      (BitVec.ofNat 64 (remainingBytes s).length)) (s.src.pos + 8 * (remainingBytes s).length)) := by
  obtain ⟨tail, h, ht⟩ := remaining_eq_bytes s
  have hlen : (remainingBytes s).length < s.src.bits.length + 1 := by
    have := congrArg List.length h
    rw [remaining_length, List.length_append, bytesToBits_length] at this
    omega
  have hz : (withTable s (Vector.replicate 257 0) 0).total.toNat + (remainingBytes s).length ≤ p.nMax := by
    simpa using hn
  rw [countBody, countLoop_bytes hp (by rw [remaining_withTable]; exact h) ht hlen hz, andThen_done]
  rw [withTable_total, zero_add]
  rfl

/-! ## ENCODE (R92) -/

@[simp] theorem appended_code (s : State) (l : Bits) : (appended s l).code = s.code := rfl
@[simp] theorem appended_src (s : State) (l : Bits) : (appended s l).src = s.src := rfl
@[simp] theorem appended_snk (s : State) (l : Bits) : (appended s l).snk = ⟨s.snk.bits ++ l, s.snk.closed⟩ := rfl
@[simp] theorem remaining_appended (s : State) (l : Bits) : remaining (appended s l) = remaining s := rfl
theorem withSrcPos_appended (s : State) (l : Bits) (k : Nat) :
    withSrcPos (appended s l) k = appended (withSrcPos s k) l := rfl

/-- Writing the codeword of a symbol that has one. -/
theorem writeCode_open {v : Symbol} {s : State} (hv : s.code[v].len ≠ 0) (ho : s.snk.closed = false) :
    writeCode v s = .done (appended s (codeword s.code[v])) := by
  rcases writeCode_cases v s with ⟨h, -⟩ | ⟨-, -, h⟩ | ⟨-, h, -⟩
  · exact absurd h hv
  · exact h
  · rw [ho] at h; cases h

/-- ENCODE's loop writes the codewords of the whole bytes that are left (R92). -/
theorem encodeLoop_bytes {l : List Byte} {tail : Bits} {fuel : Nat} {s : State}
    (h : remaining s = bytesToBits l ++ tail) (ht : tail.length < 8) (hf : l.length < fuel)
    (hc : ∀ b ∈ l, s.code[byteSymbol b].len ≠ 0) (ho : s.snk.closed = false) :
    encodeLoop fuel s = .done (appended (withSrcPos s (s.src.pos + 8 * l.length)) (encodeBytes s.code l)) := by
  induction l generalizing fuel s with
  | nil =>
    obtain ⟨fuel, rfl⟩ : ∃ g, fuel = g + 1 := ⟨fuel - 1, by simp at hf; omega⟩
    rw [encodeLoop_end (by simpa [h] using ht)]
    simp [encodeBytes]
  | cons b l ih =>
    obtain ⟨fuel, rfl⟩ : ∃ g, fuel = g + 1 := ⟨fuel - 1, by omega⟩
    obtain ⟨hb, hrest⟩ := remaining_after_byte h
    simp only [List.length_cons] at hf
    have hpos : s.src.pos + 8 + 8 * l.length = s.src.pos + 8 * (l.length + 1) := by omega
    rw [encodeLoop_byte hb, writeCode_open (by exact hc b (by simp)) (by exact ho), andThen_done,
      ih (by rw [remaining_appended, hrest]) (by omega) (by exact fun c hx => hc c (by simp [hx])) (by exact ho),
      withSrcPos_appended]
    simp [encodeBytes, hpos]

/-- What ENCODE's body leaves when every symbol it meets has a code (R92). -/
theorem encodeBody_bytes (p : Config.Params) {s : State} (ho : s.snk.closed = false)
    (hc : ∀ b ∈ sourceBytes s, s.code[byteSymbol b].len ≠ 0) (he : s.code[eosSymbol].len ≠ 0) :
    encodeBody p s = snkClose p (appended (withSrcPos s (8 * (sourceBytes s).length))
      (encodeBytes s.code (sourceBytes s) ++ codeword s.code[eosSymbol])) := by
  obtain ⟨tail, h, ht⟩ := remaining_eq_bytes (srcRewind s)
  have hbytes : remainingBytes (srcRewind s) = sourceBytes s := remainingBytes_eq_sourceBytes rfl
  rw [hbytes] at h
  have hlen : (sourceBytes s).length < s.src.bits.length + 1 := by rw [sourceBytes, bitsToBytes_length]; omega
  rw [encodeBody, encodeLoop_bytes h ht hlen hc ho, andThen_done, writeCode_open (by exact he) (by exact ho),
    andThen_done]
  simp [srcRewind]

end Sys2Proof.Machine
end

section
/-! SUPPORT. The tree in the node memory and on the channels: which entries a tree stands in (R15, R18 item 4), `Wr`
(R91) and `Rd` (R101). -/

namespace Sys2Proof.Machine

/-! ## A tree stands in the node memory -/

/-- The tree stands at an index, in the entries listed in pre-order: the value `T(i)` of R19 together with the indices
that R18 item 4 speaks of. -/
inductive Stored (m : Vector NodeEntry 513) : CodeTree → Nat → List Nat → Prop
  | leaf {i : Nat} {e : NodeEntry} (he : m[i]? = some e) (hl : e.leaf = true) : Stored m (.leaf e.sym) i [i]
  | node {i : Nat} {e : NodeEntry} {l r : CodeTree} {js ks : List Nat} (he : m[i]? = some e) (hn : e.leaf = false)
      (hl : Stored m l e.left.toNat js) (hr : Stored m r e.right.toNat ks) : Stored m (.node l r) i (i :: (js ++ ks))

section
variable {m m' : Vector NodeEntry 513} {T : CodeTree} {i : Nat} {js : List Nat}

theorem Stored.root_mem (h : Stored m T i js) : i ∈ js := by cases h <;> simp

theorem Stored.length_eq (h : Stored m T i js) : js.length = T.size := by
  induction h with
  | leaf => rfl
  | node _ _ _ _ ihl ihr => simp only [List.length_cons, List.length_append, CodeTree.size, ihl, ihr]; omega

/-- Only the listed entries matter. -/
theorem Stored.congr (h : Stored m T i js) (hm : ∀ j ∈ js, m'[j]? = m[j]?) : Stored m' T i js := by
  induction h with
  | leaf he hl => exact .leaf (by rw [hm _ (by simp), he]) hl
  | node he hn _ _ ihl ihr =>
    exact .node (by rw [hm _ (by simp), he]) hn (ihl fun j hj => hm j (by simp [hj]))
      (ihr fun j hj => hm j (by simp [hj]))

/-- A tree with an internal root has an internal entry there. -/
theorem Stored.inner_root (h : Stored m T i js) (hi : T.rootInternal = true) :
    ∃ e, m[i]? = some e ∧ e.leaf = false := by
  cases h with
  | leaf => simp [CodeTree.rootInternal] at hi
  | node he hn => exact ⟨_, he, hn⟩

/-- The walk of R19 reads the stored tree. -/
theorem Stored.treeAt_eq (h : Stored m T i js) : treeAt m (T.depth + 1) i = some T := by
  induction h with
  | leaf he hl => exact treeAt_leaf he hl
  | node he hn _ _ ihl ihr =>
    exact treeAt_node he hn (treeAt_mono ihl (by simp only [CodeTree.depth]; omega))
      (treeAt_mono ihr (by simp only [CodeTree.depth]; omega))

end

/-- A stored tree that fits the memory is the current tree when `ROOT` points at it. -/
theorem Stored.currentTree_eq {s : State} {T : CodeTree} {i : Nat} {js : List Nat} (h : Stored s.node T i js)
    (hf : T.size ≤ 513) (hr : s.root.toNat = i) : currentTree s = some T := by
  have hd := depth_lt T
  have hs := size_add_one T
  rw [currentTree, hr]
  exact treeAt_mono h.treeAt_eq (by omega)

/-! ## The checks of R102 -/

theorem wf_iff {T : CodeTree} :
    T.wf = true ↔ T.rootInternal = true ∧ (∀ v ∈ T.symbols, v.toNat ≤ 256) ∧ T.size ≤ 513 := by
  simp [CodeTree.wf, CodeTree.symbolsOk, CodeTree.fits, and_assoc]

/-- A root is internal when there are two leaves. -/
theorem rootInternal_of_two_leaves {T : CodeTree} (h : 2 ≤ T.symbols.length) : T.rootInternal = true := by
  cases T with
  | leaf v => simp [CodeTree.symbols] at h
  | node l r => rfl

/-- Under an internal root every path has a bit (R88). -/
theorem path_ne_nil {T : CodeTree} (h : T.rootInternal = true) {x : SymField × Bits} (hx : x ∈ leafPaths T) :
    x.2 ≠ [] := by
  cases T with
  | leaf v => simp [CodeTree.rootInternal] at h
  | node l r =>
    simp only [leafPaths, List.mem_append, List.mem_map] at hx
    rcases hx with ⟨y, -, rfl⟩ | ⟨y, -, rfl⟩ <;> exact List.cons_ne_nil _ _

/-! ## Wr (R91) -/

/-- A write to an open sink appends (R33). -/
theorem snkWrite_appends {s : State} (ho : s.snk.closed = false) (n v : Nat) :
    snkWrite n v s = .done (appended s (bitsOf n v)) := by rw [snkWrite_open ho, appended, ho]

/-- `Wr` appends the serialization. -/
theorem writeTree_open (T : CodeTree) {s : State} (ho : s.snk.closed = false) :
    writeTree T s = .done (appended s (serialize T)) := by
  induction T generalizing s with
  | leaf v =>
    rw [writeTree, snkWrite_appends ho, andThen_done, snkWrite_appends (by exact ho), appended_appended]
    rfl
  | node l r ihl ihr =>
    rw [writeTree, snkWrite_appends ho, andThen_done, ihl (by exact ho), andThen_done, ihr (by exact ho),
      appended_appended, appended_appended]
    rfl

/-! ## Rd (R101) -/

/-- The node memory with a tree stored from entry `n` on, in pre-order, weights 0 (R101). -/
def storeTree : CodeTree → Nat → Vector NodeEntry 513 → Vector NodeEntry 513
  | .leaf v, n, m => m.setIfInBounds n (leafEntry v 0)
  | .node l r, n, m =>
    (storeTree r (n + 1 + l.size) (storeTree l (n + 1) m)).setIfInBounds n
      (innerEntry 0 (BitVec.ofNat 10 (n + 1)) (BitVec.ofNat 10 (n + 1 + l.size)))

/-- Entries before and after the tree stay as they were. -/
theorem storeTree_other (T : CodeTree) (n : Nat) (m : Vector NodeEntry 513) (j : Nat) (hj : j < n ∨ n + T.size ≤ j) :
    (storeTree T n m)[j]? = m[j]? := by
  induction T generalizing n m with
  | leaf v =>
    simp only [CodeTree.size] at hj
    exact Vector.getElem?_setIfInBounds_ne (by omega)
  | node l r ihl ihr =>
    simp only [CodeTree.size] at hj
    rw [storeTree, Vector.getElem?_setIfInBounds_ne (by omega), ihr _ _ (by omega), ihl _ _ (by omega)]

/-- The stored tree stands in consecutive entries. -/
theorem stored_storeTree (T : CodeTree) (n : Nat) (m : Vector NodeEntry 513) (hn : n + T.size ≤ 513) :
    Stored (storeTree T n m) T n (List.range' n T.size) := by
  induction T generalizing n m with
  | leaf v => exact .leaf (e := leafEntry v 0) (Vector.getElem?_setIfInBounds_self_of_lt hn) rfl
  | node l r ihl ihr =>
    simp only [CodeTree.size] at hn
    have hl : (BitVec.ofNat 10 (n + 1)).toNat = n + 1 := Nat.mod_eq_of_lt (by omega)
    have hr : (BitVec.ofNat 10 (n + 1 + l.size)).toNat = n + 1 + l.size := Nat.mod_eq_of_lt (by omega)
    have hidx : List.range' n (CodeTree.node l r).size =
        n :: (List.range' (n + 1) l.size ++ List.range' (n + 1 + l.size) r.size) := by
      rw [List.range'_append_1, CodeTree.size, show 1 + l.size + r.size = l.size + r.size + 1 by omega, List.range'_succ]
    rw [hidx]
    refine .node (e := innerEntry 0 (BitVec.ofNat 10 (n + 1)) (BitVec.ofNat 10 (n + 1 + l.size)))
      (Vector.getElem?_setIfInBounds_self_of_lt (by omega)) rfl ?_ ?_
    · rw [show (innerEntry 0 (BitVec.ofNat 10 (n + 1)) (BitVec.ofNat 10 (n + 1 + l.size))).left.toNat = n + 1 from hl]
      refine (ihl (n + 1) m (by omega)).congr fun j hj => ?_
      rw [List.mem_range'_1] at hj
      rw [storeTree, Vector.getElem?_setIfInBounds_ne (by omega), storeTree_other _ _ _ _ (by omega)]
    · rw [show (innerEntry 0 (BitVec.ofNat 10 (n + 1)) (BitVec.ofNat 10 (n + 1 + l.size))).right.toNat = _ from hr]
      refine (ihr (n + 1 + l.size) (storeTree l (n + 1) m) (by omega)).congr fun j hj => ?_
      rw [List.mem_range'_1] at hj
      rw [storeTree, Vector.getElem?_setIfInBounds_ne (by omega)]

/-- Past bits that stand next, what follows them is left. -/
theorem remaining_skip {s : State} {g rest : Bits} (h : remaining s = g ++ rest) :
    remaining (withSrcPos s (s.src.pos + g.length)) = rest := by
  rw [remaining_withSrcPos, ← List.drop_drop, ← remaining, h, List.drop_left]

/-- `Rd` over a serialized tree that fits stores it from the first free entry on and consumes exactly its bits. -/
theorem rd_serialize {T : CodeTree} (hv : ∀ v ∈ T.symbols, v.toNat ≤ 256) {fuel n : Nat} {s : State} {rest : Bits}
    (h : remaining s = serialize T ++ rest) (hn : n + T.size ≤ 513) (hf : 513 < n + fuel) :
    rd fuel n s = .ok n (n + T.size)
      (withSrcPos (withNode s (storeTree T n s.node)) (s.src.pos + (serialize T).length)) := by
  induction T generalizing fuel n s rest with
  | leaf v =>
    obtain ⟨fuel, rfl⟩ : ∃ g, fuel = g + 1 := ⟨fuel - 1, by simp only [CodeTree.size] at hn; omega⟩
    obtain ⟨h1, hrest⟩ := srcRead_append (n := 1) (g := [true]) (rest := bitsOf 9 v.toNat ++ rest) h rfl (by decide)
    obtain ⟨h9, -⟩ := srcRead_append hrest (bitsOf_length 9 v.toNat) (by decide)
    have hsym : BitVec.ofNat 9 (bitsVal (bitsOf 9 v.toNat)) = v := by simp [ofNat_bitsVal_bitsOf]
    rw [hsym] at h9
    simp only [rd, if_pos (show n < 513 from hn), h1, if_pos (show BitVec.ofNat 1 (bitsVal [true]) = 1 from rfl), h9,
      if_pos (hv v (by simp [CodeTree.symbols]))]
    simp [serialize, storeTree, CodeTree.size, nodeWrite, withNode, withSrcPos, Nat.add_assoc]
  | node l r ihl ihr =>
    simp only [CodeTree.symbols, List.mem_append] at hv
    simp only [CodeTree.size] at hn
    obtain ⟨fuel, rfl⟩ : ∃ g, fuel = g + 1 := ⟨fuel - 1, by omega⟩
    obtain ⟨h1, hrest⟩ := srcRead_append (n := 1) (g := [false]) (rest := serialize l ++ (serialize r ++ rest))
      (by simpa [serialize] using h) rfl (by decide)
    have hl : rd fuel (n + 1) (withSrcPos s (s.src.pos + 1)) = .ok (n + 1) (n + 1 + l.size)
        (withSrcPos (withNode s (storeTree l (n + 1) s.node)) (s.src.pos + 1 + (serialize l).length)) :=
      ihl (fun v hx => hv v (.inl hx)) hrest (by omega) (by omega)
    have hr := ihr (fun v hx => hv v (.inr hx)) (n := n + 1 + l.size) (fuel := fuel) (rest := rest)
      (s := withSrcPos (withNode s (storeTree l (n + 1) s.node)) (s.src.pos + 1 + (serialize l).length))
      (remaining_skip (s := withSrcPos s (s.src.pos + 1)) hrest) (by omega) (by omega)
    have hsize : n + (CodeTree.node l r).size = n + 1 + l.size + r.size := by simp only [CodeTree.size]; omega
    have hpos : s.src.pos + (serialize (.node l r)).length =
        s.src.pos + 1 + (serialize l).length + (serialize r).length := by simp [serialize]; omega
    simp only [rd, if_pos (show n < 513 by omega), h1, if_neg (show BitVec.ofNat 1 (bitsVal [false]) ≠ 1 by decide), hl,
      hr, hsize, hpos]
    rfl

end Sys2Proof.Machine
end

section
/-! SUPPORT. `Walk` (R85): the code memory it leaves holds the path of each symbol's last leaf (R87). -/

namespace Sys2Proof.Machine

/-- The entry of a path (R17, R85). -/
def pathEntry (q : Bits) : CodeEntry := ⟨BitVec.ofNat 9 q.length, BitVec.ofNat 256 (bitsVal q)⟩

theorem pathEntry_len {q : Bits} (h : q.length ≤ 256) : (pathEntry q).len.toNat = q.length :=
  Nat.mod_eq_of_lt (by omega)

theorem pathEntry_bits {q : Bits} (h : q.length ≤ 256) : (pathEntry q).bits.toNat = bitsVal q :=
  Nat.mod_eq_of_lt ((bitsVal_lt q).trans_le (Nat.pow_le_pow_right (by decide) h))

/-- A path of at most 256 bits is the codeword of its entry. -/
theorem codeword_pathEntry {q : Bits} (h : q.length ≤ 256) : codeword (pathEntry q) = q := by
  rw [codeword, pathEntry_len h, pathEntry_bits h, bitsOf_bitsVal]

/-- One more bit of a path doubles its value and adds the bit. -/
theorem bitsVal_append_bit (q : Bits) (b : Bool) : bitsVal (q ++ [b]) = 2 * bitsVal q + b.toNat := by
  induction q with
  | nil => simp [bitsVal_cons]
  | cons c q ih =>
    rw [List.cons_append, bitsVal_cons, bitsVal_cons, ih, List.length_append, List.length_singleton, pow_succ]
    ring

/-- The left edge of `Walk`. -/
theorem ofNat_bitsVal_left (q : Bits) :
    BitVec.ofNat 256 (bitsVal q) <<< 1 = BitVec.ofNat 256 (bitsVal (q ++ [false])) := by
  apply BitVec.eq_of_toNat_eq
  simp [bitsVal_append_bit, Nat.shiftLeft_eq, Nat.mul_comm]

/-- The right edge of `Walk`. -/
theorem ofNat_bitsVal_right (q : Bits) :
    BitVec.ofNat 256 (bitsVal q) <<< 1 ||| 1#256 = BitVec.ofNat 256 (bitsVal (q ++ [true])) := by
  rw [ofNat_bitsVal_left, bitsVal_append_bit, bitsVal_append_bit, Bool.toNat_true,
    show 2 * bitsVal q + 1 = 2 * bitsVal q ||| 1 from Nat.two_pow_add_eq_or_of_lt (i := 1) (by decide) _, BitVec.ofNat_or]
  rfl

/-- The last leaf of a symbol is looked for on the right first (R87). -/
theorem lastPath_node (l r : CodeTree) (v : Symbol) :
    lastPath (.node l r) v =
      ((lastPath r v).map (List.cons true)).or ((lastPath l v).map (List.cons false)) := by
  simp only [lastPath, leafPaths, List.filter_append, List.getLast?_append, List.filter_map, Function.comp_def,
    List.getLast?_map, Option.map_or, Option.map_map]

theorem lastPath_leaf (x : SymField) (v : Symbol) :
    lastPath (.leaf x) v = if x.toNat = v.val then some [] else none := by
  by_cases h : x.toNat = v.val <;> simp [lastPath, leafPaths, h]

/-- The last leaf is a leaf. -/
theorem mem_leafPaths_of_lastPath {T : CodeTree} {v : Symbol} {q : Bits} (h : lastPath T v = some q) :
    (BitVec.ofNat 9 v.val, q) ∈ leafPaths T := by
  obtain ⟨x, hx, rfl⟩ := Option.map_eq_some_iff.1 h
  obtain ⟨hmem, hv⟩ := List.mem_filter.1 (List.mem_of_getLast? hx)
  have hv' : x.1.toNat = v.val := by simpa using hv
  rwa [← hv', BitVec.ofNat_toNat, BitVec.setWidth_eq]

/-- A symbol of the tree has a last leaf. -/
theorem lastPath_isSome {T : CodeTree} {v : Symbol} (h : BitVec.ofNat 9 v.val ∈ T.symbols) :
    ∃ q, lastPath T v = some q := by
  rw [← leafPaths_symbols, List.mem_map] at h
  obtain ⟨x, hx, hv⟩ := h
  have hv' : x.1.toNat = v.val := by rw [hv, symbolField_toNat]
  have hne : (leafPaths T).filter (fun x => decide (x.1.toNat = v.val)) ≠ [] :=
    List.ne_nil_of_mem (List.mem_filter.2 ⟨hx, by simpa using hv'⟩)
  exact ⟨_, by rw [lastPath, List.getLast?_eq_some_getLast hne]; rfl⟩

/-- `Walk` below a path `pre` writes, for each symbol of the tree, `pre` and the path of its last leaf (R85, R87). -/
theorem walk_eq (T : CodeTree) (pre : Bits) (m : Vector CodeEntry 257) (v : Symbol) :
    (walk T pre.length (BitVec.ofNat 256 (bitsVal pre)) m)[v] =
      ((lastPath T v).map fun q => pathEntry (pre ++ q)).getD m[v] := by
  induction T generalizing pre m with
  | leaf x =>
    rw [lastPath_leaf, walk]
    by_cases h : x.toNat = v.val
    · simp [h, pathEntry]
    · simp [h]
  | node l r ihl ihr =>
    have hl := ihl (pre ++ [false]) m
    have hr := ihr (pre ++ [true]) (walk l (pre.length + 1) (BitVec.ofNat 256 (bitsVal pre) <<< 1) m)
    rw [List.length_append, List.length_singleton, ← ofNat_bitsVal_left] at hl
    rw [List.length_append, List.length_singleton, ← ofNat_bitsVal_right] at hr
    rw [walk, hr, hl, lastPath_node]
    cases lastPath r v <;> cases lastPath l v <;> simp

/-- The table GENCODES makes of a tree that fits is the one R17 promises. -/
theorem codesOf_walk {T : CodeTree} (hf : T.size ≤ 513) : CodesOf T (walk T 0 0 (Vector.replicate 257 ⟨0, 0⟩)) := by
  intro v
  have hw := walk_eq T [] (Vector.replicate 257 ⟨0, 0⟩) v
  rw [show (walk T ([] : Bits).length (BitVec.ofNat 256 (bitsVal [])) (Vector.replicate 257 ⟨0, 0⟩)) =
    walk T 0 0 (Vector.replicate 257 ⟨0, 0⟩) from rfl] at hw
  rw [hw]
  cases hq : lastPath T v with
  | none => simp [codeword]
  | some q =>
    have hd := leafPaths_length_le T _ (mem_leafPaths_of_lastPath hq)
    have hlt := depth_lt T
    have hs := size_add_one T
    have hlen : q.length ≤ 256 := by simp only at hd; omega
    simp only [Option.map_some, Option.getD_some, List.nil_append, pathEntry_len hlen, codeword_pathEntry hlen,
      pathEntry_bits hlen, bitsVal_lt, and_self]

/-- The codeword of a symbol of the tree is the path of a leaf of that symbol. -/
theorem CodesOf.mem_leafPaths {T : CodeTree} {m : Vector CodeEntry 257} (h : CodesOf T m) {v : Symbol}
    (hv : BitVec.ofNat 9 v.val ∈ T.symbols) : (BitVec.ofNat 9 v.val, codeword m[v]) ∈ leafPaths T := by
  obtain ⟨q, hq⟩ := lastPath_isSome hv
  obtain ⟨-, hw, -⟩ := h v
  rw [hw, hq]
  exact mem_leafPaths_of_lastPath hq

/-- Under an internal root a symbol of the tree has a code (R88). -/
theorem CodesOf.len_ne_zero {T : CodeTree} {m : Vector CodeEntry 257} (h : CodesOf T m) (hT : T.rootInternal = true)
    {v : Symbol} (hv : BitVec.ofNat 9 v.val ∈ T.symbols) : m[v].len ≠ 0 := by
  intro h0
  refine path_ne_nil hT (h.mem_leafPaths hv) ?_
  rw [codeword, h0]
  rfl

end Sys2Proof.Machine
end

section
/-! SUPPORT. DECODE's loop over whole codewords (R104, R105). -/

namespace Sys2Proof.Machine

/-- The subtree on one side. -/
def childTree (l r : CodeTree) (b : Bool) : CodeTree := if b then r else l

/-- A path of an internal node is an edge and a path of the child it leads to (R58). -/
theorem mem_leafPaths_node {l r : CodeTree} {x : SymField × Bits} (hx : x ∈ leafPaths (.node l r)) :
    ∃ b q, x.2 = b :: q ∧ (x.1, q) ∈ leafPaths (childTree l r b) := by
  simp only [leafPaths, List.mem_append, List.mem_map] at hx
  rcases hx with ⟨y, hy, rfl⟩ | ⟨y, hy, rfl⟩
  · exact ⟨false, y.2, rfl, hy⟩
  · exact ⟨true, y.2, rfl, hy⟩

/-- An internal node of the memory leads to the two subtrees of its value (R19). -/
theorem treeAt_child {m : Vector NodeEntry 513} {g i : Nat} {l r : CodeTree} (h : treeAt m g i = some (.node l r)) :
    ∃ f e, m[i]? = some e ∧
      ∀ b : Bool, treeAt m f (if b then e.right else e.left).toNat = some (childTree l r b) := by
  obtain ⟨f, e, -, he, ⟨-, hT⟩ | ⟨-, l', r', hT, hl, hr⟩⟩ := treeAt_eq_some h
  · cases hT
  · cases hT
    refine ⟨f, e, he, fun b => ?_⟩
    cases b
    · exact hl
    · exact hr

/-- From an internal node of the current tree, the bits of a path below it bring `CUR` to that path's leaf, and the loop
does what R104 says of a leaf. -/
theorem decodeLoop_path {T : CodeTree} {v : SymField} {q : Bits} {fuel g : Nat} {s : State} {rest : Bits}
    (hT : treeAt s.node g s.cur.toNat = some T) (hi : T.rootInternal = true) (hx : (v, q) ∈ leafPaths T)
    (h : remaining s = q ++ rest) :
    ∃ c, (nodeRead s c).map (fun e => (e.leaf, e.sym)) = some (true, v) ∧
      decodeLoop (fuel + q.length) s =
        if v = 256 then .done (withCur (withSrcPos s (s.src.pos + q.length)) c)
        else (snkWrite 8 v.toNat (withCur (withSrcPos s (s.src.pos + q.length)) c)).andThen
          fun t => decodeLoop fuel (withCur t t.root) := by
  induction q generalizing T s g with
  | nil => exact absurd rfl (path_ne_nil hi hx)
  | cons b q ih =>
    cases T with
    | leaf w => simp [CodeTree.rootInternal] at hi
    | node l r =>
      obtain ⟨b', q', hq, hx'⟩ := mem_leafPaths_node hx
      obtain ⟨rfl, rfl⟩ : b = b' ∧ q = q' := by simpa using hq
      obtain ⟨f, e, he, hchild⟩ := treeAt_child hT
      specialize hchild b
      obtain ⟨f', c, -, hc, hcase⟩ := treeAt_eq_some hchild
      rw [List.length_cons, ← Nat.add_assoc]
      rcases hcase with ⟨hl, hleaf⟩ | ⟨hn, l', r', hnode, -, -⟩
      · obtain ⟨rfl, rfl⟩ : v = c.sym ∧ q = [] := by simpa [hleaf, leafPaths] using hx'
        refine ⟨if b then e.right else e.left, by rw [nodeRead, hc]; simp [hl], ?_⟩
        split
        · rename_i hv
          exact decodeLoop_sentinel h he hc hl hv
        · rename_i hv
          exact decodeLoop_byte h he hc hl hv
      · have hskip := remaining_skip (g := [b]) h
        obtain ⟨c', hc', hloop⟩ := ih (s := withCur (withSrcPos s (s.src.pos + 1)) (if b then e.right else e.left))
          hchild (by rw [hnode]; rfl) hx' hskip
        refine ⟨c', hc', ?_⟩
        have hpos : s.src.pos + (q.length + 1) = s.src.pos + 1 + q.length := by omega
        rw [decodeLoop_inner h he hc hn, hloop, hpos]
        rfl

/-- The loop from the root over whole codewords: the bytes of the data leaves before the sentinel's are appended, and the
loop ends on the sentinel's leaf with the cursor just after its codeword (R104). -/
theorem decodeLoop_leaves {T : CodeTree} {data : List (SymField × Bits)} {e rest : Bits} {fuel : Nat} {s : State}
    (hT : treeAt s.node 513 s.root.toNat = some T) (hi : T.rootInternal = true) (hd : DataLeaves T data)
    (he : (256, e) ∈ leafPaths T) (ho : s.snk.closed = false) (h : remaining s = pathBits data ++ (e ++ rest))
    (hf : (pathBits data).length + e.length ≤ fuel) :
    ∃ c, (nodeRead s c).map (fun e => (e.leaf, e.sym)) = some (true, 256) ∧
      decodeLoop fuel (withCur s s.root) = .done (withCur (appended
        (withSrcPos s (s.src.pos + (pathBits data).length + e.length)) (leafBytes data)) c) := by
  induction data generalizing s fuel with
  | nil =>
    obtain ⟨fuel, rfl⟩ : ∃ k, fuel = k + e.length := ⟨fuel - e.length, by simp [pathBits] at hf; omega⟩
    obtain ⟨c, hc, hloop⟩ := decodeLoop_path (s := withCur s s.root) (fuel := fuel) hT hi he h
    exact ⟨c, hc, by rw [hloop, if_pos rfl]; simp [leafBytes, pathBits]; rfl⟩
  | cons x data ih =>
    obtain ⟨v, q⟩ := x
    obtain ⟨hx, hv⟩ := hd (v, q) (by simp)
    have hbits : pathBits ((v, q) :: data) = q ++ pathBits data := rfl
    rw [hbits, List.append_assoc] at h
    rw [hbits, List.length_append] at hf
    obtain ⟨fuel, rfl⟩ : ∃ k, fuel = k + q.length := ⟨fuel - q.length, by omega⟩
    obtain ⟨c, -, hloop⟩ := decodeLoop_path (s := withCur s s.root) (fuel := fuel) hT hi hx h
    rw [hloop, if_neg hv, snkWrite_appends (by exact ho), andThen_done]
    obtain ⟨c', hc', hloop'⟩ := ih (s := appended (withSrcPos s (s.src.pos + q.length)) (bitsOf 8 v.toNat)) hT
      (fun y hy => hd y (by simp [hy])) ho (remaining_skip h) (fuel := fuel) (by omega)
    refine ⟨c', hc', hloop'.trans ?_⟩
    rw [hbits, List.length_append, withSrcPos_appended, appended_appended, appended_src, ← Nat.add_assoc s.src.pos]
    rfl

end Sys2Proof.Machine
end

section
/-! SUPPORT. BUILD (R75): its heap holds a forest, a merge joins two trees of it, and what is left is one tree with the
leaves it began with. -/

namespace Sys2Proof.Machine

/-! ## The priority set as a set of indices (R16, R76) -/

/-- An element of the priority set is an index whose membership bit is set, with its weight. -/
theorem mem_prioritySet {h : Heap} {w : Count} {i : Nat} :
    (w, i) ∈ prioritySet h ↔ h.inq[i]? = some true ∧ ∃ e, h.node[i]? = some e ∧ w = e.weight := by
  simp only [prioritySet, List.mem_filterMap, Prod.exists, List.mk_mem_zipIdx_iff_getElem?, List.getElem?_zip_eq_some]
  constructor
  · rintro ⟨e, b, j, ⟨he, hb⟩, hx⟩
    split at hx
    · rename_i hbt
      obtain ⟨rfl, rfl⟩ : e.weight = w ∧ j = i := by simpa using hx
      exact ⟨by simpa [show b = true from hbt] using hb, e, by simpa using he, rfl⟩
    · cases hx
  · rintro ⟨hb, e, he, rfl⟩
    exact ⟨e, true, i, ⟨by simpa using he, by simpa using hb⟩, rfl⟩

/-- The indices in the priority set, ascending. -/
def queue (h : Heap) : List Nat := (prioritySet h).map Prod.snd

theorem queue_length (h : Heap) : (queue h).length = (prioritySet h).length := List.length_map _

theorem mem_queue {h : Heap} {i : Nat} : i ∈ queue h ↔ h.inq[i]? = some true := by
  rw [queue, List.mem_map]
  constructor
  · rintro ⟨⟨w, j⟩, hx, rfl⟩
    exact (mem_prioritySet.1 hx).1
  · intro hi
    have hlt : i < 513 := (Vector.getElem?_eq_some_iff.1 hi).1
    exact ⟨(h.node[i].weight, i), mem_prioritySet.2 ⟨hi, h.node[i], Vector.getElem?_eq_getElem hlt, rfl⟩, rfl⟩

/-- The indices ascend, so none stands in the set twice. -/
theorem queue_pairwise_lt (h : Heap) : (queue h).Pairwise (· < ·) := by
  have hidx : ((h.node.toList.zip h.inq.toList).zipIdx).Pairwise (fun x y => x.2 < y.2) := by
    rw [← List.pairwise_map (f := Prod.snd), List.zipIdx_map_snd]
    exact List.pairwise_lt_range'
  rw [queue, List.pairwise_map, prioritySet, List.pairwise_filterMap]
  refine hidx.imp fun {x y} hxy a ha b hb => ?_
  split at ha <;> simp at ha
  split at hb <;> simp at hb
  rw [← ha, ← hb]
  exact hxy

theorem queue_nodup (h : Heap) : (queue h).Nodup := (queue_pairwise_lt h).imp Nat.ne_of_lt

/-- Setting a membership bit that is clear puts one index in. -/
theorem queue_set_true {h h' : Heap} {i : Nat} (hi : i < 513) (hn : i ∉ queue h)
    (hq : h'.inq = h.inq.setIfInBounds i true) : (queue h').Perm (i :: queue h) := by
  refine (List.perm_ext_iff_of_nodup (queue_nodup h') (List.nodup_cons.2 ⟨hn, queue_nodup h⟩)).2 fun j => ?_
  rw [List.mem_cons, mem_queue, mem_queue, hq, Vector.getElem?_setIfInBounds]
  by_cases hij : i = j
  · simp [← hij, hi]
  · simp [hij, Ne.symm hij]

/-- Clearing a membership bit that is set takes one index out. -/
theorem queue_set_false {h h' : Heap} {i : Nat} (hi : i ∈ queue h) (hq : h'.inq = h.inq.setIfInBounds i false) :
    (queue h).Perm (i :: queue h') := by
  have hlt : i < 513 := (Vector.getElem?_eq_some_iff.1 (mem_queue.1 hi)).1
  refine queue_set_true hlt (by simp [mem_queue, hq, hlt]) ?_
  ext j hj
  rw [hq]
  by_cases hij : i = j
  · subst hij
    simpa [hlt] using mem_queue.1 hi
  · simp [hij]

/-- RemoveMin takes one index out, and does so whenever there is one (R76). -/
theorem removeMin_queue (p : Config.Params) {h : Heap} (hne : 0 < (queue h).length) :
    ∃ w m h', removeMin p h = some (w, m, h') ∧ (queue h).Perm (m :: queue h') ∧ h'.node = h.node ∧
      h'.n = h.n := by
  rcases removeMin_cases p h with ⟨he, -⟩ | ⟨w, m, hm, hr⟩
  · rw [queue_length, he] at hne
    exact absurd hne (Nat.lt_irrefl 0)
  · exact ⟨w, m, _, hr, queue_set_false (List.mem_map_of_mem hm) rfl, rfl, rfl⟩

/-- With two indices in the set, RemoveMin takes out one and then another. -/
theorem removeMin_twice (p : Config.Params) {h : Heap} (htwo : 2 ≤ (queue h).length) :
    ∃ wa a h1 wb b h2, removeMin p h = some (wa, a, h1) ∧ removeMin p h1 = some (wb, b, h2) ∧
      (queue h).Perm (a :: b :: queue h2) ∧ h2.node = h.node ∧ h2.n = h.n := by
  obtain ⟨wa, a, h1, hra, hqa, hna, hca⟩ := removeMin_queue p (h := h) (by omega)
  have hlen := hqa.length_eq
  rw [List.length_cons] at hlen
  obtain ⟨wb, b, h2, hrb, hqb, hnb, hcb⟩ := removeMin_queue p (h := h1) (by omega)
  exact ⟨wa, a, h1, wb, b, h2, hra, hrb, hqa.trans (hqb.cons _), hnb.trans hna, hcb.trans hca⟩

/-! ## The forest -/

/-- A tree of the heap: its value, the index of its root, and the entries it stands in. -/
structure Subtree where
  tree  : CodeTree
  root  : Nat
  nodes : List Nat

/-- The leaf symbols of a forest. -/
def forestSymbols (F : List Subtree) : List SymField := F.flatMap fun x => x.tree.symbols

theorem forestSymbols_cons (x : Subtree) (F : List Subtree) :
    forestSymbols (x :: F) = x.tree.symbols ++ forestSymbols F := rfl

theorem forestSymbols_perm {F G : List Subtree} (h : F.Perm G) : (forestSymbols F).Perm (forestSymbols G) :=
  h.flatMap_right _

/-- A tree has a leaf. -/
theorem length_le_forestSymbols (F : List Subtree) : F.length ≤ (forestSymbols F).length := by
  induction F with
  | nil => exact Nat.zero_le _
  | cons x F ih =>
    have := List.length_pos_iff.2 (symbols_ne_nil x.tree)
    rw [forestSymbols_cons, List.length_append, List.length_cons]
    omega

/-- Joining two trees keeps their leaves. -/
theorem forestSymbols_join (x y : Subtree) (i : Nat) (js : List Nat) (G : List Subtree) :
    forestSymbols (⟨.node x.tree y.tree, i, js⟩ :: G) = forestSymbols (x :: y :: G) := List.append_assoc _ _ _

/-- The heap holds a forest: each tree stands in the memory, their roots are the priority set, each allocated entry
belongs to exactly one tree (R15), and the tree listed first has the entry allocated last for its root. -/
structure Heap.Holds (h : Heap) (F : List Subtree) : Prop where
  stored : ∀ x ∈ F, Stored h.node x.tree x.root x.nodes
  roots  : (queue h).Perm (F.map Subtree.root)
  nodes  : (List.range h.n).Perm (F.flatMap Subtree.nodes)
  newest : ∀ x ∈ F.head?, x.root + 1 = h.n

section
variable {h : Heap} {F : List Subtree}

/-- Every entry of a tree is allocated. -/
theorem Heap.Holds.lt_n (H : h.Holds F) {x : Subtree} (hx : x ∈ F) {j : Nat} (hj : j ∈ x.nodes) : j < h.n := by
  rw [← List.mem_range, H.nodes.mem_iff]
  exact List.mem_flatMap.2 ⟨x, hx, hj⟩

/-- The next entry is not in the priority set. -/
theorem Heap.Holds.n_notMem_queue (H : h.Holds F) : h.n ∉ queue h := by
  rw [H.roots.mem_iff, List.mem_map]
  rintro ⟨x, hx, hn⟩
  have := H.lt_n hx (H.stored x hx).root_mem
  omega

/-- A forest of `L` leaves has `2L` entries less one for each tree. -/
theorem Heap.Holds.n_add_length (H : h.Holds F) : h.n + F.length = 2 * (forestSymbols F).length := by
  have hn := H.nodes.length_eq
  have hsum : ∀ G : List Subtree, (∀ x ∈ G, x ∈ F) →
      (G.flatMap Subtree.nodes).length + G.length = 2 * (forestSymbols G).length := by
    intro G hG
    induction G with
    | nil => rfl
    | cons x G ih =>
      have hx := (H.stored x (hG x (by simp))).length_eq
      have hs := size_add_one x.tree
      have := ih fun y hy => hG y (by simp [hy])
      simp only [forestSymbols, List.flatMap_cons, List.length_append, List.length_cons] at this ⊢
      omega
  have := hsum F fun x hx => hx
  rw [List.length_range] at hn
  omega

theorem Heap.Holds.length_queue (H : h.Holds F) : (queue h).length = F.length := by simpa using H.roots.length_eq

/-- The heap with nothing allocated holds the empty forest. -/
theorem holds_nil (m : Vector NodeEntry 513) : (Heap.mk m (Vector.replicate 513 false) 0).Holds [] where
  stored := by simp
  roots := by
    rw [List.map_nil, List.perm_nil, List.eq_nil_iff_forall_not_mem]
    intro i hi
    have := mem_queue.1 hi
    rw [Vector.getElem?_replicate] at this
    split at this <;> simp at this
  nodes := .nil
  newest := by simp

/-- Allocating a leaf adds a tree of one leaf (R75). -/
theorem Heap.Holds.addLeaf (H : h.Holds F) (hn : h.n < 513) (v : SymField) (w : Count) :
    (heapAdd h (leafEntry v w)).Holds (⟨.leaf v, h.n, [h.n]⟩ :: F) where
  stored := by
    intro x hx
    rcases List.mem_cons.1 hx with rfl | hx
    · exact .leaf (e := leafEntry v w) (Vector.getElem?_setIfInBounds_self_of_lt hn) rfl
    · refine (H.stored x hx).congr fun j hj => Vector.getElem?_setIfInBounds_ne ?_
      exact (H.lt_n hx hj).ne'
  roots := (queue_set_true hn H.n_notMem_queue rfl).trans (H.roots.cons _)
  nodes := by
    rw [heapAdd_n, List.range_succ, List.flatMap_cons]
    exact List.perm_append_comm.trans (H.nodes.cons _)
  newest := by simp

/-- Taking two trees out and allocating an internal node over them joins them (R75, R77). -/
theorem Heap.Holds.join (H : h.Holds F) {h2 : Heap} {x y : Subtree} {G : List Subtree} (hF : F.Perm (x :: y :: G))
    (hq : (queue h).Perm (x.root :: y.root :: queue h2)) (hnode : h2.node = h.node) (hn2 : h2.n = h.n) (hn : h.n < 513)
    {e : NodeEntry} (he : e.leaf = false) (hl : e.left.toNat = x.root) (hr : e.right.toNat = y.root) :
    (heapAdd h2 e).Holds (⟨.node x.tree y.tree, h.n, h.n :: (x.nodes ++ y.nodes)⟩ :: G) where
  stored := by
    have hold : ∀ z ∈ F, Stored (heapAdd h2 e).node z.tree z.root z.nodes := fun z hz =>
      (H.stored z hz).congr fun j hj => by
        rw [heapAdd_node, hnode, hn2]
        exact Vector.getElem?_setIfInBounds_ne (H.lt_n hz hj).ne'
    intro z hz
    rcases List.mem_cons.1 hz with rfl | hz
    · refine .node (e := e) ?_ he (hl ▸ hold x (hF.mem_iff.2 (by simp))) (hr ▸ hold y (hF.mem_iff.2 (by simp)))
      rw [heapAdd_node, hn2]
      exact Vector.getElem?_setIfInBounds_self_of_lt hn
    · exact hold z (hF.mem_iff.2 (by simp [hz]))
  roots := by
    have hq2 : (queue h2).Perm (G.map Subtree.root) := by
      have := hq.symm.trans (H.roots.trans (hF.map Subtree.root))
      simpa using this
    have hnew : h2.n ∉ queue h2 := fun hm =>
      H.n_notMem_queue (by rw [hq.mem_iff, ← hn2]; simp [hm])
    rw [List.map_cons, ← hn2]
    exact (queue_set_true (by omega) hnew rfl).trans (hq2.cons _)
  nodes := by
    have := H.nodes.trans (hF.flatMap_right Subtree.nodes)
    rw [heapAdd_n, hn2, List.range_succ, List.flatMap_cons]
    simp only [List.flatMap_cons, ← List.append_assoc, List.cons_append] at this ⊢
    exact List.perm_append_comm.trans (this.cons _)
  newest := by simp [hn2]

/-- An index in the priority set is the root of a tree, which can be listed first. -/
theorem exists_perm_cons_of_perm_map {a : Nat} {l : List Nat} {F : List Subtree}
    (h : (a :: l).Perm (F.map Subtree.root)) :
    ∃ x G, F.Perm (x :: G) ∧ x.root = a ∧ l.Perm (G.map Subtree.root) := by
  obtain ⟨x, hx, rfl⟩ := List.mem_map.1 (h.mem_iff.1 List.mem_cons_self)
  obtain ⟨F₁, F₂, rfl⟩ := List.append_of_mem hx
  refine ⟨x, F₁ ++ F₂, List.perm_middle, rfl, (h.trans (List.perm_middle.map _)).cons_inv⟩

/-- The entry of a merge is internal, and its children are the two nodes removed, on one side or the other (R77). -/
theorem mergeEntry_children (p : Config.Params) (wa wb : Count) {a b : Nat} (ha : a < 513) (hb : b < 513) :
    (mergeEntry p wa a wb b).leaf = false ∧
      (((mergeEntry p wa a wb b).left.toNat = b ∧ (mergeEntry p wa a wb b).right.toNat = a) ∨
        ((mergeEntry p wa a wb b).left.toNat = a ∧ (mergeEntry p wa a wb b).right.toNat = b)) := by
  have hta : (BitVec.ofNat 10 a).toNat = a := Nat.mod_eq_of_lt (by omega)
  have htb : (BitVec.ofNat 10 b).toNat = b := Nat.mod_eq_of_lt (by omega)
  rw [mergeEntry]
  split
  · exact ⟨rfl, .inl ⟨htb, hta⟩⟩
  · exact ⟨rfl, .inr ⟨hta, htb⟩⟩

/-- One turn of the merge loop joins two trees and keeps the leaves (R75). -/
theorem Heap.Holds.merge (p : Config.Params) (H : h.Holds F) (htwo : 2 ≤ F.length) (hs : (forestSymbols F).length ≤ 257)
    (fuel : Nat) :
    ∃ h' F', mergeLoop p (fuel + 1) h = mergeLoop p fuel h' ∧ h'.Holds F' ∧ F'.length + 1 = F.length ∧
      (forestSymbols F').Perm (forestSymbols F) := by
  have hn := H.n_add_length
  have hlen := H.length_queue
  obtain ⟨wa, a, h1, wb, b, h2, hra, hrb, hq, hnode, hn2⟩ := removeMin_twice p (h := h) (by omega)
  obtain ⟨x, F₁, hx, rfl, hF₁⟩ := exists_perm_cons_of_perm_map (hq.symm.trans H.roots)
  obtain ⟨y, G, hy, rfl, -⟩ := exists_perm_cons_of_perm_map hF₁
  have hF : F.Perm (x :: y :: G) := hx.trans (hy.cons _)
  have hturn : mergeLoop p (fuel + 1) h = mergeLoop p fuel (heapAdd h2 (mergeEntry p wa x.root wb y.root)) := by
    rcases mergeLoop_cases p fuel h with ⟨hle, -⟩ | ⟨-, ht⟩
    · rw [← queue_length] at hle; omega
    · rw [ht, hra, Option.bind_some, hrb, Option.bind_some]
  have hroot : ∀ z ∈ F, z.root < 513 := fun z hz => (H.lt_n hz (H.stored z hz).root_mem).trans (by omega)
  obtain ⟨he, hside⟩ := mergeEntry_children p wa wb (hroot x (hF.mem_iff.2 (by simp)))
    (hroot y (hF.mem_iff.2 (by simp)))
  obtain ⟨l, r, hF', hq', hl, hr⟩ : ∃ l r : Subtree, F.Perm (l :: r :: G) ∧
      (queue h).Perm (l.root :: r.root :: queue h2) ∧ (mergeEntry p wa x.root wb y.root).left.toNat = l.root ∧
      (mergeEntry p wa x.root wb y.root).right.toNat = r.root := by
    rcases hside with ⟨hl, hr⟩ | ⟨hl, hr⟩
    · exact ⟨y, x, hF.trans (.swap _ _ _), hq.trans (.swap _ _ _), hl, hr⟩
    · exact ⟨x, y, hF, hq, hl, hr⟩
  refine ⟨_, _, hturn, H.join hF' hq' hnode hn2 (by omega) he hl hr, by rw [hF.length_eq]; rfl, ?_⟩
  rw [forestSymbols_join]
  exact (forestSymbols_perm hF').symm

/-- The merge loop ends with one tree, of the leaves it began with (R75). -/
theorem Heap.Holds.mergeLoop_ends (p : Config.Params) {fuel : Nat} (H : h.Holds F) (h1 : 1 ≤ F.length)
    (hf : F.length ≤ fuel) (hs : (forestSymbols F).length ≤ 257) :
    ∃ h' x, mergeLoop p fuel h = some h' ∧ h'.Holds [x] ∧ x.tree.symbols.Perm (forestSymbols F) := by
  induction fuel generalizing h F with
  | zero => omega
  | succ fuel ih =>
    by_cases h2 : 2 ≤ F.length
    · obtain ⟨h', F', hturn, H', hlen, hsym⟩ := H.merge p h2 hs fuel
      obtain ⟨g, x, hg, Hg, hx⟩ := ih H' (by omega) (by omega) (by rw [hsym.length_eq]; exact hs)
      exact ⟨g, x, hturn.trans hg, Hg, hx.trans hsym⟩
    · obtain ⟨x, rfl⟩ := List.length_eq_one_iff.1 (show F.length = 1 by omega)
      have hq : (prioritySet h).length ≤ 1 := by rw [← queue_length, H.length_queue]; simp
      refine ⟨h, x, by rw [mergeLoop, if_pos hq], H, ?_⟩
      rw [forestSymbols_cons, forestSymbols, List.flatMap_nil, List.append_nil]

/-! ## The leaves (R75, R78) -/

/-- The symbols among numbered counts that get a leaf: those with a count above 0 (R75). -/
def liveFields (l : List (Count × Nat)) : List SymField :=
  l.filterMap fun x => if x.1 = 0 then none else some (BitVec.ofNat 9 x.2)

/-- The leaves of R75 make a forest of the live symbols. -/
theorem Heap.Holds.foldl_leaves {l : List (Count × Nat)} (H : h.Holds F) (hn : h.n + l.length ≤ 513) :
    ∃ F', (l.foldl (fun h x => if x.1 = 0 then h else heapAdd h (leafEntry (BitVec.ofNat 9 x.2) x.1)) h).Holds F' ∧
      (forestSymbols F').Perm (liveFields l ++ forestSymbols F) := by
  induction l generalizing h F with
  | nil => exact ⟨F, H, .refl _⟩
  | cons x l ih =>
    rw [List.length_cons] at hn
    rw [List.foldl_cons]
    by_cases hx : x.1 = 0
    · rw [if_pos hx]
      obtain ⟨F', H', hs⟩ := ih H (by omega)
      exact ⟨F', H', by simpa [liveFields, hx] using hs⟩
    · rw [if_neg hx]
      obtain ⟨F', H', hs⟩ := ih (H.addLeaf (by omega) (BitVec.ofNat 9 x.2) x.1) (by rw [heapAdd_n]; omega)
      refine ⟨F', H', hs.trans ?_⟩
      have hlive : liveFields (x :: l) = BitVec.ofNat 9 x.2 :: liveFields l :=
        List.filterMap_cons_some (if_neg hx)
      rw [hlive]
      exact List.perm_middle

end

/-- The leaf symbols BUILD makes of a table (R75): the live ones, ascending. -/
def tableFields (f : Vector Count 257) : List SymField := liveFields f.toList.zipIdx

theorem mem_tableFields {f : Vector Count 257} {x : SymField} :
    x ∈ tableFields f ↔ ∃ v : Symbol, f[v] ≠ 0 ∧ x = BitVec.ofNat 9 v.val := by
  simp only [tableFields, liveFields, List.mem_filterMap, Prod.exists, List.mk_mem_zipIdx_iff_getElem?]
  constructor
  · rintro ⟨c, i, hi, hx⟩
    split at hx
    · cases hx
    · rename_i hc
      obtain ⟨hlt, rfl⟩ := Vector.getElem?_eq_some_iff.1 (show f[i]? = some c by simpa using hi)
      exact ⟨⟨i, hlt⟩, hc, by simpa using hx.symm⟩
  · rintro ⟨v, hv, rfl⟩
    exact ⟨f[v], v.val, by simp, by rw [if_neg hv]⟩

theorem tableFields_length_le (f : Vector Count 257) : (tableFields f).length ≤ 257 := by
  simpa [tableFields, liveFields] using List.length_filterMap_le
    (fun x : Count × Nat => if x.1 = 0 then none else some (BitVec.ofNat 9 x.2)) f.toList.zipIdx

/-- The leaves BUILD begins with: the live symbols, and the synthesized leaf when there is only one (R78). -/
def buildFields (p : Config.Params) (f : Vector Count 257) : List SymField :=
  if (tableFields f).length = 1 then p.dummySym :: tableFields f else tableFields f

theorem buildFields_length (p : Config.Params) {f : Vector Count 257} (h : tableFields f ≠ []) :
    2 ≤ (buildFields p f).length ∧ (buildFields p f).length ≤ 257 := by
  have h1 := List.length_pos_iff.2 h
  have h2 := tableFields_length_le f
  rw [buildFields]
  split
  · rw [List.length_cons]; omega
  · omega

theorem mem_buildFields {p : Config.Params} {f : Vector Count 257} {v : Symbol} (h : f[v] ≠ 0) :
    BitVec.ofNat 9 v.val ∈ buildFields p f := by
  have hv : BitVec.ofNat 9 v.val ∈ tableFields f := mem_tableFields.2 ⟨v, h, rfl⟩
  rw [buildFields]
  split
  · exact List.mem_cons_of_mem _ hv
  · exact hv

theorem toNat_le_of_mem_buildFields {p : Config.Params} (hp : p.dummySym.toNat ≤ 256) {f : Vector Count 257}
    {x : SymField} (h : x ∈ buildFields p f) : x.toNat ≤ 256 := by
  have htable : ∀ y ∈ tableFields f, y.toNat ≤ 256 := by
    intro y hy
    obtain ⟨v, -, rfl⟩ := mem_tableFields.1 hy
    rw [symbolField_toNat]
    omega
  rw [buildFields] at h
  split at h
  · rcases List.mem_cons.1 h with rfl | h
    · exact hp
    · exact htable x h
  · exact htable x h

/-- The heap BUILD begins its merges with holds a forest of these leaves. -/
theorem initialHeap_holds (p : Config.Params) (s : State) (h : tableFields s.freq ≠ []) :
    ∃ F, (initialHeap p s).Holds F ∧ (forestSymbols F).Perm (buildFields p s.freq) := by
  obtain ⟨F, H, hs⟩ := (holds_nil s.node).foldl_leaves (l := s.freq.toList.zipIdx) (by simp)
  replace H : (addLeaves s.freq ⟨s.node, Vector.replicate 513 false, 0⟩).Holds F := H
  replace hs : (forestSymbols F).Perm (tableFields s.freq) := by simpa [forestSymbols, tableFields] using hs
  have hlive := List.length_pos_iff.2 h
  have hone : (addLeaves s.freq ⟨s.node, Vector.replicate 513 false, 0⟩).n = 1 ↔ (tableFields s.freq).length = 1 := by
    have hn := H.n_add_length
    have hle := length_le_forestSymbols F
    have hF : F ≠ [] := by
      rintro rfl
      exact h (List.nil_perm.1 hs)
    have hpos := List.length_pos_iff.2 hF
    rw [hs.length_eq] at hn hle
    omega
  rw [buildFields, initialHeap]
  by_cases h1 : (tableFields s.freq).length = 1
  · rw [if_pos h1, if_pos (hone.2 h1)]
    exact ⟨_, H.addLeaf (by rw [hone.2 h1]; decide) p.dummySym 0, hs.cons _⟩
  · rw [if_neg h1, if_neg (mt hone.1 h1)]
    exact ⟨F, H, hs⟩

/-- What BUILD's body leaves (R75): a tree of the leaves above, in the first entries, each of which belongs to it, with
its root in the last. -/
theorem buildBody_spec (p : Config.Params) {s : State} (h : tableFields s.freq ≠ []) :
    ∃ m q T js n, buildBody p s =
        .done (withTree (withInq (withNode s m) q) (BitVec.ofNat 10 n) (BitVec.ofNat 10 (n + 1))) ∧
      Stored m T n js ∧ (List.range (n + 1)).Perm js ∧ T.symbols.Perm (buildFields p s.freq) := by
  obtain ⟨F, H, hs⟩ := initialHeap_holds p s h
  obtain ⟨h2, h257⟩ := buildFields_length p h
  have hn := H.n_add_length
  have hle := length_le_forestSymbols F
  have hF : F ≠ [] := by
    rintro rfl
    have := hs.length_eq
    simp only [forestSymbols, List.flatMap_nil, List.length_nil] at this
    omega
  have hpos := List.length_pos_iff.2 hF
  rw [hs.length_eq] at hn hle
  obtain ⟨h', x, hm, H', hx⟩ := H.mergeLoop_ends p (fuel := 513) hpos (by omega) (by rw [hs.length_eq]; exact h257)
  have hroot : x.root + 1 = h'.n := H'.newest x rfl
  refine ⟨h'.node, h'.inq, x.tree, x.nodes, x.root, ?_, H'.stored x (by simp), ?_, hx.trans hs⟩
  · simp only [buildBody, if_neg (show (initialHeap p s).n ≠ 0 by omega), hm, ← hroot, Nat.add_sub_cancel]
  · rw [hroot]
    simpa using H'.nodes

/-- The tree BUILD makes passes the checks of R102. -/
theorem wf_of_buildFields {p : Config.Params} (hp : p.dummySym.toNat ≤ 256) {f : Vector Count 257}
    (h : tableFields f ≠ []) {T : CodeTree} (hT : T.symbols.Perm (buildFields p f)) : T.wf = true := by
  obtain ⟨h2, h257⟩ := buildFields_length p h
  rw [← hT.length_eq] at h2 h257
  have hs := size_add_one T
  exact wf_iff.2 ⟨rootInternal_of_two_leaves h2,
    fun v hv => toNat_le_of_mem_buildFields hp (hT.mem_iff.1 hv), by omega⟩

end Sys2Proof.Machine
end

section
/-! The round trip (R8): what each stage of COMPRESS and DECOMPRESS leaves, and the two put together, for every build. -/

namespace Sys2Proof.Machine

/-! ## COMPRESS (R94) -/

/-- COUNT as a stage, for an input of at most `N_MAX` bytes (R70). -/
theorem countStage_spec {p : Config.Params} (hp : p.nMax < 2 ^ 64) {s : State}
    (hn : (remainingBytes s).length ≤ p.nMax) :
    ∃ t, countStage p s = .done t ∧ t.freq = byteTable (remainingBytes s) ∧ t.src.bits = s.src.bits ∧
      t.snk = s.snk := by
  rw [countStage, countBody_bytes hp hn, andThen_done]
  exact ⟨_, rfl, rfl, rfl, rfl⟩

/-- BUILD as a stage, on a table with a count above 0 (R75): the current tree has the leaves of the table, and RDHDR
accepts it. -/
theorem buildStage_spec {p : Config.Params} (hd : p.dummySym.toNat ≤ 256) {s : State} (h : tableFields s.freq ≠ []) :
    ∃ t T, buildStage p s = .done t ∧ currentTree t = some T ∧ T.wf = true ∧
      T.symbols.Perm (buildFields p s.freq) ∧ t.src = s.src ∧ t.snk = s.snk := by
  obtain ⟨m, q, T, js, n, hb, hst, hjs, hsym⟩ := buildBody_spec p h
  have hwf := wf_of_buildFields hd h hsym
  obtain ⟨-, -, hf⟩ := wf_iff.1 hwf
  have hn : n + 1 = T.size := by rw [← hst.length_eq, ← hjs.length_eq, List.length_range]
  rw [buildStage, hb, andThen_done]
  exact ⟨_, T, rfl, Stored.currentTree_eq hst hf (Nat.mod_eq_of_lt (by omega)), hwf, hsym, rfl, rfl⟩

/-- GENCODES as a stage, on a tree with symbols in range (R85). -/
theorem gencodesStage_eq {s : State} {T : CodeTree} (hT : currentTree s = some T) (hw : T.wf = true) :
    gencodesStage s = .done (withStatus (withCode s (walk T 0 0 (Vector.replicate 257 ⟨0, 0⟩)))
      (setCodeValid s.status true)) := by
  have hv : T.symbolsOk = true := by
    simp only [CodeTree.wf, Bool.and_eq_true] at hw
    exact hw.1.2
  simp only [gencodesStage, gencodesBody, hT, if_pos hv, andThen_done]
  rfl

/-- WRHDR appends the header (R90). -/
theorem wrhdrBody_eq (p : Config.Params) {s : State} {T : CodeTree} (hT : currentTree s = some T)
    (ho : s.snk.closed = false) :
    wrhdrBody p s = .done (appended s (bitsOf 32 p.magic.toNat ++ serialize T)) := by
  simp only [wrhdrBody, hT]
  rw [snkWrite_appends ho, andThen_done, writeTree_open T (by exact ho), appended_appended]

/-- `SnkClose` after bits appended to an open sink (R34). -/
theorem snkClose_appended (p : Config.Params) {s : State} (ho : s.snk.closed = false) (l : Bits) :
    snkClose p (appended s l) =
      .done (withSink s ⟨s.snk.bits ++ l ++ p.padding (padLength (s.snk.bits ++ l).length), true⟩) := by
  rw [snkClose_open (by exact ho)]
  rfl

/-- The payload that a code memory makes of a byte sequence (R55). -/
def payload (m : Vector CodeEntry 257) (S : List Byte) : Bits := encodeBytes m S ++ codeword m[eosSymbol]

/-- COMPRESS of an input of at most `N_MAX` bytes (R94): a tree that RDHDR accepts, with a leaf for the sentinel and for
each byte of the input, the codes of that tree, and a closed sink with the file. -/
theorem compressBody_spec {p : Config.Params} (hp : p.nMax < 2 ^ 64) (hd : p.dummySym.toNat ≤ 256) {s : State}
    (ho : s.snk.closed = false) (h0 : s.src.pos = 0) (hn : (sourceBytes s).length ≤ p.nMax) :
    ∃ t T w, compressBody p s = .done t ∧ T.wf = true ∧ CodesOf T t.code ∧
      BitVec.ofNat 9 eosSymbol.val ∈ T.symbols ∧
      (∀ b ∈ sourceBytes s, BitVec.ofNat 9 (byteSymbol b).val ∈ T.symbols) ∧
      w = s.snk.bits ++ (bitsOf 32 p.magic.toNat ++ serialize T) ++ payload t.code (sourceBytes s) ∧
      t.snk = ⟨w ++ p.padding (padLength w.length), true⟩ := by
  have hbytes := remainingBytes_eq_sourceBytes h0
  obtain ⟨s1, h1, hfreq, hsrc1, hsnk1⟩ := countStage_spec hp (s := s) (by rwa [hbytes])
  rw [hbytes] at hfreq
  have heos : s1.freq[eosSymbol] ≠ 0 := by rw [hfreq, byteTable_eos]; decide
  obtain ⟨s2, T, h2, hT, hwf, hsym, hsrc2, hsnk2⟩ :=
    buildStage_spec hd (List.ne_nil_of_mem (mem_tableFields.2 ⟨_, heos, rfl⟩))
  obtain ⟨hroot, -, hsize⟩ := wf_iff.1 hwf
  have hmem : ∀ v : Symbol, s1.freq[v] ≠ 0 → BitVec.ofNat 9 v.val ∈ T.symbols := fun v hv =>
    hsym.mem_iff.2 (mem_buildFields hv)
  have hbyte : ∀ b ∈ sourceBytes s, BitVec.ofNat 9 (byteSymbol b).val ∈ T.symbols := fun b hb =>
    hmem _ (by rw [hfreq]; exact byteTable_ne_zero hb (by omega))
  have hcodes := codesOf_walk hsize
  have hlen : ∀ v : Symbol, BitVec.ofNat 9 v.val ∈ T.symbols →
      (walk T 0 0 (Vector.replicate 257 ⟨0, 0⟩))[v].len ≠ 0 := fun v hv => hcodes.len_ne_zero hroot hv
  have hsource : sourceBytes s2 = sourceBytes s := by rw [sourceBytes, hsrc2, hsrc1, sourceBytes]
  have hsnk : s2.snk = s.snk := hsnk2.trans hsnk1
  have ho2 : s2.snk.closed = false := by rw [hsnk]; exact ho
  rw [compressBody, h1, andThen_done, h2, andThen_done, gencodesStage_eq hT hwf, andThen_done,
    wrhdrBody_eq p (by exact hT) (by exact ho2), andThen_done,
    encodeBody_bytes p (by exact ho2) (by exact fun b hb => hlen _ (hbyte b (hsource ▸ hb)))
      (by exact hlen _ (hmem _ heos)), withSrcPos_appended, appended_appended, snkClose_appended p (by exact ho2)]
  refine ⟨_, T, _, rfl, hwf, hcodes, hmem _ heos, hbyte, ?_, rfl⟩
  simp only [← hsnk, ← hsource, payload, List.append_assoc]
  rfl

/-! ## DECOMPRESS (R106) -/

/-- A tree with an internal root is accepted (R102). -/
theorem acceptRoot_inner {r n : Nat} {s : State} {e : NodeEntry} (he : nodeRead s (BitVec.ofNat 10 r) = some e)
    (hn : e.leaf = false) : acceptRoot r n s = .done (withTree s (BitVec.ofNat 10 r) (BitVec.ofNat 10 n)) := by
  simp [acceptRoot, he, hn]

/-- RDHDR as a stage, on a header that WRHDR writes (R100). -/
theorem rdhdrStage_spec {p : Config.Params} {s : State} {T : CodeTree} {rest : Bits} (hw : T.wf = true)
    (h : remaining s = bitsOf 32 p.magic.toNat ++ (serialize T ++ rest)) :
    ∃ t, rdhdrStage p s = .done t ∧ t.status = setTreeValid s.status true ∧ currentTree t = some T ∧
      remaining t = rest ∧ t.snk = s.snk := by
  obtain ⟨hroot, hv, hf⟩ := wf_iff.1 hw
  have hm : BitVec.ofNat 32 (bitsVal (bitsOf 32 p.magic.toNat)) = p.magic := by simp [ofNat_bitsVal_bitsOf]
  obtain ⟨hmagic, hrest⟩ := srcRead_append h (bitsOf_length 32 _) (by decide)
  rw [hm] at hmagic
  have hrd := rd_serialize hv hrest (n := 0) (fuel := 514) (by omega) (by omega)
  have hst := stored_storeTree T 0 s.node (by omega)
  obtain ⟨e, he, hn⟩ := hst.inner_root hroot
  have hbody : rdhdrBody p s = acceptRoot 0 (0 + T.size) (withSrcPos (withNode s (storeTree T 0 s.node))
      (s.src.pos + 32 + (serialize T).length)) := by
    simp only [rdhdrBody, hmagic, hrd, if_pos]
    rfl
  rw [rdhdrStage, hbody, acceptRoot_inner (by exact he) hn, andThen_done]
  exact ⟨_, rfl, rfl, Stored.currentTree_eq hst hf rfl, remaining_skip hrest, rfl⟩

/-- DECODE's body, on codewords that end with a sentinel's (R104). -/
theorem decodeBody_spec (p : Config.Params) {s : State} {T : CodeTree} {data : List (SymField × Bits)} {e rest : Bits}
    (hT : currentTree s = some T) (hi : T.rootInternal = true) (hd : DataLeaves T data) (he : (256, e) ∈ leafPaths T)
    (ho : s.snk.closed = false) (h : remaining s = pathBits data ++ (e ++ rest)) :
    ∃ t, decodeBody p s = .done t ∧ t.status = s.status ∧
      t.snk = ⟨s.snk.bits ++ leafBytes data ++ p.padding (padLength (s.snk.bits ++ leafBytes data).length), true⟩ := by
  have hf : (pathBits data).length + e.length ≤ s.src.bits.length + 1 := by
    have := congrArg List.length h
    simp only [remaining_length, List.length_append] at this
    omega
  obtain ⟨c, -, hloop⟩ := decodeLoop_leaves hT hi hd he ho h hf
  rw [decodeBody, hloop, andThen_done, snkClose_open (by exact ho)]
  exact ⟨_, rfl, rfl, rfl⟩

/-- DECOMPRESS of a header and codewords that end with a sentinel's (R106). -/
theorem decompressBody_spec {p : Config.Params} {s : State} {T : CodeTree} {data : List (SymField × Bits)}
    {e rest : Bits} (hw : T.wf = true) (hd : DataLeaves T data) (he : (256, e) ∈ leafPaths T) (ho : s.snk.closed = false)
    (h : remaining s = bitsOf 32 p.magic.toNat ++ (serialize T ++ (pathBits data ++ (e ++ rest)))) :
    ∃ t, decompressBody p s = .done t ∧ t.status = setTreeValid s.status true ∧
      t.snk = ⟨s.snk.bits ++ leafBytes data ++ p.padding (padLength (s.snk.bits ++ leafBytes data).length), true⟩ := by
  obtain ⟨hroot, -, -⟩ := wf_iff.1 hw
  obtain ⟨s1, h1, hstatus, hT, hrest, hsnk⟩ := rdhdrStage_spec hw h
  obtain ⟨t, h2, hst, ht⟩ := decodeBody_spec p hT hroot hd he (by rw [hsnk]; exact ho) hrest
  exact ⟨t, by rw [decompressBody, h1, andThen_done, h2], hst.trans hstatus, by rw [ht, hsnk]⟩

/-! ## The two together (R8) -/

/-- The leaves whose paths are the codewords of a byte sequence (R55). -/
def byteLeaves (m : Vector CodeEntry 257) (S : List Byte) : List (SymField × Bits) :=
  S.map fun b => (BitVec.ofNat 9 (byteSymbol b).val, codeword m[byteSymbol b])

theorem pathBits_byteLeaves (m : Vector CodeEntry 257) (S : List Byte) : pathBits (byteLeaves m S) = encodeBytes m S := by
  rw [pathBits, byteLeaves, List.flatMap_map, encodeBytes]

/-- The bytes of these leaves are the sequence. -/
theorem leafBytes_byteLeaves (m : Vector CodeEntry 257) (S : List Byte) : leafBytes (byteLeaves m S) = bytesToBits S := by
  induction S with
  | nil => rfl
  | cons b S ih =>
    have hb : (BitVec.ofNat 9 (byteSymbol b).val).toNat = b.toNat := symbolField_toNat _
    rw [bytesToBits_cons, ← ih, ← hb]
    rfl

/-- They are data leaves of a tree whose codes the memory holds. -/
theorem dataLeaves_byteLeaves {T : CodeTree} {m : Vector CodeEntry 257} (hc : CodesOf T m) {S : List Byte}
    (hS : ∀ b ∈ S, BitVec.ofNat 9 (byteSymbol b).val ∈ T.symbols) : DataLeaves T (byteLeaves m S) := by
  intro x hx
  obtain ⟨b, hb, rfl⟩ := List.mem_map.1 hx
  refine ⟨hc.mem_leafPaths (hS b hb), fun h256 => ?_⟩
  have hval := congrArg BitVec.toNat h256
  rw [symbolField_toNat] at hval
  exact byteSymbol_ne_eos b (Fin.ext hval)

/-- A padding to a byte boundary makes whole bytes, which the bytes of the file give back (R34, R35). -/
theorem bytesToBits_bitsToBytes_padded {w pad : Bits} (hpad : pad.length = padLength w.length) :
    bytesToBits (bitsToBytes (w ++ pad)) = w ++ pad := by
  have hlen : (w ++ pad).length % 8 = 0 := by rw [List.length_append, hpad]; exact add_padLength_mod _
  rw [bytesToBits_bitsToBytes, Nat.mul_div_cancel' (Nat.dvd_of_mod_eq_zero hlen), List.take_length]

theorem ready_launch (bits : Bits) : Ready (launch bits) :=
  ⟨show isBusy 0x0000#16 = false by decide, show isFault 0x0000#16 = false by decide⟩

/-- The state in which the body of a command begins, from the reset state with a source attached (R113, R117). -/
def started (atStart : StatusWord → StatusWord) (bits : Bits) : State :=
  withStatus (acknowledge (launch bits)) (atStart (acknowledge (launch bits)).status)

@[simp] theorem started_src (atStart : StatusWord → StatusWord) (bits : Bits) :
    (started atStart bits).src = ⟨bits, 0⟩ := rfl
@[simp] theorem started_snk (atStart : StatusWord → StatusWord) (bits : Bits) :
    (started atStart bits).snk = ⟨[], false⟩ := rfl

/-- COMPRESS and DECOMPRESS are accepted in the reset state (R113, R114). -/
theorem accept_launch (atStart : StatusWord → StatusWord) (body : State → Body) (bits : Bits) :
    accept needsNothing atStart body (launch bits) = finish (body (started atStart bits)) :=
  accept_ready (ready_launch bits) rfl

/-- Neither the flags cleared at start nor `TREE_VALID` make a fault (R117). -/
theorem isFault_started (bits : Bits) : isFault (setTreeValid (started clearTreeCode bits).status true) = false := by
  have hf : isFault (acknowledge (launch bits)).status = false := by rw [isFault_acknowledge]; exact (ready_launch bits).2
  simpa [started, clearTreeCode, clearCode] using hf

/-- The round trip, for every magic value, tie-break, child order, padding and synthesized symbol (R8). -/
theorem round_trip {p : Config.Params} (hp : p.nMax < 2 ^ 64) (hd : p.dummySym.toNat ≤ 256)
    (hpad : ∀ k, (p.padding k).length = k) {S : List Byte} (hS : S.length ≤ p.nMax) :
    ∃ t u, runWith p .compress (launch (bytesToBits S)) = .next t ∧ t.snk.closed = true ∧
      runWith p .decompress (launch (bytesToBits (bitsToBytes t.snk.bits))) = .next u ∧ isFault u.status = false ∧
      isDone u.status = true ∧ u.snk = ⟨bytesToBits S, true⟩ := by
  have hbytes : sourceBytes (started clearAll (bytesToBits S)) = S := by simp [sourceBytes]
  obtain ⟨t, T, w, ht, hw, hcodes, heos, hbyte, hfile, hsnk⟩ :=
    compressBody_spec hp hd (s := started clearAll (bytesToBits S)) rfl rfl (by rwa [hbytes])
  rw [hbytes] at hbyte hfile
  have hsource : bytesToBits (bitsToBytes t.snk.bits) = w ++ p.padding (padLength w.length) := by
    rw [hsnk]; exact bytesToBits_bitsToBytes_padded (hpad _)
  have hremaining : remaining (started clearTreeCode (bytesToBits (bitsToBytes t.snk.bits))) =
      bitsOf 32 p.magic.toNat ++ (serialize T ++ (pathBits (byteLeaves t.code S) ++
        (codeword t.code[eosSymbol] ++ p.padding (padLength w.length)))) := by
    rw [remaining_eq_bits rfl, started_src, hsource, pathBits_byteLeaves]
    generalize p.padding (padLength w.length) = pad
    simp [hfile, payload]
  obtain ⟨u, hu, hstatus, hsnku⟩ := decompressBody_spec hw (dataLeaves_byteLeaves hcodes hbyte)
    (hcodes.mem_leafPaths heos) rfl hremaining
  obtain ⟨-, hdone, hfault, -, -, -, -, hcsnk⟩ := complete_spec u
  obtain ⟨-, -, -, -, -, -, -, htsnk⟩ := complete_spec t
  refine ⟨complete t, complete u, ?_, by rw [htsnk, hsnk], ?_, ?_, hdone, ?_⟩
  · exact (accept_launch clearAll (compressBody p) _).trans (by rw [ht]; rfl)
  · rw [htsnk]
    exact (accept_launch clearTreeCode (decompressBody p) _).trans (by rw [hu]; rfl)
  · rw [hfault, hstatus, isFault_started]
  · have hpad0 : p.padding (padLength (bytesToBits S).length) = [] := by
      rw [← List.length_eq_zero_iff, hpad, bytesToBits_length, padLength]
      omega
    rw [hcsnk, hsnku, leafBytes_byteLeaves, started_snk, List.nil_append, hpad0, List.append_nil]

end Sys2Proof.Machine

/-- Settles O49: the round trip of every build, for this hardware's parameters. -/
theorem decompressInvertsCompress : Obligations.DecompressInvertsCompress := by
  intro S hS
  simp only [Sys2Proof.Machine.exec_eq]
  exact Sys2Proof.Machine.round_trip (by decide) (by decide) (fun k => List.length_replicate) hS
end

section
/-!
The channel primitives (R31): what SrcRead returns, and what it leaves where it was.
-/
open Sys2Proof.Machine

/-- Settles O9: of the two answers of SrcRead, the number of bits left decides which one it is (R31). -/
theorem srcReadReadsOrEnds : Obligations.SrcReadReadsOrEnds := by
  intro n s
  rcases srcRead_cases n s with ⟨henough, hread⟩ | ⟨hshort, hread⟩
  · have hlen : ((remaining s).take n).length = n := by
      rw [List.length_take, remaining_length]
      omega
    exact ⟨fun _ => ⟨_, hread, bitsOf_toNat_ofNat n _ hlen⟩, fun h => by omega⟩
  · exact ⟨fun h => by omega, fun _ => hread⟩
end

section
/-! The composites (R54): a stage command presented after another goes on where the other has stopped, as the next stage
of a composite does. -/

namespace Sys2Proof.Machine

/-! ## From one stage to the next -/

/-- `STATUS` inside a command that has raised nothing (R113), with the valid flags given. -/
structure Running (w : StatusWord) (freq tree code : Bool) : Prop where
  busy : isBusy w = true
  done : isDone w = false
  fault : isFault w = false
  freq : freqValid w = freq
  tree : treeValid w = tree
  code : codeValid w = code

/-- A body that ends without `raise` leaves the command running, with the valid flags given. -/
def Body.LeavesRunning (b : Body) (freq tree code : Bool) : Prop := ∀ t, b = .done t → Running t.status freq tree code

section
variable {w : StatusWord} {f t c : Bool}

/-- The end of a stage command and the acceptance of the next one cancel out (R113, R115). -/
theorem acknowledge_complete {s : State} (h : Running s.status f t c) : acknowledge (complete s) = s := by
  have hstatus : setDone (setBusy (setBusy (setDone s.status true) false) true) false = s.status := by
    apply status_ext <;> simp [h.busy, h.done]
  calc acknowledge (complete s)
      = withStatus s (setDone (setBusy (setBusy (setDone s.status true) false) true) false) := rfl
    _ = s := by rw [hstatus]; rfl

/-- Clearing a flag that is clear changes nothing (R117). -/
theorem clearCode_eq_self (h : codeValid w = false) : clearCode w = w := by
  apply status_ext <;> simp [clearCode, h]

theorem clearTreeCode_eq_self (ht : treeValid w = false) (hc : codeValid w = false) : clearTreeCode w = w := by
  apply status_ext <;> simp [clearTreeCode, clearCode, ht, hc]

/-- A command presented after a body has ended is the body's continuation, if it is accepted and clears no flag that is
set; after `raise` it is dropped (R113, R128). -/
theorem thenExec_finish {i : Instr} {needs : StatusWord → Bool} {atStart : StatusWord → StatusWord}
    {body : State → Body} {b : Body} (hi : ∀ s, exec i s = accept needs atStart body s) (hb : b.LeavesRunning f t c)
    (hn : ∀ w, Running w f t c → needs w = true) (hs : ∀ w, Running w f t c → atStart w = w) :
    thenExec (finish b) i = finish (b.andThen body) := by
  cases b with
  | done s =>
    have hr := hb s rfl
    have hready : Ready (complete s) := by
      obtain ⟨hbusy, -, hfault, -⟩ := complete_spec s
      exact ⟨hbusy, hfault.trans hr.fault⟩
    calc exec i (complete s)
        = finish (body (withStatus (acknowledge (complete s)) (atStart (acknowledge (complete s)).status))) := by
          rw [hi, accept_ready hready (by rw [acknowledge_complete hr]; exact hn _ hr)]
      _ = finish (body s) := by rw [acknowledge_complete hr, hs _ hr]; rfl
  | raised e s =>
    obtain ⟨⟨-, -, hfault, -⟩, -⟩ := raiseFault_spec e s
    exact (hi _).trans (accept_dropped (.inr hfault))
  | refused r => rfl
  | stuck g => rfl

/-! ## What a stage does to `STATUS` -/

/-- A body that does not write `STATUS` leaves the command running as it was. -/
theorem leavesRunning_of_ends {s : State} {b : Body} (h : Running s.status f t c)
    (hb : b.Ends fun u => u.status = s.status) : b.LeavesRunning f t c := by
  rintro u rfl
  rw [ends_done] at hb
  rwa [hb]

theorem leavesRunning_andThen {f' t' c' : Bool} {b : Body} {k : State → Body} (hb : b.LeavesRunning f t c)
    (hk : ∀ s, Running s.status f t c → (k s).LeavesRunning f' t' c') : (b.andThen k).LeavesRunning f' t' c' := by
  intro u hu
  obtain ⟨s, hs, hku⟩ := andThen_eq_done hu
  exact hk s (hb s hs) u hku

theorem markFreq_leavesRunning {s : State} (h : Running s.status f t c) : (markFreq s).LeavesRunning true t c := by
  rintro _ ⟨⟩
  constructor <;> simp [h.busy, h.done, h.fault, h.tree, h.code]

theorem markTree_leavesRunning {s : State} (h : Running s.status f t c) : (markTree s).LeavesRunning f true c := by
  rintro _ ⟨⟩
  constructor <;> simp [h.busy, h.done, h.fault, h.freq, h.code]

theorem markCode_leavesRunning {s : State} (h : Running s.status f t c) : (markCode s).LeavesRunning f t true := by
  rintro _ ⟨⟩
  constructor <;> simp [h.busy, h.done, h.fault, h.freq, h.tree]

/-- COUNT's body does not write `STATUS` (R21, R70). -/
theorem countBody_status (p : Config.Params) (s : State) : (countBody p s).Ends fun t => t.status = s.status := by
  refine ends_andThen (ends_mono (countLoop_frame p _ _) ?_) (fun _ h => h) fun _ h => h
  rintro _ ⟨_, _, _, rfl⟩
  rfl

/-- BUILD's body does not write `STATUS` (R21, R75). -/
theorem buildBody_status (p : Config.Params) (s : State) : (buildBody p s).Ends fun t => t.status = s.status := by
  rw [buildBody]
  split
  · trivial
  · split
    · trivial
    · rfl

/-- GENCODES' body does not write `STATUS` (R21, R85). -/
theorem gencodesBody_status (s : State) : (gencodesBody s).Ends fun t => t.status = s.status := by
  rw [gencodesBody]
  split
  · trivial
  · split
    · rfl
    · trivial

/-- WRHDR's body does not write `STATUS` (R21, R90). -/
theorem wrhdrBody_status (p : Config.Params) (s : State) : (wrhdrBody p s).Ends fun t => t.status = s.status := by
  rw [wrhdrBody]
  split
  · trivial
  · next T hT =>
    rcases snkWrite_cases 32 p.magic.toNat s with ⟨-, hw⟩ | ⟨-, hw⟩
    · rw [hw, andThen_done]
      rcases writeTree_cases T (appended s (bitsOf 32 p.magic.toNat)) with ⟨-, l, hl⟩ | ⟨-, hl⟩
      · rw [hl]
        rfl
      · rw [hl]
        trivial
    · rw [hw]
      trivial

/-- The check of the root does not write `STATUS` (R100). -/
theorem acceptRoot_status (r n : Nat) (s : State) : (acceptRoot r n s).Ends fun t => t.status = s.status := by
  rw [acceptRoot]
  split
  · trivial
  · split <;> rfl

/-- RDHDR's body does not write `STATUS` (R21, R100). -/
theorem rdhdrBody_status (p : Config.Params) (s : State) : (rdhdrBody p s).Ends fun t => t.status = s.status := by
  rw [rdhdrBody]
  rcases srcRead_cases 32 s with ⟨-, hr⟩ | ⟨-, hr⟩
  · simp only [hr]
    split
    · rcases rd_cases 514 0 (withSrcPos s (s.src.pos + 32)) with ⟨n, _, hrd, -, -, m, k, rfl⟩ | ⟨_, hrd, m, k, rfl⟩ | hrd
      · simp only [hrd]
        exact acceptRoot_status 0 n _
      · simp only [hrd]
        rfl
      · simp only [hrd]
        trivial
    · rfl
  · simp only [hr]
    rfl

theorem countStage_leavesRunning (p : Config.Params) {s : State} (h : Running s.status f t c) :
    (countStage p s).LeavesRunning true t c :=
  leavesRunning_andThen (leavesRunning_of_ends h (countBody_status p s)) fun _ => markFreq_leavesRunning

theorem buildStage_leavesRunning (p : Config.Params) {s : State} (h : Running s.status f t c) :
    (buildStage p s).LeavesRunning f true c :=
  leavesRunning_andThen (leavesRunning_of_ends h (buildBody_status p s)) fun _ => markTree_leavesRunning

theorem gencodesStage_leavesRunning {s : State} (h : Running s.status f t c) :
    (gencodesStage s).LeavesRunning f t true :=
  leavesRunning_andThen (leavesRunning_of_ends h (gencodesBody_status s)) fun _ => markCode_leavesRunning

theorem rdhdrStage_leavesRunning (p : Config.Params) {s : State} (h : Running s.status f t c) :
    (rdhdrStage p s).LeavesRunning f true c :=
  leavesRunning_andThen (leavesRunning_of_ends h (rdhdrBody_status p s)) fun _ => markTree_leavesRunning

end

/-! ## The two composites -/

/-- A ready block that has accepted COMPRESS or COUNT is running, with no valid flag set (R113, R117). -/
theorem running_clearAll {s : State} (h : Ready s) : Running (clearAll (acknowledge s).status) false false false := by
  constructor <;> simp [clearAll, clearTreeCode, clearCode, h.2]

/-- A ready block that has accepted DECOMPRESS or RDHDR is running, with at most `FREQ_VALID` set (R113, R117). -/
theorem running_clearTreeCode {s : State} (h : Ready s) :
    Running (clearTreeCode (acknowledge s).status) (freqValid s.status) false false := by
  constructor <;> simp [clearTreeCode, clearCode, h.2]

/-- Once COUNT has begun, the stage commands end as COMPRESS's body does (R94). -/
theorem thenExec_finish_countStage {s : State} (h : Running s.status false false false) :
    thenExec (thenExec (thenExec (thenExec (finish (countStage hwParams s)) .build) .gencodes) .wrhdr) .encode =
      finish (compressBody hwParams s) := by
  have hcount := countStage_leavesRunning hwParams h
  have hbuild := leavesRunning_andThen hcount fun _ => buildStage_leavesRunning hwParams
  have hgencodes := leavesRunning_andThen hbuild fun _ => gencodesStage_leavesRunning
  have hwrhdr := leavesRunning_andThen hgencodes fun u hu => leavesRunning_of_ends hu (wrhdrBody_status hwParams u)
  rw [thenExec_finish (fun _ => rfl) hcount (fun _ hw => hw.freq) (fun _ hw => clearTreeCode_eq_self hw.tree hw.code),
    thenExec_finish (fun _ => rfl) hbuild (fun _ hw => hw.tree) (fun _ hw => clearCode_eq_self hw.code),
    thenExec_finish (fun _ => rfl) hgencodes (fun _ hw => hw.tree) (fun _ _ => rfl),
    thenExec_finish (fun _ => rfl) hwrhdr (fun _ hw => hw.code) (fun _ _ => rfl), compressBody]

/-- Once RDHDR has begun, RDHDR and DECODE end as DECOMPRESS's body does (R106). -/
theorem thenExec_finish_rdhdrStage {s : State} {f : Bool} (h : Running s.status f false false) :
    thenExec (finish (rdhdrStage hwParams s)) .decode = finish (decompressBody hwParams s) := by
  rw [thenExec_finish (fun _ => rfl) (rdhdrStage_leavesRunning hwParams h) (fun _ hw => hw.tree) (fun _ _ => rfl),
    decompressBody]

/-- COMPRESS is COUNT, BUILD, GENCODES, WRHDR and ENCODE (R54). -/
theorem exec_compress_eq_stages {s : State} (h : Ready s) :
    exec .compress s = thenExec (thenExec (thenExec (thenExec (exec .count s) .build) .gencodes) .wrhdr) .encode := by
  have hcompress : exec .compress s = finish (compressBody hwParams _) := accept_ready h rfl
  have hcount : exec .count s = finish (countStage hwParams _) := accept_ready h rfl
  rw [hcompress, hcount, thenExec_finish_countStage (running_clearAll h)]

/-- DECOMPRESS is RDHDR and DECODE (R54). -/
theorem exec_decompress_eq_stages {s : State} (h : Ready s) :
    exec .decompress s = thenExec (exec .rdhdr s) .decode := by
  have hdecompress : exec .decompress s = finish (decompressBody hwParams _) := accept_ready h rfl
  have hrdhdr : exec .rdhdr s = finish (rdhdrStage hwParams _) := accept_ready h rfl
  rw [hdecompress, hrdhdr, thenExec_finish_rdhdrStage (running_clearTreeCode h)]

end Sys2Proof.Machine

/-- Settles O48: each stage command finds the state in which the composite begins that stage, or a fault, which drops
it. -/
theorem compositesEqualTheirStages : Obligations.CompositesEqualTheirStages := fun _ h =>
  ⟨Sys2Proof.Machine.exec_compress_eq_stages h, Sys2Proof.Machine.exec_decompress_eq_stages h⟩
end

section
/-! COUNT as a command (R70, R71, R73): its stage on an input that `N_MAX` allows, and the end of the command. -/

namespace Sys2Proof.Machine

/-- What COUNT leaves inside the command, for an input of `l` bytes: the table and the number of the bytes, the cursor
after them (R70), and `FREQ_VALID` set (R117). -/
def counted (l : List Byte) (s : State) : State :=
  withStatus (withSrcPos (withTable s (byteTable l) (BitVec.ofNat 64 l.length)) (s.src.pos + 8 * l.length))
    (setFreqValid s.status true)

/-- COUNT as a stage, for an input of at most `N_MAX` bytes (R70). -/
theorem countStage_bytes {p : Config.Params} (hp : p.nMax < 2 ^ 64) {s : State}
    (hn : (remainingBytes s).length ≤ p.nMax) : countStage p s = .done (counted (remainingBytes s) s) := by
  rw [countStage, countBody_bytes hp hn, andThen_done]
  rfl

/-- A ready block answers COUNT with the source's bytes counted, if `N_MAX` allows them (R70, R113, R115). -/
theorem exec_count_bytes {s : State} (h : Ready s) (hn : (remainingBytes s).length ≤ hwParams.nMax) :
    exec .count s = .next (complete (counted (remainingBytes s)
      (withStatus (acknowledge s) (clearAll (acknowledge s).status)))) := by
  have haccept : exec .count s = finish (countStage hwParams _) := accept_ready h rfl
  rw [haccept, countStage_bytes (by decide) (by exact hn)]
  rfl

/-- COUNT completes with `FREQ_VALID` alone set (R115, R117). -/
theorem succeeded_counted {s : State} (h : Ready s) (l : List Byte) :
    Succeeded s (complete (counted l (withStatus (acknowledge s) (clearAll (acknowledge s).status)))) true false
      false := by
  obtain ⟨-, hfault⟩ := h
  simp [Succeeded, FlagsAre, complete, counted, clearAll, clearTreeCode, clearCode, hfault]

end Sys2Proof.Machine

open Sys2Proof.Machine

/-- Settles O23: the loop counts the whole bytes that are left, and no count wraps, because none is above `N_MAX`. -/
theorem countCountsTheSource : Obligations.CountCountsTheSource := by
  intro s h hn
  have hlt : (remainingBytes s).length < 2 ^ 64 := Nat.lt_of_le_of_lt hn (by decide)
  refine ⟨_, exec_count_bytes h hn, succeeded_counted h _, fun b => ?_, byteTable_eos _, Nat.mod_eq_of_lt hlt, rfl, rfl,
    ⟨rfl, rfl⟩, rfl, rfl, rfl, rfl, ⟨rfl, rfl⟩⟩
  calc (byteTable (remainingBytes s))[byteSymbol b].toNat
      = (remainingBytes s).count b % 2 ^ 64 := by rw [byteTable_byte, BitVec.toNat_ofNat]
    _ = (remainingBytes s).count b := Nat.mod_eq_of_lt (Nat.lt_of_le_of_lt List.count_le_length hlt)
end

section
/-! SUPPORT. Huffman's argument (R81) on trees that carry nothing but weights: joining the two least weights first loses
nothing. -/

namespace Sys2Proof.Machine

/-- A binary tree with a weight at each leaf: what the weighted external path length depends on (R81). -/
inductive WeightTree
  | leaf (w : Nat)
  | node (left right : WeightTree)

namespace WeightTree

/-- The leaf weights. -/
def leaves : WeightTree → Multiset Nat
  | leaf w => {w}
  | node l r => l.leaves + r.leaves

/-- The number of edges from the root to the deepest leaf. -/
def depth : WeightTree → Nat
  | leaf _ => 0
  | node l r => max l.depth r.depth + 1

/-- The weighted external path length: each merge costs what its two sides weigh. -/
def cost : WeightTree → Nat
  | leaf _ => 0
  | node l r => l.cost + r.cost + (l.leaves.sum + r.leaves.sum)

/-- A tree has a leaf. -/
theorem leaves_ne_zero (A : WeightTree) : A.leaves ≠ 0 := by
  induction A with
  | leaf w => simp [leaves]
  | node l r ihl ihr => simp [leaves, ihl]

/-- A tree with two leaves has an internal root. -/
theorem depth_ne_zero {A : WeightTree} {x y : Nat} {R : Multiset Nat} (hA : A.leaves = x ::ₘ y ::ₘ R) :
    A.depth ≠ 0 := by
  cases A with
  | leaf w => simpa [leaves] using congrArg Multiset.card hA
  | node l r => exact Nat.succ_ne_zero _

/-- The two sides of a node can be exchanged. -/
theorem node_comm (l r : WeightTree) :
    (node l r).leaves = (node r l).leaves ∧ (node l r).depth = (node r l).depth ∧
      (node l r).cost = (node r l).cost := by
  refine ⟨add_comm _ _, ?_, ?_⟩
  · rw [depth, depth, max_comm]
  · rw [cost, cost]; omega

/-- Making one leaf heavier costs at most the difference on a path of full depth. -/
theorem exists_relabel {A : WeightTree} {u v D : Nat} {M : Multiset Nat} (hA : A.leaves = u ::ₘ M) (huv : u ≤ v)
    (hD : A.depth ≤ D) :
    ∃ B : WeightTree, B.leaves = v ::ₘ M ∧ B.depth ≤ D ∧ B.cost + D * u ≤ A.cost + D * v := by
  induction A generalizing D M with
  | leaf w =>
    obtain ⟨rfl, rfl⟩ : w = u ∧ M = 0 := by
      simpa [leaves, Multiset.singleton_eq_cons_iff] using hA
    exact ⟨leaf v, rfl, Nat.zero_le _, by simpa [cost] using Nat.mul_le_mul_left D huv⟩
  | node l r ihl ihr =>
    wlog hu : u ∈ l.leaves generalizing l r
    · obtain ⟨hleaves, hdepth, hcost⟩ := node_comm l r
      have hur : u ∈ r.leaves := by
        have : u ∈ l.leaves + r.leaves := by rw [← leaves, hA]; simp
        exact (Multiset.mem_add.1 this).resolve_left hu
      rw [hcost]
      exact this r l ihr ihl (hleaves ▸ hA) (hdepth ▸ hD) hur
    obtain ⟨Ml, hl⟩ := Multiset.exists_cons_of_mem hu
    obtain ⟨D, rfl⟩ : ∃ E, D = E + 1 := ⟨D - 1, by rw [depth] at hD; omega⟩
    rw [depth] at hD
    obtain ⟨B, hB, hBD, hcost⟩ := ihl hl (show l.depth ≤ D by omega)
    obtain rfl : M = Ml + r.leaves := by simpa [leaves, hl, eq_comm] using hA
    refine ⟨node B r, by simp [leaves, hB], by rw [depth]; omega, ?_⟩
    simp only [cost, hB, hl, Multiset.sum_cons, Nat.add_mul, Nat.one_mul]
    omega

/-- Making several leaves heavier costs at most the difference on paths of full depth. -/
theorem exists_relabel_all {U V M : Multiset Nat} {D : Nat} {A : WeightTree} (hUV : U.card = V.card)
    (hle : ∀ u ∈ U, ∀ v ∈ V, u ≤ v) (hA : A.leaves = U + M) (hD : A.depth ≤ D) :
    ∃ B : WeightTree, B.leaves = V + M ∧ B.cost + D * U.sum ≤ A.cost + D * V.sum := by
  induction U using Multiset.induction_on generalizing V M A with
  | empty =>
    obtain rfl : V = 0 := Multiset.card_eq_zero.1 hUV.symm
    exact ⟨A, hA, le_rfl⟩
  | cons u U ih =>
    obtain ⟨v, V, rfl⟩ : ∃ v W, V = v ::ₘ W := by
      obtain ⟨v, hv⟩ := Multiset.card_pos_iff_exists_mem.1 (show 0 < V.card by rw [← hUV]; simp)
      exact ⟨v, Multiset.exists_cons_of_mem hv⟩
    obtain ⟨B, hB, hBD, hcost⟩ :=
      exists_relabel (v := v) (M := U + M) (by simpa using hA) (hle u (by simp) v (by simp)) hD
    obtain ⟨C, hC, hCcost⟩ := ih (V := V) (M := v ::ₘ M) (A := B) (by simpa using hUV)
      (fun a ha b hb => hle a (by simp [ha]) b (by simp [hb])) (by simpa using hB) hBD
    refine ⟨C, by simpa using hC, ?_⟩
    simp only [Multiset.sum_cons, Nat.mul_add]
    omega

/-- A deepest pair of leaves can be replaced by one leaf, of any weight. -/
theorem exists_collapse {A : WeightTree} {k : Nat} (hA : A.depth = k + 1) (z : Nat) :
    ∃ (a b : Nat) (M : Multiset Nat) (B : WeightTree), A.leaves = a ::ₘ b ::ₘ M ∧ B.leaves = z ::ₘ M ∧ B.depth ≤ k + 1 ∧
      B.cost + (k + 1) * (a + b) ≤ A.cost + k * z := by
  induction A generalizing k with
  | leaf w => cases hA
  | node l r ihl ihr =>
    wlog hlr : r.depth ≤ l.depth generalizing l r
    · obtain ⟨hleaves, hdepth, hcost⟩ := node_comm l r
      rw [hleaves, hcost]
      exact this r l ihr ihl (hdepth ▸ hA) (by omega)
    rw [depth, max_eq_left hlr, Nat.add_right_cancel_iff] at hA
    match l, r with
    | leaf u, leaf v =>
      obtain rfl : 0 = k := hA
      exact ⟨u, v, 0, leaf z, rfl, rfl, Nat.zero_le _, by simp [cost, leaves]⟩
    | leaf u, node _ _ => simp [depth] at hlr
    | node l₁ l₂, r =>
      obtain ⟨k, rfl⟩ : ∃ j, k = j + 1 := ⟨_, hA.symm⟩
      obtain ⟨a, b, M, B, hl, hB, hBD, hcost⟩ := ihl hA
      refine ⟨a, b, M + r.leaves, node B r, by rw [leaves, hl]; simp, by rw [leaves, hB]; simp,
        by rw [depth]; omega, ?_⟩
      simp only [cost, hl, hB, Multiset.sum_cons, Nat.add_mul, Nat.one_mul] at hcost ⊢
      omega

/-- What two bags have beside the given parts `P` and `Q` of a common total: some elements in common, and else elements
of `Q` on the one side and of `P` on the other. -/
theorem exists_common_rest {P Q M R : Multiset Nat} (h : P + M = Q + R) :
    ∃ U V S : Multiset Nat, U ≤ Q ∧ M = U + S ∧ R = V + S := by
  refine ⟨Q - P, P - Q, M - (Q - P), tsub_le_self, ?_, ?_⟩ <;>
  · ext z
    have := congrArg (Multiset.count z) h
    simp only [Multiset.count_add, Multiset.count_sub] at this ⊢
    omega

/-- The greedy choice: in any tree the two least weights can be joined first, at no loss. -/
theorem exists_join_least {A : WeightTree} {x y : Nat} {R : Multiset Nat} (hA : A.leaves = x ::ₘ y ::ₘ R) (hxy : x ≤ y)
    (hR : ∀ z ∈ R, y ≤ z) : ∃ B : WeightTree, B.leaves = (x + y) ::ₘ R ∧ B.cost + (x + y) ≤ A.cost := by
  obtain ⟨k, hk⟩ := Nat.exists_eq_succ_of_ne_zero (depth_ne_zero hA)
  obtain ⟨a, b, M, B, hab, hB, hBD, hcost⟩ := exists_collapse hk (x + y)
  have htotal : ({a, b} : Multiset Nat) + M = {x, y} + R := by simpa using hab.symm.trans hA
  obtain ⟨U, V, S, hU, rfl, rfl⟩ := exists_common_rest htotal
  have hcard : U.card = V.card := by simpa using congrArg Multiset.card htotal
  have hsum : a + b + U.sum = x + y + V.sum := by simpa [← Nat.add_assoc] using congrArg Multiset.sum htotal
  have hle : ∀ u ∈ U, ∀ v ∈ V, u ≤ v := by
    intro u hu v hv
    have hu' : u = x ∨ u = y := by simpa using Multiset.mem_of_le hU hu
    have hv' := hR v (Multiset.mem_add.2 (.inl hv))
    omega
  obtain ⟨C, hC, hCcost⟩ := exists_relabel_all (M := (x + y) ::ₘ S) hcard hle (by rw [hB]; simp) hBD
  refine ⟨C, by rw [hC]; simp, ?_⟩
  have hscaled := congrArg ((k + 1) * ·) hsum
  simp only [Nat.mul_add, Nat.add_mul, Nat.one_mul] at hscaled hcost hCcost
  omega

end WeightTree

end Sys2Proof.Machine
end

section
/-! RemoveMin (R76) and the merge (R77) in this hardware's order: what is removed first, and what is left. -/

namespace Sys2Proof.Machine

/-- An element of the priority set leaves before another: by weight, and by index among equal weights (R76). -/
def Precedes (x y : Count × Nat) : Prop := x.1.toNat < y.1.toNat ∨ (x.1.toNat = y.1.toNat ∧ x.2 < y.2)

theorem before_iff_precedes (x y : Count × Nat) : hwParams.before x.1 x.2 y.1 y.2 = true ↔ Precedes x y := by
  simp [hwParams, Precedes]

theorem Precedes.trans {x y z : Count × Nat} (hxy : Precedes x y) (hyz : Precedes y z) : Precedes x z := by
  unfold Precedes at *
  omega

/-- The order is total. -/
theorem precedes_of_not_precedes {x y : Count × Nat} (h : ¬Precedes y x) : y = x ∨ Precedes x y := by
  unfold Precedes at *
  by_cases hne : x.1.toNat = y.1.toNat ∧ x.2 = y.2
  · exact .inl (Prod.ext (BitVec.eq_of_toNat_eq hne.1.symm) hne.2.symm)
  · omega

/-- The element that leaves a list first precedes every other. -/
theorem firstOf_least {l : List (Count × Nat)} {x : Count × Nat} (h : firstOf hwParams l = some x) :
    ∀ y ∈ l, y = x ∨ Precedes x y := by
  induction l generalizing x with
  | nil => simp
  | cons a t ih =>
    rw [firstOf] at h
    rcases firstOf_cases hwParams t with ⟨rfl, hf⟩ | ⟨z, -, hf⟩
    · simp only [hf, Option.some_inj] at h
      simp [h]
    · have hz := ih hf
      simp only [hf] at h
      by_cases hb : hwParams.before z.1 z.2 a.1 a.2 = true
      · obtain rfl : z = x := by simpa [hb] using h
        exact List.forall_mem_cons.2 ⟨.inr ((before_iff_precedes _ _).1 hb), hz⟩
      · obtain rfl : a = x := by simpa [hb] using h
        refine List.forall_mem_cons.2 ⟨.inl rfl, fun y hy => ?_⟩
        rcases precedes_of_not_precedes (mt (before_iff_precedes _ _).2 hb) with rfl | haz
        · exact hz y hy
        · rcases hz y hy with rfl | hzy
          · exact .inr haz
          · exact .inr (haz.trans hzy)

/-- The priority set is listed by ascending index, so its members determine it. -/
theorem prioritySet_eq_of_mem_iff {h : Heap} {l : List (Count × Nat)} (hl : l.Pairwise fun x y => x.2 < y.2)
    (hmem : ∀ w i, (w, i) ∈ prioritySet h ↔ (w, i) ∈ l) : prioritySet h = l := by
  have hset : (prioritySet h).Pairwise fun x y => x.2 < y.2 := List.pairwise_map.1 (queue_pairwise_lt h)
  have hnodup {m : List (Count × Nat)} (hm : m.Pairwise fun x y => x.2 < y.2) : m.Nodup :=
    hm.imp fun hlt heq => absurd (congrArg Prod.snd heq) hlt.ne
  refine ((List.perm_ext_iff_of_nodup (hnodup hset) (hnodup hl)).2 fun x => hmem x.1 x.2).eq_of_pairwise ?_ hset hl
  intro a b _ _ hab hba
  omega

/-- Taking an index out of the membership bits takes its element out of the set. -/
theorem prioritySet_clear (h : Heap) (m : Nat) :
    prioritySet ⟨h.node, h.inq.setIfInBounds m false, h.n⟩ = (prioritySet h).filter fun x => decide (x.2 ≠ m) := by
  refine prioritySet_eq_of_mem_iff ((List.pairwise_map.1 (queue_pairwise_lt h)).filter _) fun w i => ?_
  rw [List.mem_filter, mem_prioritySet, mem_prioritySet, Vector.getElem?_setIfInBounds]
  by_cases hmi : m = i
  · simp [hmi]
  · simp [hmi, Ne.symm hmi]

/-- A new node of the highest index stands last in the set. -/
theorem prioritySet_heapAdd {h : Heap} (hn : h.n < 513) (hlt : ∀ x ∈ prioritySet h, x.2 < h.n) (e : NodeEntry) :
    prioritySet (heapAdd h e) = prioritySet h ++ [(e.weight, h.n)] := by
  refine prioritySet_eq_of_mem_iff ?_ fun w i => ?_
  · exact List.pairwise_append.2 ⟨List.pairwise_map.1 (queue_pairwise_lt h), List.pairwise_singleton _ _,
      fun x hx y hy => by rw [List.mem_singleton.1 hy]; exact hlt x hx⟩
  · rw [List.mem_append, List.mem_singleton, mem_prioritySet, heapAdd_node, heapAdd_inq,
      Vector.getElem?_setIfInBounds, Vector.getElem?_setIfInBounds]
    by_cases hni : h.n = i
    · subst hni
      have hold : (w, h.n) ∉ prioritySet h := fun hx => (hlt _ hx).ne rfl
      simp [hold, hn]
    · simp [hni, Ne.symm hni, mem_prioritySet]

/-- RemoveMin in this hardware's order: the element it takes out precedes every other. -/
theorem removeMin_eq_some {h h' : Heap} {w : Count} {m : Nat} (hr : removeMin hwParams h = some (w, m, h')) :
    (w, m) ∈ prioritySet h ∧ (∀ x ∈ prioritySet h, x = (w, m) ∨ Precedes (w, m) x) ∧
      h' = ⟨h.node, h.inq.setIfInBounds m false, h.n⟩ := by
  rcases firstOf_cases hwParams (prioritySet h) with ⟨-, hf⟩ | ⟨x, hx, hf⟩
  · simp [removeMin, hf] at hr
  · obtain ⟨rfl, rfl, rfl⟩ : x.1 = w ∧ x.2 = m ∧ _ = h' := by simpa [removeMin, hf] using hr
    exact ⟨hx, firstOf_least hf, rfl⟩

end Sys2Proof.Machine

open Sys2Proof.Machine

/-- Settles O25: the set is a list in ascending order of the indices whose bit is set, and RemoveMin takes from it the
element that precedes the others. -/
theorem removeMinTakesTheLeast : Obligations.RemoveMinTakesTheLeast := by
  intro h
  refine ⟨fun x => ?_, ?_, fun w m h' hr => ?_⟩
  · obtain ⟨w, i⟩ := x
    rw [mem_prioritySet]
    constructor
    · rintro ⟨hi, e, he, rfl⟩
      obtain ⟨hlt, hi'⟩ := Vector.getElem?_eq_some_iff.1 hi
      obtain ⟨-, rfl⟩ := Vector.getElem?_eq_some_iff.1 he
      exact ⟨⟨i, hlt⟩, hi', rfl⟩
    · rintro ⟨j, hj, hx⟩
      obtain ⟨rfl, rfl⟩ := Prod.mk.inj hx
      exact ⟨Vector.getElem?_eq_some_iff.2 ⟨j.isLt, hj⟩, _, Vector.getElem?_eq_getElem j.isLt, rfl⟩
  · rcases removeMin_cases hwParams h with ⟨he, hr⟩ | ⟨w, m, hm, hr⟩
    · simp [he, hr]
    · simp [hr, List.ne_nil_of_mem hm]
  · obtain ⟨hm, hleast, rfl⟩ := removeMin_eq_some hr
    exact ⟨hm, hleast, prioritySet_clear h m, rfl, rfl⟩

/-- Settles O26: this hardware's merge entry has the first removed on the right (R77). -/
theorem mergePlacesTheFirstRemovedRight : Obligations.MergePlacesTheFirstRemovedRight := by
  intro h h1 h2 fuel a b wa wb hlen ha hb
  rcases mergeLoop_cases hwParams fuel h with ⟨hle, -⟩ | ⟨-, hturn⟩
  · omega
  · rw [hturn, ha, Option.bind_some, hb, Option.bind_some]
    rfl
end

section
/-! The weights of the trees BUILD makes (R79), and why they are least in external path length (R81). -/

namespace Sys2Proof.Machine

/-! ## What a tree value weighs -/

/-- The weights of a tree, for a weight of each symbol. -/
def weigh (c : SymField → Nat) : CodeTree → WeightTree
  | .leaf v => .leaf (c v)
  | .node l r => .node (weigh c l) (weigh c r)

theorem leaves_weigh (c : SymField → Nat) (T : CodeTree) :
    (weigh c T).leaves = (T.symbols.map c : Multiset Nat) := by
  induction T with
  | leaf v => rfl
  | node l r ihl ihr => simp [weigh, WeightTree.leaves, CodeTree.symbols, ihl, ihr]

/-- The sum of the weights of the leaves. -/
def treeWeight (c : SymField → Nat) (T : CodeTree) : Nat := (T.symbols.map c).sum

theorem treeWeight_node (c : SymField → Nat) (l r : CodeTree) :
    treeWeight c (.node l r) = treeWeight c l + treeWeight c r := by simp [treeWeight, CodeTree.symbols]

theorem cost_weigh_node (c : SymField → Nat) (l r : CodeTree) :
    (weigh c (.node l r)).cost = (weigh c l).cost + (weigh c r).cost + (treeWeight c l + treeWeight c r) := by
  simp [weigh, WeightTree.cost, leaves_weigh, treeWeight]

/-- Below one more edge each leaf costs its weight more. -/
theorem sum_map_length_cons (c : SymField → Nat) (b : Bool) (T : CodeTree) :
    (((leafPaths T).map fun x => (x.1, b :: x.2)).map fun x => c x.1 * x.2.length).sum =
      ((leafPaths T).map fun x => c x.1 * x.2.length).sum + treeWeight c T := by
  rw [treeWeight, ← leafPaths_symbols, List.map_map, List.map_map, ← List.sum_map_add]
  rfl

/-- The weighted external path length counts each leaf once per edge above it (R81). -/
theorem pathLength_eq_cost (s : State) (T : CodeTree) : pathLength s T = (weigh (countOf s) T).cost := by
  induction T with
  | leaf v => simp [pathLength, leafPaths, weigh, WeightTree.cost]
  | node l r ihl ihr =>
    rw [cost_weigh_node, ← ihl, ← ihr, pathLength, leafPaths, List.map_append, List.sum_append,
      sum_map_length_cons, sum_map_length_cons, pathLength, pathLength]
    omega

/-! ## What the entries of the memory weigh -/

/-- The weight in an entry, 0 outside the memory. -/
def weightAt (m : Vector NodeEntry 513) (i : Nat) : Nat := (m[i]?.map fun e => e.weight.toNat).getD 0

theorem weightAt_eq {m : Vector NodeEntry 513} {i : Nat} {e : NodeEntry} (h : m[i]? = some e) :
    weightAt m i = e.weight.toNat := by rw [weightAt, h]; rfl

theorem weightAt_congr {m m' : Vector NodeEntry 513} {i : Nat} (h : m'[i]? = m[i]?) : weightAt m' i = weightAt m i := by
  rw [weightAt, h, weightAt]

/-- What R79 says of entry `i`: a leaf weighs what its symbol does; an internal node, the sum of its two children, which
have smaller indices (R80). -/
def EntryWeighed (c : SymField → Nat) (m : Vector NodeEntry 513) (i : Nat) (e : NodeEntry) : Prop :=
  (e.leaf = true → e.weight.toNat = c e.sym) ∧
    (e.leaf = false → e.left.toNat < i ∧ e.right.toNat < i ∧
      e.weight.toNat = weightAt m e.left.toNat + weightAt m e.right.toNat)

/-- R79 of each entry allocated. -/
def Heap.Weighed (c : SymField → Nat) (h : Heap) : Prop :=
  ∀ i e, i < h.n → h.node[i]? = some e → EntryWeighed c h.node i e

section
variable {c : SymField → Nat} {h : Heap}

/-- An entry of a heap with one more node is an old one or the new one. -/
theorem heapAdd_entry {e d : NodeEntry} {i : Nat} (hi : i < (heapAdd h e).n) (hd : (heapAdd h e).node[i]? = some d) :
    (i < h.n ∧ h.node[i]? = some d) ∨ (i = h.n ∧ d = e) := by
  rw [heapAdd_n] at hi
  rw [heapAdd_node, Vector.getElem?_setIfInBounds] at hd
  rcases Nat.lt_succ_iff_lt_or_eq.1 hi with hlt | rfl
  · exact .inl ⟨hlt, by simpa [hlt.ne'] using hd⟩
  · rw [if_pos rfl, Option.ite_none_right_eq_some] at hd
    exact .inr ⟨rfl, (Option.some_inj.1 hd.2).symm⟩

/-- Allocating one more entry as R79 says keeps it true of the others, whose children come before them. -/
theorem Heap.Weighed.addEntry (W : h.Weighed c) {e : NodeEntry} (he : EntryWeighed c h.node h.n e) :
    (heapAdd h e).Weighed c := by
  have hold : ∀ j < h.n, weightAt (heapAdd h e).node j = weightAt h.node j := fun j hj =>
    weightAt_congr (Vector.getElem?_setIfInBounds_ne hj.ne')
  have hkeep : ∀ i d, i ≤ h.n → EntryWeighed c h.node i d → EntryWeighed c (heapAdd h e).node i d := by
    rintro i d hi ⟨hleaf, hnode⟩
    refine ⟨hleaf, fun hd => ?_⟩
    obtain ⟨hl, hr, hw⟩ := hnode hd
    rw [hold _ (by omega), hold _ (by omega)]
    exact ⟨hl, hr, hw⟩
  intro i d hi hd
  rcases heapAdd_entry hi hd with ⟨hlt, hd⟩ | ⟨rfl, rfl⟩
  · exact hkeep i d hlt.le (W i d hlt hd)
  · exact hkeep _ _ le_rfl he

/-- The root of a stored tree weighs what its leaves do. -/
theorem Stored.weightAt_root {m : Vector NodeEntry 513} {T : CodeTree} {i : Nat} {js : List Nat} (hs : Stored m T i js)
    (hw : ∀ j ∈ js, ∀ e, m[j]? = some e → EntryWeighed c m j e) : weightAt m i = treeWeight c T := by
  induction hs with
  | @leaf i e he hl =>
    rw [weightAt_eq he, (hw i (by simp) e he).1 hl]
    simp [treeWeight, CodeTree.symbols]
  | @node i e l r js ks he hn _ _ ihl ihr =>
    obtain ⟨-, -, hsum⟩ := (hw i (by simp) e he).2 hn
    rw [weightAt_eq he, hsum, ihl fun j hj => hw j (by simp [hj]), ihr fun j hj => hw j (by simp [hj]),
      treeWeight_node]

variable {F : List Subtree}

/-- The root of a tree of the heap weighs what its leaves do. -/
theorem Heap.Holds.weightAt_root (H : h.Holds F) (W : h.Weighed c) {x : Subtree} (hx : x ∈ F) :
    weightAt h.node x.root = treeWeight c x.tree :=
  (H.stored x hx).weightAt_root fun j hj e he => W j e (H.lt_n hx hj) he

/-- What the leaves of a forest weigh is what its trees do. -/
theorem sum_forestSymbols (c : SymField → Nat) (F : List Subtree) :
    ((forestSymbols F).map c).sum = (F.map fun x => treeWeight c x.tree).sum := by
  induction F with
  | nil => rfl
  | cons x F ih => rw [forestSymbols_cons, List.map_append, List.sum_append, ih]; rfl

/-! ## A merge joins the two lightest trees -/

/-- No node in the priority set is lighter than the one RemoveMin takes out (R76). -/
theorem removeMin_lightest {h' : Heap} {w : Count} {m : Nat} (hr : removeMin hwParams h = some (w, m, h')) :
    w.toNat = weightAt h.node m ∧ (queue h).Perm (m :: queue h') ∧
      ∀ j ∈ queue h, weightAt h.node m ≤ weightAt h.node j := by
  obtain ⟨hm, hleast, rfl⟩ := removeMin_eq_some hr
  obtain ⟨-, d, hd, rfl⟩ := mem_prioritySet.1 hm
  refine ⟨(weightAt_eq hd).symm, queue_set_false (List.mem_map_of_mem hm) rfl, fun j hj => ?_⟩
  obtain ⟨⟨w, i⟩, hwi, rfl⟩ := List.mem_map.1 hj
  obtain ⟨-, e, he, rfl⟩ := mem_prioritySet.1 hwi
  rw [weightAt_eq hd, weightAt_eq he]
  rcases hleast _ hwi with heq | hlt | ⟨heq, -⟩
  · rw [(Prod.mk.inj heq).1]
  · exact hlt.le
  · exact heq.le

/-- The tree a merge makes of two: the one removed first on the right (R77), a new root in the next entry. -/
def joined (n : Nat) (x y : Subtree) : Subtree := ⟨.node y.tree x.tree, n, n :: (y.nodes ++ x.nodes)⟩

/-- The node a merge allocates weighs the sum of its children, if that does not wrap (R79). -/
theorem Heap.Weighed.addInner (W : h.Weighed c) (hn : h.n ≤ 513) {wa wb : Count} {a b : Nat} (ha : a < h.n)
    (hb : b < h.n) (hwa : wa.toNat = weightAt h.node a) (hwb : wb.toNat = weightAt h.node b)
    (hsum : wa.toNat + wb.toNat < 2 ^ 64) :
    (heapAdd h (innerEntry (wa + wb) (BitVec.ofNat 10 b) (BitVec.ofNat 10 a))).Weighed c := by
  refine W.addEntry ⟨nofun, fun _ => ?_⟩
  have hta : (BitVec.ofNat 10 a).toNat = a := Nat.mod_eq_of_lt (by omega)
  have htb : (BitVec.ofNat 10 b).toNat = b := Nat.mod_eq_of_lt (by omega)
  simp only [innerEntry, hta, htb, BitVec.toNat_add_of_lt hsum]
  exact ⟨hb, ha, by omega⟩

/-- One turn of the merge loop joins the lightest tree and the lightest of the others, and no sum wraps (R75, R79). -/
theorem Heap.Holds.merge_lightest (H : h.Holds F) (W : h.Weighed c) (htwo : 2 ≤ F.length)
    (hs : (forestSymbols F).length ≤ 257) (hsum : ((forestSymbols F).map c).sum < 2 ^ 64) (fuel : Nat) :
    ∃ x y G h', F.Perm (x :: y :: G) ∧ treeWeight c x.tree ≤ treeWeight c y.tree ∧
      (∀ z ∈ G, treeWeight c y.tree ≤ treeWeight c z.tree) ∧
      mergeLoop hwParams (fuel + 1) h = mergeLoop hwParams fuel h' ∧ h'.Holds (joined h.n x y :: G) ∧
      h'.Weighed c := by
  have hn := H.n_add_length
  have hlen := H.length_queue
  obtain ⟨wa, a, h1, wb, b, h2, hra, hrb, hq, hnode, hn2⟩ := removeMin_twice hwParams (h := h) (by omega)
  obtain ⟨hwa, -, hleasta⟩ := removeMin_lightest hra
  obtain ⟨hwb, hqb, hleastb⟩ := removeMin_lightest hrb
  obtain ⟨-, -, rfl⟩ := removeMin_eq_some hra
  obtain ⟨x, F₁, hx, rfl, hF₁⟩ := exists_perm_cons_of_perm_map (hq.symm.trans H.roots)
  obtain ⟨y, G, hy, rfl, hG⟩ := exists_perm_cons_of_perm_map hF₁
  have hF : F.Perm (x :: y :: G) := hx.trans (hy.cons _)
  have hroot : ∀ z ∈ x :: y :: G, weightAt h.node z.root = treeWeight c z.tree ∧ z.root < h.n := fun z hz =>
    have hz := hF.mem_iff.2 hz
    ⟨H.weightAt_root W hz, H.lt_n hz (H.stored z hz).root_mem⟩
  obtain ⟨hxw, hxn⟩ := hroot x (by simp)
  obtain ⟨hyw, hyn⟩ := hroot y (by simp)
  have hnowrap : wa.toNat + wb.toNat < 2 ^ 64 := by
    rw [sum_forestSymbols, (hF.map _).sum_eq, List.map_cons, List.map_cons, List.sum_cons, List.sum_cons] at hsum
    rw [hwa, hwb, hxw, hyw]
    omega
  refine ⟨x, y, G, heapAdd h2 (innerEntry (wa + wb) (BitVec.ofNat 10 y.root) (BitVec.ofNat 10 x.root)), hF, ?_,
    fun z hz => ?_, ?_, ?_, ?_⟩
  · rw [← hxw, ← hyw]
    exact hleasta _ (hq.mem_iff.2 (by simp))
  · obtain ⟨hzw, -⟩ := hroot z (by simp [hz])
    rw [← hyw, ← hzw]
    exact hleastb _ (hqb.mem_iff.2 (List.mem_cons_of_mem _ (hG.mem_iff.2 (List.mem_map_of_mem hz))))
  · exact mergePlacesTheFirstRemovedRight h _ h2 fuel _ _ wa wb (by rw [← queue_length]; omega) hra hrb
  · exact H.join (hF.trans (.swap _ _ _)) (hq.trans (.swap _ _ _)) hnode hn2 (by omega) rfl
      (Nat.mod_eq_of_lt (by omega)) (Nat.mod_eq_of_lt (by omega))
  · have W2 : h2.Weighed c := by
      rw [Heap.Weighed, hnode, hn2]
      exact W
    exact W2.addInner (by omega) (by omega) (by omega) (by rw [hnode, hwa]) (by rw [hnode, hwb]) hnowrap

/-! ## The merge loop is optimal (R81) -/

/-- The weights of the trees of a forest. -/
def forestWeights (c : SymField → Nat) (F : List Subtree) : Multiset Nat :=
  (F.map fun x => treeWeight c x.tree : List Nat)

/-- The weighted external path lengths of the trees of a forest, together. -/
def forestCost (c : SymField → Nat) (F : List Subtree) : Nat := (F.map fun x => (weigh c x.tree).cost).sum

/-- The merge loop ends with one tree of the leaves it began with. Putting the trees it began with together in any other
way, as the leaves of a tree `A`, costs as much or more. -/
theorem Heap.Holds.mergeLoop_optimal {fuel : Nat} (H : h.Holds F) (W : h.Weighed c) (h1 : 1 ≤ F.length)
    (hf : F.length ≤ fuel) (hs : (forestSymbols F).length ≤ 257) (hsum : ((forestSymbols F).map c).sum < 2 ^ 64) :
    ∃ h' x, mergeLoop hwParams fuel h = some h' ∧ h'.Holds [x] ∧ h'.Weighed c ∧
      x.tree.symbols.Perm (forestSymbols F) ∧
      ∀ A : WeightTree, A.leaves = forestWeights c F → (weigh c x.tree).cost ≤ A.cost + forestCost c F := by
  induction fuel generalizing h F with
  | zero => omega
  | succ fuel ih =>
    by_cases h2 : 2 ≤ F.length
    · obtain ⟨x, y, G, h', hF, hxy, hG, hturn, H', W'⟩ := H.merge_lightest W h2 hs hsum fuel
      have hlen : F.length = G.length + 2 := hF.length_eq
      have hsym : (forestSymbols (joined h.n x y :: G)).Perm (forestSymbols F) := by
        rw [joined, forestSymbols_join]
        exact forestSymbols_perm ((List.Perm.swap _ _ _).trans hF.symm)
      obtain ⟨g, u, hg, Hg, Wg, hu, hopt⟩ := ih H' W' (by simp) (by simp; omega) (by rwa [hsym.length_eq])
        (by rwa [(hsym.map c).sum_eq])
      refine ⟨g, u, hturn.trans hg, Hg, Wg, hu.trans hsym, fun A hA => ?_⟩
      have hA' : A.leaves = treeWeight c x.tree ::ₘ treeWeight c y.tree ::ₘ forestWeights c G :=
        hA.trans (Multiset.coe_eq_coe.2 (hF.map _))
      obtain ⟨B, hB, hBcost⟩ := WeightTree.exists_join_least hA' hxy (by simpa [forestWeights] using hG)
      have hcostF : forestCost c F = (weigh c x.tree).cost + ((weigh c y.tree).cost + forestCost c G) :=
        (hF.map _).sum_eq
      have hcostJ : forestCost c (joined h.n x y :: G) = (weigh c (joined h.n x y).tree).cost + forestCost c G := rfl
      have := hopt B (by rw [hB, add_comm, ← treeWeight_node]; rfl)
      rw [hcostJ, joined, cost_weigh_node] at this
      omega
    · obtain ⟨x, rfl⟩ := List.length_eq_one_iff.1 (show F.length = 1 by omega)
      have hq : (prioritySet h).length ≤ 1 := by rw [← queue_length, H.length_queue]; simp
      refine ⟨h, x, by rw [mergeLoop, if_pos hq], H, W, ?_, fun A _ => by simp [forestCost]⟩
      rw [forestSymbols_cons, forestSymbols, List.flatMap_nil, List.append_nil]

end

end Sys2Proof.Machine
end

section
/-! BUILD on a table as COUNT leaves it (R78, R79, R81). -/

namespace Sys2Proof.Machine

/-! ## The counts of the table -/

section
variable {s : State}

theorem countOf_symbol (s : State) (v : Symbol) : countOf s (BitVec.ofNat 9 v.val) = (s.freq[v]).toNat := by
  rw [countOf, symbolField_toNat]
  simp

theorem symbolField_inj {v w : Symbol} (h : BitVec.ofNat 9 v.val = BitVec.ofNat 9 w.val) : v = w :=
  Fin.ext (by rw [← symbolField_toNat v, h, symbolField_toNat])

/-- The table as BUILD's loop lists it. -/
theorem zipIdx_freq (s : State) : s.freq.toList.zipIdx = (List.finRange 257).map fun v => (s.freq[v], v.val) :=
  List.ext_getElem (by simp) (by simp)

/-- The leaves of R75 are the live symbols, ascending. -/
theorem tableFields_eq_map (s : State) : tableFields s.freq = (liveSymbols s).map fun v => BitVec.ofNat 9 v.val := by
  rw [tableFields, liveFields, zipIdx_freq, List.filterMap_map, liveSymbols, ← List.filterMap_eq_map,
    ← List.filterMap_eq_filter, List.filterMap_filterMap]
  congr 1
  funext v
  by_cases hv : s.freq[v.val] = 0#64 <;> simp [hv, Option.guard]

theorem tableFields_nodup (s : State) : (tableFields s.freq).Nodup := by
  rw [tableFields_eq_map]
  exact ((List.nodup_finRange 257).filter _).map fun v w => symbolField_inj

/-- A symbol has a leaf when its count is not 0 (R75). -/
theorem mem_tableFields_iff_countOf {v : SymField} : v ∈ tableFields s.freq ↔ countOf s v ≠ 0 := by
  rw [mem_tableFields]
  constructor
  · rintro ⟨w, hw, rfl⟩
    rw [countOf_symbol]
    simpa [← BitVec.toNat_inj] using hw
  · intro hv
    have hlt : v.toNat < 257 := by
      by_contra hge
      exact hv (by simp [countOf, hge])
    refine ⟨⟨v.toNat, hlt⟩, fun h0 => hv ?_, by simp⟩
    have := countOf_symbol s ⟨v.toNat, hlt⟩
    rw [h0] at this
    simpa using this

/-- The sum of the counts of the leaves is the number of bytes and the sentinel (R70, R71). -/
theorem sum_tableFields (h : TableOk s) : ((tableFields s.freq).map (countOf s)).sum = s.total.toNat + 1 := by
  obtain ⟨heos, -, hsum⟩ := h
  have hlive : ∀ l : List Symbol, ((l.filter fun v => decide (s.freq[v] ≠ 0)).map fun v => (s.freq[v]).toNat).sum =
      (l.map fun v => (s.freq[v]).toNat).sum := by
    intro l
    induction l with
    | nil => rfl
    | cons v l ih =>
      rw [List.filter_cons, List.map_cons, List.sum_cons, ← ih]
      by_cases hv : s.freq[v.val] = 0#64 <;> simp [hv]
  have hcount : (countOf s ∘ fun v : Symbol => BitVec.ofNat 9 v.val) = fun v => (s.freq[v]).toNat :=
    funext (countOf_symbol s)
  calc ((tableFields s.freq).map (countOf s)).sum
      = ((liveSymbols s).map fun v => (s.freq[v]).toNat).sum := by rw [tableFields_eq_map, List.map_map, hcount]
    _ = ((List.finRange 257).map fun v => (s.freq[v]).toNat).sum := hlive _
    _ = ((List.finRange 256).map fun b => (s.freq[b.castSucc]).toNat).sum + (s.freq[(256 : Symbol)]).toNat := by
        rw [List.finRange_succ_last, List.map_append, List.sum_append, List.map_map]
        rfl
    _ = s.total.toNat + 1 := by rw [hsum, show s.freq[(256 : Symbol)] = 1 from heos]; rfl

theorem sentinel_mem_tableFields (h : TableOk s) : (256 : SymField) ∈ tableFields s.freq :=
  mem_tableFields.2 ⟨256, by rw [show s.freq[(256 : Symbol)] = 1 from h.1]; decide, rfl⟩

/-- Only the table of the empty input has a single leaf (R78). -/
theorem tableFields_length_eq_one (h : TableOk s) : (tableFields s.freq).length = 1 ↔ s.total = 0 := by
  have hsum := sum_tableFields h
  have hpos := List.length_pos_of_mem (sentinel_mem_tableFields h)
  constructor
  · intro h1
    obtain ⟨v, hv⟩ := List.length_eq_one_iff.1 h1
    obtain rfl : 256 = v := by simpa [hv] using sentinel_mem_tableFields h
    have heos : countOf s 256 = 1 := (countOf_symbol s 256).trans (congrArg BitVec.toNat h.1)
    rw [hv, List.map_singleton, List.sum_singleton, heos] at hsum
    exact BitVec.eq_of_toNat_eq (by simpa using hsum.symm)
  · intro h0
    have hle := List.length_le_sum_of_one_le ((tableFields s.freq).map (countOf s)) (by
      intro n hn
      obtain ⟨v, hv, rfl⟩ := List.mem_map.1 hn
      exact Nat.one_le_iff_ne_zero.2 (mem_tableFields_iff_countOf.1 hv))
    rw [hsum, h0, List.length_map] at hle
    simp at hle
    omega

/-- In the empty input symbol 0 does not occur. -/
theorem countOf_zero_of_empty (h : TableOk s) (h0 : s.total = 0) : countOf s 0 = 0 := by
  obtain ⟨v, hv⟩ := List.length_eq_one_iff.1 ((tableFields_length_eq_one h).2 h0)
  obtain rfl : 256 = v := by simpa [hv] using sentinel_mem_tableFields h
  by_contra hne
  have := mem_tableFields_iff_countOf.2 hne
  rw [hv] at this
  simp at this

/-- The leaves BUILD begins with (R75, R78). -/
theorem buildFields_eq (h : TableOk s) :
    buildFields hwParams s.freq = if s.total = 0 then 0 :: tableFields s.freq else tableFields s.freq := by
  rw [buildFields]
  simp only [tableFields_length_eq_one h]
  rfl

theorem buildFields_nodup (h : TableOk s) : (buildFields hwParams s.freq).Nodup := by
  rw [buildFields_eq h]
  split
  · rename_i h0
    exact List.nodup_cons.2 ⟨fun hm => mem_tableFields_iff_countOf.1 hm (countOf_zero_of_empty h h0),
      tableFields_nodup s⟩
  · exact tableFields_nodup s

theorem mem_buildFields_iff (h : TableOk s) {v : SymField} :
    v ∈ buildFields hwParams s.freq ↔ countOf s v ≠ 0 ∨ (s.total = 0 ∧ v = 0) := by
  rw [buildFields_eq h, ← mem_tableFields_iff_countOf]
  by_cases h0 : s.total = 0
  · rw [if_pos h0]
    simp [h0, or_comm]
  · rw [if_neg h0]
    exact ⟨.inl, fun hv => hv.resolve_right fun hv => h0 hv.1⟩

theorem sum_buildFields (h : TableOk s) :
    ((buildFields hwParams s.freq).map (countOf s)).sum = s.total.toNat + 1 := by
  rw [← sum_tableFields h, buildFields_eq h]
  split
  · rename_i h0
    rw [List.map_cons, List.sum_cons, countOf_zero_of_empty h h0, Nat.zero_add]
  · rfl
end

/-! ## The heap before the merges -/

/-- Each entry allocated is a leaf that weighs its count. -/
def Heap.OnlyLeaves (c : SymField → Nat) (h : Heap) : Prop :=
  ∀ i e, i < h.n → h.node[i]? = some e → e.leaf = true ∧ e.weight.toNat = c e.sym

section
variable {c : SymField → Nat} {h : Heap} {F : List Subtree}

theorem Heap.OnlyLeaves.weighed (L : h.OnlyLeaves c) : h.Weighed c := fun i e hi he =>
  ⟨fun _ => (L i e hi he).2, fun hn => by rw [(L i e hi he).1] at hn; cases hn⟩

theorem Heap.OnlyLeaves.addLeaf (L : h.OnlyLeaves c) {v : SymField} {w : Count} (hw : w.toNat = c v) :
    (heapAdd h (leafEntry v w)).OnlyLeaves c := by
  intro i e hi he
  rcases heapAdd_entry hi he with ⟨hlt, he⟩ | ⟨-, rfl⟩
  · exact L i e hlt he
  · exact ⟨rfl, hw⟩

/-- A tree stored at a leaf entry is a leaf. -/
theorem Stored.eq_leaf {m : Vector NodeEntry 513} {T : CodeTree} {i : Nat} {js : List Nat} (hs : Stored m T i js)
    (hl : ∀ e, m[i]? = some e → e.leaf = true) : ∃ v, T = .leaf v := by
  cases hs with
  | leaf => exact ⟨_, rfl⟩
  | node he hn => rw [hl _ he] at hn; cases hn

/-- The trees of such a heap are leaves: they weigh what their symbols do and cost nothing. -/
theorem Heap.Holds.of_onlyLeaves (H : h.Holds F) (L : h.OnlyLeaves c) :
    forestWeights c F = ((forestSymbols F).map c : List Nat) ∧ forestCost c F = 0 := by
  have hleaf : ∀ x ∈ F, ∃ v, x.tree = .leaf v := fun x hx =>
    (H.stored x hx).eq_leaf fun e he => (L _ e (H.lt_n hx (H.stored x hx).root_mem) he).1
  clear H
  induction F with
  | nil => exact ⟨rfl, rfl⟩
  | cons x F ih =>
    obtain ⟨v, hv⟩ := hleaf x (by simp)
    obtain ⟨hw, hc⟩ := ih fun y hy => hleaf y (by simp [hy])
    constructor
    · rw [forestSymbols_cons, hv]
      simp [CodeTree.symbols, ← Multiset.cons_coe, ← hw, forestWeights, hv, treeWeight]
    · rw [forestCost, List.map_cons, List.sum_cons, hv, ← forestCost, hc]
      rfl
end

/-- The loop of R75 over the symbols allocates a leaf for each live one, of the weight of its count. -/
theorem onlyLeaves_addLeaves (s : State) (m : Vector NodeEntry 513) (q : Vector Bool 513) :
    (addLeaves s.freq ⟨m, q, 0⟩).OnlyLeaves (countOf s) := by
  refine List.foldlRecOn _ _ (fun i e hi => absurd hi (Nat.not_lt_zero i)) fun h L x hx => ?_
  split
  · exact L
  · obtain ⟨hlt, hw⟩ := Vector.getElem?_eq_some_iff.1
      (show s.freq[x.2]? = some x.1 by simpa using List.mk_mem_zipIdx_iff_getElem?.1 hx)
    refine L.addLeaf ?_
    rw [← hw]
    exact (countOf_symbol s ⟨x.2, hlt⟩).symm

/-- It allocates as many as there are live symbols. -/
theorem addLeaves_n (f : Vector Count 257) (h : Heap) : (addLeaves f h).n = h.n + (tableFields f).length := by
  rw [addLeaves, tableFields]
  induction f.toList.zipIdx generalizing h with
  | nil => rfl
  | cons x l ih =>
    rw [List.foldl_cons, ih]
    by_cases hx : x.1 = 0#64
    · simp [liveFields, hx]
    · simp [liveFields, hx]
      omega

theorem onlyLeaves_initialHeap {s : State} (h : TableOk s) : (initialHeap hwParams s).OnlyLeaves (countOf s) := by
  have L := onlyLeaves_addLeaves s s.node (Vector.replicate 513 false)
  rw [initialHeap]
  split
  · rename_i h1
    rw [addLeaves_n, Nat.zero_add, tableFields_length_eq_one h] at h1
    exact L.addLeaf (countOf_zero_of_empty h h1).symm
  · exact L

/-! ## The command -/

/-- No tree with the same leaves has a smaller weighted external path length (R81). -/
def Optimal (s : State) (T : CodeTree) : Prop :=
  ∀ T' : CodeTree, T'.symbols.Perm T.symbols → pathLength s T ≤ pathLength s T'

/-- What BUILD's body leaves on a table as COUNT leaves it (R75): a stored tree of the leaves of R75 and R78, weighed as
R79 says, and optimal. -/
theorem buildBody_table {s : State} (h : TableOk s) :
    ∃ (g : Heap) (T : CodeTree) (js : List Nat) (r : Nat), buildBody hwParams s =
        .done (withTree (withInq (withNode s g.node) g.inq) (BitVec.ofNat 10 r) (BitVec.ofNat 10 (r + 1))) ∧
      r + 1 = g.n ∧ r < 513 ∧ Stored g.node T r js ∧ T.size ≤ 513 ∧ T.symbols.Perm (buildFields hwParams s.freq) ∧
      g.Weighed (countOf s) ∧ weightAt g.node r = s.total.toNat + 1 ∧ Optimal s T := by
  have hne : tableFields s.freq ≠ [] := List.ne_nil_of_mem (sentinel_mem_tableFields h)
  have htotal : s.total.toNat ≤ 2 ^ 64 - 2 := h.2.1
  have hsum := sum_buildFields h
  obtain ⟨F, H, hs⟩ := initialHeap_holds hwParams s hne
  obtain ⟨h2, h257⟩ := buildFields_length hwParams hne
  have L := onlyLeaves_initialHeap h
  obtain ⟨hweights, hcost⟩ := H.of_onlyLeaves L
  have hn := H.n_add_length
  have hle := length_le_forestSymbols F
  rw [hs.length_eq] at hn hle
  have hpos : 1 ≤ F.length := by
    by_contra hF
    have hnil : (forestSymbols F).length = 0 := by rw [List.length_eq_zero_iff.1 (show F.length = 0 by omega)]; rfl
    have := hs.length_eq
    omega
  obtain ⟨g, x, hg, Hg, W, hx, hopt⟩ := H.mergeLoop_optimal L.weighed hpos (fuel := 513) (by omega)
    (by rw [hs.length_eq]; exact h257) (by rw [(hs.map _).sum_eq, hsum]; omega)
  have hroot : x.root + 1 = g.n := Hg.newest x rfl
  have hgn := Hg.n_add_length
  have hsize := size_add_one x.tree
  have hsym := hx.trans hs
  simp only [forestSymbols, List.flatMap_singleton, List.length_singleton, hsym.length_eq] at hgn hsize
  refine ⟨g, x.tree, x.nodes, x.root, ?_, hroot, by omega, Hg.stored x (by simp), by omega, hsym, W, ?_,
    fun T' hT' => ?_⟩
  · simp only [buildBody, if_neg (show (initialHeap hwParams s).n ≠ 0 by omega), hg, ← hroot, Nat.add_sub_cancel]
  · rw [Hg.weightAt_root W (by simp), treeWeight, (hsym.map _).sum_eq, hsum]
  · rw [pathLength_eq_cost, pathLength_eq_cost]
    have := hopt (weigh (countOf s) T') (by
      rw [hweights, leaves_weigh]
      exact Multiset.coe_eq_coe.2 ((hT'.trans hx).map _))
    omega

/-- A ready block with a valid table accepts BUILD (R113, R114). -/
theorem exec_build_ready {s : State} (hr : Ready s) (hf : freqValid s.status = true) :
    exec .build s = finish (buildStage hwParams (withStatus (acknowledge s) (clearTreeCode (acknowledge s).status))) :=
  accept_ready hr ((freqValid_acknowledge s).trans hf)

/-- BUILD on a table as COUNT leaves it. -/
theorem exec_build_table {s : State} (hr : Ready s) (hf : freqValid s.status = true) (h : TableOk s) :
    ∃ t T, exec .build s = .next t ∧ currentTree t = some T ∧ T.symbols.Perm (buildFields hwParams s.freq) ∧
      (Heap.mk t.node t.inq t.nnodes.toNat).Weighed (countOf s) ∧ weightAt t.node t.root.toNat = s.total.toNat + 1 ∧
      Optimal s T := by
  obtain ⟨g, T, js, r, hb, hn, hlt, hst, hsize, hsym, W, hroot, hopt⟩ :=
    buildBody_table (s := withStatus (acknowledge s) (clearTreeCode (acknowledge s).status)) h
  have hrt : (BitVec.ofNat 10 r).toNat = r := Nat.mod_eq_of_lt (by omega)
  have hnt : (BitVec.ofNat 10 (r + 1)).toNat = g.n := by rw [← hn]; exact Nat.mod_eq_of_lt (by omega)
  have hexec := exec_build_ready hr hf
  rw [buildStage, hb, andThen_done] at hexec
  refine ⟨_, T, hexec, hst.currentTree_eq hsize hrt, hsym,
    ?_, ?_, hopt⟩
  · intro i e hi he
    exact W i e (hnt ▸ hi) he
  · exact (congrArg (weightAt g.node) hrt).trans hroot

end Sys2Proof.Machine

open Sys2Proof.Machine

/-- Settles O28: the merges keep each entry weighed as R79 says, so the root weighs what the leaves do, which is the sum
of the counts. -/
theorem builtTreeMatchesTheTable : Obligations.BuiltTreeMatchesTheTable := by
  intro s hr hf h
  obtain ⟨t, T, hexec, hT, hsym, W, hroot, -⟩ := exec_build_table hr hf h
  have hmem : ∀ v, v ∈ T.symbols ↔ countOf s v ≠ 0 ∨ (s.total = 0 ∧ v = 0) := fun v =>
    hsym.mem_iff.trans (mem_buildFields_iff h)
  have hat : ∀ i : Fin 513, t.node[i.val]? = some t.node[i] := fun i => Vector.getElem?_eq_getElem i.isLt
  refine ⟨t, T, hexec, hT, hsym.nodup_iff.2 (buildFields_nodup h),
    (hmem _).2 (.inl (mem_tableFields_iff_countOf.1 (sentinel_mem_tableFields h))), hmem,
    fun i hi hl => (W i _ hi (hat i)).1 hl, fun i l r hi hn hl hr => ?_, fun i hi => ?_⟩
  · obtain ⟨-, -, hw⟩ := (W i _ hi (hat i)).2 hn
    rw [hw, ← hl, ← hr, weightAt_eq (hat l), weightAt_eq (hat r)]
  · rw [← weightAt_eq (hat i), hi, hroot]

/-- Settles O31: each merge joins the two lightest trees of the forest, which loses nothing against any other tree. -/
theorem builtTreeIsOptimal : Obligations.BuiltTreeIsOptimal := by
  intro s t T T' hr hf h hexec hT hT'
  obtain ⟨u, U, hu, hU, -, -, -, hopt⟩ := exec_build_table hr hf h
  obtain rfl : u = t := by simpa [hu] using hexec
  obtain rfl : U = T := Option.some_inj.1 (hU.symm.trans hT)
  exact hopt T' hT'
end

section
/-! BUILD on the two smallest tables (R78): the empty input's, and those of one byte value. -/

namespace Sys2Proof.Machine

/-! ## The empty input -/

/-- The leaves of R75, one per live symbol, in ascending order. -/
theorem addLeaves_eq_foldl (s : State) (h : Heap) :
    addLeaves s.freq h =
      (liveSymbols s).foldl (fun h v => heapAdd h (leafEntry (BitVec.ofNat 9 v.val) s.freq[v])) h := by
  rw [liveSymbols, List.foldl_filter, addLeaves, zipIdx_freq, List.foldl_map]
  congr 1
  funext h v
  by_cases hv : s.freq[v.val] = 0#64 <;> simp [hv]

/-- RemoveMin, once the first element is known. -/
theorem removeMin_of_firstOf {p : Config.Params} {h : Heap} {w : Count} {m : Nat}
    (hf : firstOf p (prioritySet h) = some (w, m)) :
    removeMin p h = some (w, m, ⟨h.node, h.inq.setIfInBounds m false, h.n⟩) := by
  rw [removeMin, hf]

/-- The heap before the merge of the empty input's tree. -/
def emptyHeap (m : Vector NodeEntry 513) : Heap :=
  heapAdd (heapAdd ⟨m, Vector.replicate 513 false, 0⟩ (leafEntry 256 1)) (leafEntry 0 0)

/-- The node memory after it (R78). -/
def emptyTree (m : Vector NodeEntry 513) : Vector NodeEntry 513 :=
  (emptyHeap m).node.setIfInBounds 2 (innerEntry 1 0 1)

theorem initialHeap_empty {s : State} (h : ∀ v : Symbol, s.freq[v] = if v = eosSymbol then 1 else 0) :
    initialHeap hwParams s = emptyHeap s.node := by
  have hlive : liveSymbols s = [eosSymbol] := by
    have hfilter : liveSymbols s = (List.finRange 257).filter fun v => decide (v = eosSymbol) :=
      List.filter_congr fun v _ => by rw [h v]; split <;> simp [*]
    rw [hfilter, List.filter_eq, List.count_eq_one_of_mem (List.nodup_finRange 257) (List.mem_finRange _)]
    rfl
  have hadd : addLeaves s.freq ⟨s.node, Vector.replicate 513 false, 0⟩ =
      heapAdd ⟨s.node, Vector.replicate 513 false, 0⟩ (leafEntry 256 1) := by
    rw [addLeaves_eq_foldl, hlive, List.foldl_cons, List.foldl_nil, h eosSymbol]
    rfl
  rw [initialHeap, hadd]
  rfl

theorem prioritySet_emptyHeap (m : Vector NodeEntry 513) : prioritySet (emptyHeap m) = [(1, 0), (0, 1)] := by
  have h0 : prioritySet ⟨m, Vector.replicate 513 false, 0⟩ = [] := by
    rw [← List.length_eq_zero_iff, ← queue_length, (holds_nil m).length_queue, List.length_nil]
  have h1 := prioritySet_heapAdd (h := ⟨m, Vector.replicate 513 false, 0⟩) (by simp) (by simp [h0]) (leafEntry 256 1)
  rw [h0, List.nil_append] at h1
  rw [emptyHeap, prioritySet_heapAdd (by simp) (by rw [h1]; simp), h1]
  rfl

/-- A merge of the only two nodes ends the loop: they become the children of the next (R77, R78). -/
theorem mergeLoop_two {h : Heap} (hset : prioritySet h = [(1, 0), (0, 1)]) (hn : h.n < 513) (fuel : Nat) :
    ∃ q, mergeLoop hwParams (fuel + 2) h = some ⟨h.node.setIfInBounds h.n (innerEntry 1 0 1), q, h.n + 1⟩ := by
  have ha := removeMin_of_firstOf (p := hwParams) (h := h) (w := 0) (m := 1) (by rw [hset]; decide)
  have hset1 : prioritySet ⟨h.node, h.inq.setIfInBounds 1 false, h.n⟩ = [(1, 0)] := by
    rw [prioritySet_clear, hset]
    rfl
  have hb := removeMin_of_firstOf (p := hwParams) (w := 1) (m := 0) (by rw [hset1]; decide)
  have hset2 := prioritySet_clear ⟨h.node, h.inq.setIfInBounds 1 false, h.n⟩ 0
  rw [hset1] at hset2
  replace hset2 := hset2.trans (show _ = [] from rfl)
  rw [mergePlacesTheFirstRemovedRight _ _ _ (fuel + 1) _ _ _ _ (by rw [hset]; decide) ha hb, mergeLoop, if_pos]
  · exact ⟨_, rfl⟩
  · rw [prioritySet_heapAdd (by exact hn) (by simp [hset2]), hset2]
    simp

/-- BUILD of the empty input's table (R78). -/
theorem buildStage_empty {s : State} (h : ∀ v : Symbol, s.freq[v] = if v = eosSymbol then 1 else 0) :
    ∃ q, buildStage hwParams s =
      .done (withStatus (withTree (withInq (withNode s (emptyTree s.node)) q) 2 3) (setTreeValid s.status true)) := by
  obtain ⟨q, hq⟩ := mergeLoop_two (prioritySet_emptyHeap s.node) (by simp [emptyHeap]) 511
  have hne : (initialHeap hwParams s).n ≠ 0 := by simp [initialHeap_empty h, emptyHeap]
  refine ⟨q, ?_⟩
  rw [buildStage, buildBody, if_neg hne, initialHeap_empty h, hq]
  rfl

/-- BUILD as a command on the empty input's table: the block is ready for GENCODES. -/
theorem exec_build_empty {s : State} (hr : Ready s) (hf : freqValid s.status = true)
    (h : ∀ v : Symbol, s.freq[v] = if v = eosSymbol then 1 else 0) :
    ∃ t, exec .build s = .next t ∧ t.node = emptyTree s.node ∧ t.root = 2 ∧ t.nnodes = 3 ∧ Ready t ∧
      treeValid t.status = true := by
  obtain ⟨q, hq⟩ := buildStage_empty (s := withStatus (acknowledge s) (clearTreeCode (acknowledge s).status)) h
  have hexec := exec_build_ready hr hf
  rw [hq] at hexec
  exact ⟨_, hexec, rfl, rfl, rfl, ⟨by simp [complete], by simp [complete, clearTreeCode, clearCode, hr.2]⟩,
    by simp [complete]⟩

theorem emptyTree_entries (m : Vector NodeEntry 513) :
    (emptyTree m)[0] = leafEntry 256 1 ∧ (emptyTree m)[1] = leafEntry 0 0 ∧ (emptyTree m)[2] = innerEntry 1 0 1 := by
  simp [emptyTree, emptyHeap]

/-- The tree the empty input's table gives: the sentinel on the left, the synthesized leaf on the right. -/
theorem currentTree_empty {s : State} {m : Vector NodeEntry 513} (hn : s.node = emptyTree m) (hr : s.root = 2) :
    currentTree s = some (.node (.leaf 256) (.leaf 0)) := by
  obtain ⟨h0, h1, h2⟩ := emptyTree_entries m
  have hst : Stored s.node (.node (.leaf 256) (.leaf 0)) 2 (2 :: ([0] ++ [1])) := by
    rw [hn]
    exact .node (e := innerEntry 1 0 1) (by simp [h2]) rfl (.leaf (e := leafEntry 256 1) (by simp [innerEntry, h0]) rfl)
      (.leaf (e := leafEntry 0 0) (by simp [innerEntry, h1]) rfl)
  exact hst.currentTree_eq (by decide) (by rw [hr]; rfl)

/-- GENCODES as a command, on a tree that RDHDR accepts (R85): the codes are the paths of the leaves. -/
theorem exec_gencodes_spec {s : State} {T : CodeTree} (hr : Ready s) (ht : treeValid s.status = true)
    (hT : currentTree s = some T) (hw : T.wf = true) : ∃ t, exec .gencodes s = .next t ∧ CodesOf T t.code := by
  have hexec : exec .gencodes s = finish (gencodesStage _) := accept_ready hr ((treeValid_acknowledge s).trans ht)
  rw [gencodesStage_eq (by exact hT) hw] at hexec
  exact ⟨_, hexec, codesOf_walk (wf_iff.1 hw).2.2⟩

/-! ## One byte value -/

/-- The table of an input of one byte value has a leaf for it and for the sentinel. -/
theorem tableFields_one_byte {s : State} {b : Byte}
    (h : ∀ v : Symbol, s.freq[v] ≠ 0 ↔ v = eosSymbol ∨ v = byteSymbol b) :
    (tableFields s.freq).Perm [b.setWidth 9, 256] := by
  have hb : BitVec.ofNat 9 (byteSymbol b).val = b.setWidth 9 := BitVec.ofNat_toNat 9 b
  have hne : b.setWidth 9 ≠ (256 : SymField) := fun heq =>
    byteSymbol_ne_eos b (symbolField_inj (hb.trans heq))
  refine (List.perm_ext_iff_of_nodup (tableFields_nodup s) (by simpa using hne)).2 fun x => ?_
  simp only [mem_tableFields, h, List.mem_cons, List.not_mem_nil, or_false]
  constructor
  · rintro ⟨v, rfl | rfl, rfl⟩
    · exact .inr rfl
    · exact .inl hb
  · rintro (rfl | rfl)
    · exact ⟨_, .inr rfl, hb.symm⟩
    · exact ⟨_, .inl rfl, rfl⟩

end Sys2Proof.Machine

open Sys2Proof.Machine

/-- Settles O30: the empty input's BUILD runs to its one merge, and GENCODES records the two paths; with one byte value
the two leaves of the table are the leaves of the tree. -/
theorem emptyInputGetsASecondLeaf : Obligations.EmptyInputGetsASecondLeaf := by
  refine ⟨fun s hr hf h => ?_, fun s b hr hf h => ?_⟩
  · obtain ⟨t, ht, hnode, hroot, hn, hready, htree⟩ := exec_build_empty hr hf h
    obtain ⟨u, hu, hcodes⟩ := exec_gencodes_spec hready htree (currentTree_empty hnode hroot) (by decide)
    obtain ⟨h0, h1, h2⟩ := emptyTree_entries s.node
    rw [← hnode] at h0 h1 h2
    exact ⟨t, u, ht, h0, h1, h2, hroot, hn, hu, (hcodes eosSymbol).2.1, (hcodes 0).2.1⟩
  · have hne : tableFields s.freq ≠ [] := List.ne_nil_of_mem (mem_tableFields.2 ⟨_, (h _).2 (.inl rfl), rfl⟩)
    have hlive := tableFields_one_byte h
    obtain ⟨m, q, T, js, n, hb, hst, hjs, hsym⟩ :=
      buildBody_spec hwParams (s := withStatus (acknowledge s) (clearTreeCode (acknowledge s).status)) hne
    have hbuild := exec_build_ready hr hf
    rw [buildStage, hb, andThen_done] at hbuild
    replace hsym : T.symbols.Perm [b.setWidth 9, 256] := by
      refine (hsym.trans (.of_eq ?_)).trans hlive
      exact if_neg (hlive.length_eq.trans_ne (show 2 ≠ 1 by decide))
    have hsize := size_add_one T
    have hn := hst.length_eq.symm.trans hjs.length_eq.symm
    rw [hsym.length_eq] at hsize
    simp only [List.length_range, List.length_cons, List.length_nil] at hn hsize
    obtain rfl : n = 2 := by omega
    exact ⟨_, T, hbuild, rfl, hst.currentTree_eq (by omega) rfl, hsym⟩
end

section
/-! The tree of a well-formed node memory (R18, R19): the walk of item 4 lists the entries one tree stands in. -/

namespace Sys2Proof.Machine

/-- The entries that the walk of R18 item 4 visits hold a tree. -/
theorem stored_of_indicesAt {m : Vector NodeEntry 513} {f i : Nat} {js : List Nat} (h : indicesAt m f i = some js) :
    ∃ T, Stored m T i js := by
  induction f generalizing i js with
  | zero => cases h
  | succ f ih =>
    rw [indicesAt] at h
    split at h
    · cases h
    · rename_i e he
      split at h
      · rename_i hleaf
        cases h
        exact ⟨_, .leaf he hleaf⟩
      · rename_i hinner
        split at h
        · rename_i jl jr hl hr
          cases h
          obtain ⟨l, hl⟩ := ih hl
          obtain ⟨r, hr⟩ := ih hr
          exact ⟨_, .node he (by simpa using hinner) hl hr⟩
        · cases h

section
variable {m : Vector NodeEntry 513} {T : CodeTree} {i : Nat} {js : List Nat}

/-- The symbols of a stored tree are those of its leaf entries. -/
theorem Stored.exists_leaf_of_mem_symbols (h : Stored m T i js) {v : SymField} (hv : v ∈ T.symbols) :
    ∃ j ∈ js, ∃ e, m[j]? = some e ∧ e.leaf = true ∧ e.sym = v := by
  induction h with
  | leaf he hleaf => exact ⟨_, by simp, _, he, hleaf, (List.mem_singleton.1 hv).symm⟩
  | node _ _ _ _ ihl ihr =>
    rw [CodeTree.symbols, List.mem_append] at hv
    rcases hv with hv | hv
    · obtain ⟨j, hj, hleaf⟩ := ihl hv
      exact ⟨j, by simp [hj], hleaf⟩
    · obtain ⟨j, hj, hleaf⟩ := ihr hv
      exact ⟨j, by simp [hj], hleaf⟩

/-- A tree that stands at an internal entry has an internal root. -/
theorem Stored.rootInternal_of_inner (h : Stored m T i js) (hi : m[i]?.map NodeEntry.leaf = some false) :
    T.rootInternal = true := by
  cases h with
  | leaf he hleaf => simp [he, hleaf] at hi
  | node => rfl

end

/-- A well-formed node memory holds a tree at `ROOT`, in the entries below `NNODES`, and the tree meets the checks of
R102. -/
theorem stored_of_treeWF {s : State} (h : TreeWF s) :
    ∃ T js, Stored s.node T s.root.toNat js ∧ js.Perm (List.range s.nnodes.toNat) ∧ T.wf = true := by
  obtain ⟨⟨hpos, hle, -⟩, hinner, -, hperm, hsym⟩ := h
  cases hjs : indicesAt s.node 513 s.root.toNat with
  | none =>
    have hlen := hperm.length_eq
    simp only [hjs, Option.getD_none, List.length_nil, List.length_range] at hlen
    omega
  | some js =>
    rw [hjs, Option.getD_some] at hperm
    obtain ⟨T, hT⟩ := stored_of_indicesAt hjs
    refine ⟨T, js, hT, hperm, wf_iff.2 ⟨hT.rootInternal_of_inner hinner, fun v hv => ?_, ?_⟩⟩
    · obtain ⟨j, hj, e, he, hleaf, rfl⟩ := hT.exists_leaf_of_mem_symbols hv
      obtain ⟨hlt, rfl⟩ := Vector.getElem?_eq_some_iff.1 he
      exact hsym ⟨j, hlt⟩ (List.mem_range.1 (hperm.mem_iff.1 hj)) hleaf
    · rwa [← hT.length_eq, hperm.length_eq, List.length_range]

/-- A well-formed node memory has a current tree, which meets the checks of R102. -/
theorem currentTree_of_treeWF {s : State} (h : TreeWF s) : ∃ T, currentTree s = some T ∧ T.wf = true := by
  obtain ⟨T, js, hT, -, hwf⟩ := stored_of_treeWF h
  obtain ⟨-, -, hsize⟩ := wf_iff.1 hwf
  exact ⟨T, hT.currentTree_eq hsize rfl, hwf⟩

end Sys2Proof.Machine
end

section
/-! GENCODES as a command (R85, R87): the table of leaf paths and the end of the command; and that no leaf path begins
another (R86). -/

namespace Sys2Proof.Machine

/-! ## What GENCODES leaves -/

/-- What GENCODES leaves inside the command, on the current tree `T`: the code memory `Walk` makes (R85), and
`CODE_VALID` set (R117). -/
def coded (T : CodeTree) (s : State) : State :=
  withStatus (withCode s (walk T 0 0 (Vector.replicate 257 ⟨0, 0⟩))) (setCodeValid s.status true)

/-- A ready block with a tree that RDHDR accepts answers GENCODES with the code memory of that tree (R113, R115). -/
theorem exec_gencodes_eq {s : State} {T : CodeTree} (hr : Ready s) (ht : treeValid s.status = true)
    (hT : currentTree s = some T) (hw : T.wf = true) :
    exec .gencodes s = .next (complete (coded T (withStatus (acknowledge s) (clearCode (acknowledge s).status)))) := by
  have haccept : exec .gencodes s = finish (gencodesStage _) := accept_ready hr ((treeValid_acknowledge s).trans ht)
  rw [haccept, gencodesStage_eq (by exact hT) hw]
  rfl

/-- GENCODES completes with `TREE_VALID` kept and `CODE_VALID` set (R115, R117). -/
theorem succeeded_coded {s : State} (hr : Ready s) (ht : treeValid s.status = true) (T : CodeTree) :
    Succeeded s (complete (coded T (withStatus (acknowledge s) (clearCode (acknowledge s).status))))
      (freqValid s.status) true true := by
  obtain ⟨-, hfault⟩ := hr
  simp [Succeeded, FlagsAre, complete, coded, clearCode, hfault, ht]

/-! ## Which symbols have a code -/

/-- A symbol with a code of some length has a leaf (R85). -/
theorem CodesOf.mem_symbols {T : CodeTree} {m : Vector CodeEntry 257} (h : CodesOf T m) {v : Symbol}
    (hv : m[v].len ≠ 0) : BitVec.ofNat 9 v.val ∈ T.symbols := by
  obtain ⟨hlen, -, -⟩ := h v
  cases hq : lastPath T v with
  | none =>
    rw [hq] at hlen
    exact absurd (BitVec.eq_of_toNat_eq hlen) hv
  | some q =>
    rw [← leafPaths_symbols]
    exact List.mem_map_of_mem (mem_leafPaths_of_lastPath hq)

/-! ## No leaf path begins another (R86) -/

/-- A leaf has no descendants: a leaf whose path begins another leaf's path is that leaf. -/
theorem eq_of_path_prefix {T : CodeTree} {x y : SymField × Bits} (hx : x ∈ leafPaths T) (hy : y ∈ leafPaths T)
    (h : x.2 <+: y.2) : x = y := by
  induction T generalizing x y with
  | leaf v =>
    rw [leafPaths, List.mem_singleton] at hx hy
    rw [hx, hy]
  | node l r ihl ihr =>
    obtain ⟨b, q, hxq, hx'⟩ := mem_leafPaths_node hx
    obtain ⟨c, p, hyp, hy'⟩ := mem_leafPaths_node hy
    rw [hxq, hyp, List.cons_prefix_cons] at h
    obtain ⟨rfl, hqp⟩ := h
    have heq : (x.1, q) = (y.1, p) := by
      cases b with
      | false => exact ihl hx' hy' hqp
      | true => exact ihr hx' hy' hqp
    obtain ⟨hsym, rfl⟩ := Prod.mk.inj heq
    exact Prod.ext hsym (hxq.trans hyp.symm)

end Sys2Proof.Machine

open Sys2Proof.Machine

/-- Settles O32: the well-formed node memory holds a tree, and `Walk` over it records the path of each symbol's last
leaf. -/
theorem gencodesRecordsLeafPaths : Obligations.GencodesRecordsLeafPaths := by
  intro s hr ht h
  obtain ⟨T, hT, hwf⟩ := currentTree_of_treeWF h
  obtain ⟨hroot, -, hsize⟩ := wf_iff.1 hwf
  have hcodes := codesOf_walk hsize
  exact ⟨_, T, hT, exec_gencodes_eq hr ht hT hwf, succeeded_coded hr ht T, hcodes,
    fun v => ⟨hcodes.mem_symbols, hcodes.len_ne_zero hroot⟩, ⟨rfl, rfl⟩, rfl, ⟨rfl, rfl⟩,
    rfl, rfl, rfl, rfl, ⟨rfl, rfl⟩⟩

/-- Settles O33: the two codewords are paths of leaves, and a leaf whose path begins another's is that leaf, so the two
symbols are one. -/
theorem codewordsArePrefixFree : Obligations.CodewordsArePrefixFree := by
  intro s t hr ht h hexec v w hvw hv hw hprefix
  obtain ⟨T, hT, hwf⟩ := currentTree_of_treeWF h
  obtain ⟨u, hu, hcodes⟩ := exec_gencodes_spec hr ht hT hwf
  obtain rfl : u = t := by simpa [hu] using hexec
  have heq := eq_of_path_prefix (hcodes.mem_leafPaths (hcodes.mem_symbols hv))
    (hcodes.mem_leafPaths (hcodes.mem_symbols hw)) hprefix
  exact hvw (symbolField_inj (Prod.mk.inj heq).1)
end

section
/-! A stored tree is well formed (R18), and BUILD as a command leaves one (R75). -/

namespace Sys2Proof.Machine

section
variable {m : Vector NodeEntry 513} {T : CodeTree} {i : Nat} {js : List Nat}

/-- The walk of R18 item 4 lists the entries a stored tree stands in. -/
theorem Stored.indicesAt_eq (h : Stored m T i js) {fuel : Nat} (hf : T.depth < fuel) :
    indicesAt m fuel i = some js := by
  induction h generalizing fuel with
  | leaf he hleaf =>
    obtain ⟨fuel, rfl⟩ : ∃ g, fuel = g + 1 := ⟨fuel - 1, by omega⟩
    simp [indicesAt, he, hleaf]
  | node he hinner _ _ ihl ihr =>
    obtain ⟨fuel, rfl⟩ : ∃ g, fuel = g + 1 := ⟨fuel - 1, by omega⟩
    simp only [CodeTree.depth] at hf
    simp [indicesAt, he, hinner, ihl (fuel := fuel) (by omega), ihr (fuel := fuel) (by omega)]

/-- A leaf entry of a stored tree holds one of its symbols. -/
theorem Stored.sym_mem_symbols (h : Stored m T i js) {j : Nat} (hj : j ∈ js) {e : NodeEntry} (he : m[j]? = some e)
    (hleaf : e.leaf = true) : e.sym ∈ T.symbols := by
  induction h with
  | leaf hd _ =>
    obtain rfl := List.mem_singleton.1 hj
    obtain rfl := Option.some_inj.1 (hd.symm.trans he)
    exact List.mem_singleton_self _
  | node hd hinner _ _ ihl ihr =>
    rw [CodeTree.symbols, List.mem_append]
    rcases List.mem_cons.1 hj with rfl | hj
    · obtain rfl := Option.some_inj.1 (hd.symm.trans he)
      exact absurd hleaf (by simp [hinner])
    · exact (List.mem_append.1 hj).imp ihl ihr

/-- The children of an internal entry of a stored tree stand in it too, in two entries when no entry is listed twice. -/
theorem Stored.children_mem (h : Stored m T i js) (hd : js.Nodup) {j : Nat} (hj : j ∈ js) {e : NodeEntry}
    (he : m[j]? = some e) (hinner : e.leaf = false) :
    e.left.toNat ∈ js ∧ e.right.toNat ∈ js ∧ e.left.toNat ≠ e.right.toNat := by
  induction h with
  | leaf hc hleaf =>
    obtain rfl := List.mem_singleton.1 hj
    obtain rfl := Option.some_inj.1 (hc.symm.trans he)
    exact absurd hleaf (by simp [hinner])
  | node hc _ hl hr ihl ihr =>
    obtain ⟨hdl, hdr, hdisj⟩ := List.nodup_append.1 (List.nodup_cons.1 hd).2
    rcases List.mem_cons.1 hj with rfl | hj
    · obtain rfl := Option.some_inj.1 (hc.symm.trans he)
      exact ⟨by simp [hl.root_mem], by simp [hr.root_mem], hdisj _ hl.root_mem _ hr.root_mem⟩
    · rcases List.mem_append.1 hj with hj | hj
      · obtain ⟨hleft, hright, hne⟩ := ihl hdl hj
        exact ⟨by simp [hleft], by simp [hright], hne⟩
      · obtain ⟨hleft, hright, hne⟩ := ihr hdr hj
        exact ⟨by simp [hleft], by simp [hright], hne⟩

end

/-- A tree that RDHDR accepts, stored in exactly the entries below `NNODES` with its root at `ROOT`, is well formed
(R18 items 1 to 5). -/
theorem Stored.treeWF {s : State} {T : CodeTree} {js : List Nat} (h : Stored s.node T s.root.toNat js)
    (hjs : js.Perm (List.range s.nnodes.toNat)) (hwf : T.wf = true) : TreeWF s := by
  obtain ⟨hroot, hsym, hsize⟩ := wf_iff.1 hwf
  have hmem : ∀ {j}, j ∈ js ↔ j < s.nnodes.toNat := hjs.mem_iff.trans List.mem_range
  have hlt := hmem.1 h.root_mem
  have hlen : s.nnodes.toNat = T.size := by rw [← h.length_eq, hjs.length_eq, List.length_range]
  have hat : ∀ i : Fin 513, s.node[i.val]? = some s.node[i] := fun i => Vector.getElem?_eq_getElem i.isLt
  refine ⟨⟨by omega, by omega, hlt⟩, ?_, fun i hi hinner => ?_, ?_, fun i hi hleaf => ?_⟩
  · obtain ⟨e, he, hinner⟩ := h.inner_root hroot
    simp [nodeRead, he, hinner]
  · obtain ⟨hleft, hright, hne⟩ :=
      h.children_mem (hjs.nodup_iff.2 List.nodup_range) (hmem.2 hi) (hat i) hinner
    exact ⟨hmem.1 hleft, hmem.1 hright, fun heq => hne (congrArg BitVec.toNat heq)⟩
  · have hd := depth_lt T
    have hs := size_add_one T
    rw [h.indicesAt_eq (by omega)]
    exact hjs
  · exact hsym _ (h.sym_mem_symbols (hmem.2 hi) (hat i) hleaf)

/-- The tree and its form are read from the node memory, `ROOT` and `NNODES` alone (R18, R19). -/
theorem currentTree_congr {s t : State} (hroot : SameRoot s t) (hnode : t.node = s.node) :
    currentTree t = currentTree s := by
  rw [currentTree, currentTree, hroot.1, hnode]

theorem treeWF_congr {s t : State} (hroot : SameRoot s t) (hnode : t.node = s.node) : TreeWF t ↔ TreeWF s := by
  obtain ⟨hr, hn⟩ := hroot
  simp only [TreeWF, nodeRead, hr, hn, hnode]

/-- BUILD on a table with a count for the sentinel leaves a well-formed tree with a leaf for each symbol that occurs, and
leaves the table, `CUR`, the codes, the channels and the host alone (R75). -/
theorem exec_build_tree {s : State} (hr : Ready s) (hf : freqValid s.status = true) (he : s.freq[eosSymbol] ≠ 0) :
    ∃ t T, exec .build s = .next t ∧ Succeeded s t true true false ∧ TreeWF t ∧ currentTree t = some T ∧
      (∀ v : Symbol, s.freq[v] ≠ 0 → BitVec.ofNat 9 v.val ∈ T.symbols) ∧
      SameTable s t ∧ t.cur = s.cur ∧ t.code = s.code ∧ t.src = s.src ∧ t.snk = s.snk ∧ SameHost s t := by
  have hne : tableFields s.freq ≠ [] := List.ne_nil_of_mem (mem_tableFields.2 ⟨_, he, rfl⟩)
  obtain ⟨m, q, T, js, n, hb, hst, hjs, hsym⟩ :=
    buildBody_spec hwParams (s := withStatus (acknowledge s) (clearTreeCode (acknowledge s).status)) hne
  have hwf : T.wf = true := wf_of_buildFields (by decide) hne hsym
  obtain ⟨-, -, hsize⟩ := wf_iff.1 hwf
  have hlen : n + 1 = T.size := by rw [← hst.length_eq, ← hjs.length_eq, List.length_range]
  have hroot : (BitVec.ofNat 10 n).toNat = n := Nat.mod_eq_of_lt (by omega)
  have hnnodes : (BitVec.ofNat 10 (n + 1)).toNat = n + 1 := Nat.mod_eq_of_lt (by omega)
  have hexec := exec_build_ready hr hf
  rw [buildStage, hb, andThen_done] at hexec
  refine ⟨_, T, hexec, ?_, ?_, hst.currentTree_eq hsize hroot, fun v hv => hsym.mem_iff.2 (mem_buildFields hv),
    ⟨rfl, rfl⟩, rfl, rfl, rfl, rfl, ⟨rfl, rfl⟩⟩
  · simp [Succeeded, FlagsAre, complete, clearTreeCode, clearCode, hr.2, hf]
  · rw [← hroot] at hst
    rw [← hnnodes] at hjs
    exact Stored.treeWF hst hjs.symm hwf

end Sys2Proof.Machine
end

section
/-! WRHDR and ENCODE as commands (R90, R92, R93): what each body leaves, and the end of the command. -/

namespace Sys2Proof.Machine

/-! ## The end of a command that clears no flag at its start -/

section
variable {s u : State}

/-- A body that leaves `STATUS` as acceptance made it completes with no valid flag changed (R115, R117). -/
theorem succeeded_complete (h : Ready s) (hu : u.status = (acknowledge s).status) :
    Succeeded s (complete u) (freqValid s.status) (treeValid s.status) (codeValid s.status) := by
  simp [Succeeded, FlagsAre, complete, hu, h.2]

/-- The same for a body that ends by `raise` (R117, R127). -/
theorem tookFault_raiseFault (e : Cause) (hu : u.status = (acknowledge s).status) :
    TookFault e s (raiseFault e u) (freqValid s.status) (treeValid s.status) (codeValid s.status) := by
  simp [TookFault, FlagsAre, raiseFault, hu]

end

/-! ## WRHDR -/

/-- A ready block with a current tree and an open sink answers WRHDR with the header appended (R90). -/
theorem exec_wrhdr_eq {s : State} {T : CodeTree} (h : ReadyToWrite s) (ht : treeValid s.status = true)
    (hT : currentTree s = some T) : exec .wrhdr s =
      .next (complete (appended (acknowledge s) (bitsOf 32 hwParams.magic.toNat ++ serialize T))) := by
  obtain ⟨hr, ho⟩ := h
  have haccept : exec .wrhdr s = finish (wrhdrBody hwParams (acknowledge s)) :=
    accept_ready hr ((treeValid_acknowledge s).trans ht)
  rw [haccept, wrhdrBody_eq hwParams (by exact hT) (by exact ho)]
  rfl

/-! ## ENCODE -/

/-- A ready block with valid codes accepts ENCODE (R113, R114). -/
theorem exec_encode_ready {s : State} (h : Ready s) (hc : codeValid s.status = true) :
    exec .encode s = finish (encodeBody hwParams (acknowledge s)) :=
  accept_ready h ((codeValid_acknowledge s).trans hc)

/-- ENCODE's loop past bytes that have codes: it goes on behind them, with their codewords written (R92). -/
theorem encodeLoop_past_coded {l : List Byte} {rest : Bits} {fuel : Nat} {s : State}
    (h : remaining s = bytesToBits l ++ rest) (hc : ∀ b ∈ l, s.code[byteSymbol b].len ≠ 0) (ho : s.snk.closed = false) :
    encodeLoop (l.length + fuel) s =
      encodeLoop fuel (appended (withSrcPos s (s.src.pos + 8 * l.length)) (encodeBytes s.code l)) := by
  induction l generalizing s with
  | nil => simp [encodeBytes]
  | cons b l ih =>
    obtain ⟨hb, hrest⟩ := remaining_after_byte h
    have hpos : s.src.pos + 8 + 8 * l.length = s.src.pos + 8 * (l.length + 1) := by omega
    rw [List.length_cons, Nat.add_right_comm, encodeLoop_byte hb,
      writeCode_open (by exact hc b (by simp)) (by exact ho), andThen_done,
      ih (by rw [remaining_appended, hrest]) (by exact fun c hx => hc c (by simp [hx])) (by exact ho),
      withSrcPos_appended]
    simp [encodeBytes, hpos]

/-- A symbol without a code raises NoCode, and nothing is written for it (R93). -/
theorem writeCode_noCode {v : Symbol} {s : State} (hv : s.code[v].len = 0) : writeCode v s = .raised .noCode s := by
  rcases writeCode_cases v s with ⟨-, h⟩ | ⟨h, -⟩ | ⟨h, -⟩
  · exact h
  · exact absurd hv h
  · exact absurd hv h

/-- A bit string is its whole bytes and at most 7 bits more (R73). -/
theorem src_bits_eq_bytes (s : State) : ∃ tail, s.src.bits = bytesToBits (sourceBytes s) ++ tail ∧ tail.length < 8 :=
  remaining_eq_bytes (srcRewind s)

/-- ENCODE's body with a byte that has no code, after bytes that have one (R93). -/
theorem encodeBody_noCode_byte (p : Config.Params) {s : State} {pre post : List Byte} {b : Byte}
    (ho : s.snk.closed = false) (hs : sourceBytes s = pre ++ b :: post)
    (hpre : ∀ x ∈ pre, s.code[byteSymbol x].len ≠ 0) (hb : s.code[byteSymbol b].len = 0) :
    encodeBody p s =
      .raised .noCode (appended (withSrcPos s (8 * (pre.length + 1))) (encodeBytes s.code pre)) := by
  obtain ⟨tail, h, -⟩ := src_bits_eq_bytes s
  rw [hs, bytesToBits_append, bytesToBits_cons, List.append_assoc, List.append_assoc] at h
  obtain ⟨fuel, hfuel⟩ : ∃ g, s.src.bits.length + 1 = pre.length + (g + 1) :=
    ⟨s.src.bits.length - pre.length, by
      rw [h, List.length_append, bytesToBits_length]
      omega⟩
  have hpos : remaining (withSrcPos (srcRewind s) (8 * pre.length)) = bitsOf 8 b.toNat ++ (bytesToBits post ++ tail) := by
    rw [remaining_withSrcPos, ← bytesToBits_length]
    exact (congrArg _ h).trans List.drop_left
  rw [encodeBody, hfuel, encodeLoop_past_coded (by exact h) (by exact hpre) (by exact ho)]
  rw [encodeLoop_byte (by simpa [srcRewind] using hpos), writeCode_noCode (by exact hb)]
  simp [srcRewind, Nat.mul_add, withSrcPos_appended]

/-- ENCODE's body where all bytes have codes and the sentinel has none (R93). -/
theorem encodeBody_noCode_sentinel (p : Config.Params) {s : State} (ho : s.snk.closed = false)
    (hc : ∀ b ∈ sourceBytes s, s.code[byteSymbol b].len ≠ 0) (he : s.code[eosSymbol].len = 0) :
    encodeBody p s = .raised .noCode
      (appended (withSrcPos s (8 * (sourceBytes s).length)) (encodeBytes s.code (sourceBytes s))) := by
  obtain ⟨tail, h, ht⟩ := src_bits_eq_bytes s
  have hlen : (sourceBytes s).length < s.src.bits.length + 1 := by rw [sourceBytes, bitsToBytes_length]; omega
  rw [encodeBody, encodeLoop_bytes (by exact h) ht hlen (by exact hc) (by exact ho), andThen_done,
    writeCode_noCode (by exact he)]
  simp [srcRewind]

/-- A ready block whose ENCODE body raises NoCode ends in that fault, with what the body wrote in the open sink
(R93, R127). -/
theorem exec_encode_raises {s : State} (h : ReadyToWrite s) (hc : codeValid s.status = true) {k : Nat} {l : Bits}
    (hb : encodeBody hwParams (acknowledge s) = .raised .noCode (appended (withSrcPos (acknowledge s) k) l)) :
    ∃ t, exec .encode s = .next t ∧ TookFault .noCode s t (freqValid s.status) (treeValid s.status) true ∧
      t.snk = ⟨s.snk.bits ++ l, false⟩ ∧ t.src = ⟨s.src.bits, k⟩ ∧ SameInside s t := by
  obtain ⟨hr, ho⟩ := h
  have hexec := exec_encode_ready hr hc
  rw [hb] at hexec
  refine ⟨_, hexec, ?_, congrArg (Sink.mk _) ho, rfl, ⟨⟨rfl, rfl⟩, rfl, ⟨rfl, rfl⟩, rfl, rfl, rfl, ⟨rfl, rfl⟩⟩⟩
  rw [← hc]
  exact tookFault_raiseFault .noCode rfl

/-- ENCODE's body where every symbol has a code: the payload is written and the sink closed (R92). -/
theorem encodeBody_closes {s : State} (ho : s.snk.closed = false)
    (hc : ∀ b ∈ sourceBytes s, s.code[byteSymbol b].len ≠ 0) (he : s.code[eosSymbol].len ≠ 0) :
    encodeBody hwParams s = .done (withSink (withSrcPos s (8 * (sourceBytes s).length))
      (closedSink (s.snk.bits ++ encodeBytes s.code (sourceBytes s) ++ codeword s.code[eosSymbol]))) := by
  rw [encodeBody_bytes hwParams ho hc he, snkClose_appended hwParams (by exact ho), ← List.append_assoc]
  rfl

end Sys2Proof.Machine

open Sys2Proof.Machine

/-- Settles O34: a well-formed tree is a current tree, `Wr` appends its serialization after the magic tag, and that has
11 bits per leaf less one. -/
theorem wrhdrAppendsTheHeader : Obligations.WrhdrAppendsTheHeader := by
  intro s h ht hwf
  obtain ⟨T, hT, -⟩ := currentTree_of_treeWF hwf
  have hsucc := succeeded_complete (u := appended (acknowledge s) (bitsOf 32 hwParams.magic.toNat ++ serialize T)) h.1 rfl
  rw [ht] at hsucc
  have hser := serialize_length T
  have hlen : (s.snk.bits ++ (bitsOf 32 hwParams.magic.toNat ++ serialize T)).length + 1 =
      s.snk.bits.length + 32 + 11 * leafCount T := by
    rw [List.length_append, List.length_append, bitsOf_length, leafCount]
    omega
  have hsnk : (⟨s.snk.bits ++ (bitsOf 32 hwParams.magic.toNat ++ serialize T), s.snk.closed⟩ : Sink) =
      ⟨s.snk.bits ++ bitsOf 32 hwParams.magic.toNat ++ serialize T, false⟩ := by rw [h.2, List.append_assoc]
  exact ⟨_, T, hT, exec_wrhdr_eq h ht hT, hsucc, hsnk, hlen, ⟨⟨rfl, rfl⟩, rfl, ⟨rfl, rfl⟩, rfl, rfl, rfl, ⟨rfl, rfl⟩⟩,
    rfl⟩

/-- Settles O36: the loop writes the codeword of every whole byte, and the sentinel's and the padding follow. -/
theorem encodeAppendsThePayload : Obligations.EncodeAppendsThePayload := by
  rintro s ⟨hr, ho⟩ hc hbytes hsentinel
  have hexec := exec_encode_ready hr hc
  rw [encodeBody_closes (by exact ho) (by exact hbytes) (by exact hsentinel)] at hexec
  refine ⟨_, hexec, ?_, rfl, rfl, ⟨⟨rfl, rfl⟩, rfl, ⟨rfl, rfl⟩, rfl, rfl, rfl, ⟨rfl, rfl⟩⟩⟩
  rw [← hc]
  exact succeeded_complete hr rfl

/-- Settles O37: the loop has come to the byte without a code, or past the last byte to the sentinel, with the codewords
before it written; `raise` leaves them in the open sink. -/
theorem encodeRaisesNoCode : Obligations.EncodeRaisesNoCode := by
  refine ⟨?_, ?_⟩
  · rintro s pre post b ⟨hr, ho⟩ hc hs hpre hb
    exact exec_encode_raises ⟨hr, ho⟩ hc
      (encodeBody_noCode_byte hwParams (by exact ho) (by exact hs) (by exact hpre) (by exact hb))
  · rintro s ⟨hr, ho⟩ hc hbytes hsentinel
    exact exec_encode_raises ⟨hr, ho⟩ hc
      (encodeBody_noCode_sentinel hwParams (by exact ho) (by exact hbytes) (by exact hsentinel))
end

section
/-! COMPRESS as a command (R94, R96): the five stage commands, each of which leaves what the next one needs. -/

namespace Sys2Proof.Machine

section
variable {s t u : State} {f g c f' g' c' : Bool}

/-- After a command without a fault the next one is accepted (R113). -/
theorem ready_of_succeeded (h : Succeeded s t f g c) : Ready t := by
  obtain ⟨hbusy, -, hfault, -⟩ := h
  exact ⟨hbusy, hfault⟩

theorem flags_of_succeeded (h : Succeeded s t f g c) : FlagsAre s t f g c := by
  obtain ⟨-, -, -, -, hflags⟩ := h
  exact hflags

/-- Two commands in sequence, both without a fault. -/
theorem succeeded_trans (hst : Succeeded s t f g c) (htu : Succeeded t u f' g' c') : Succeeded s u f' g' c' := by
  obtain ⟨-, -, -, herr, -, -, -, hres⟩ := hst
  obtain ⟨hbusy, hdone, hfault, herr', hfreq, htree, hcode, hres'⟩ := htu
  exact ⟨hbusy, hdone, hfault, herr'.trans herr, hfreq, htree, hcode, hres'.trans hres⟩

theorem sameHost_trans (hst : SameHost s t) (htu : SameHost t u) : SameHost s u :=
  ⟨htu.1.trans hst.1, htu.2.trans hst.2⟩

end

/-- `t` is `s` after COUNT, BUILD and GENCODES of an input of the bytes `S`, the channels aside: the table of `S`, a tree
`T`, the codes of that tree, and a code for every symbol that occurs (R70, R75, R85). -/
structure Prepared (s t : State) (S : List Byte) (T : CodeTree) : Prop where
  succeeded : Succeeded s t true true true
  treeWF : TreeWF t
  tree : currentTree t = some T
  codes : CodesOf T t.code
  coded : ∀ v : Symbol, t.freq[v] ≠ 0 → t.code[v].len ≠ 0
  byte : ∀ b : Byte, (t.freq[byteSymbol b]).toNat = S.count b
  sentinel : t.freq[eosSymbol] = 1
  total : t.total.toNat = S.length
  cur : t.cur = s.cur
  host : SameHost s t

section
variable {s t u : State} {S : List Byte} {T : CodeTree}

/-- Every byte of the input has a code. -/
theorem Prepared.byte_coded (h : Prepared s t S T) {b : Byte} (hb : b ∈ S) : t.code[byteSymbol b].len ≠ 0 := by
  refine h.coded _ fun hz => ?_
  have hcount := h.byte b
  rw [hz] at hcount
  exact (List.count_pos_iff.2 hb).ne hcount

theorem Prepared.sentinel_coded (h : Prepared s t S T) : t.code[eosSymbol].len ≠ 0 :=
  h.coded _ (by rw [h.sentinel]; decide)

/-- A command that ends without a fault and writes only `STATUS` and the channels keeps all of this. -/
theorem Prepared.sameInside (h : Prepared s t S T) (hsucc : Succeeded t u true true true) (hsame : SameInside t u) :
    Prepared s u S T := by
  obtain ⟨hroot, hcur, ⟨hfreq, htotal⟩, hnode, -, hcode, hhost⟩ := hsame
  exact {
    succeeded := succeeded_trans h.succeeded hsucc
    treeWF := (treeWF_congr hroot hnode).2 h.treeWF
    tree := (currentTree_congr hroot hnode).trans h.tree
    codes := by rw [hcode]; exact h.codes
    coded := by rw [hfreq, hcode]; exact h.coded
    byte := by rw [hfreq]; exact h.byte
    sentinel := by rw [hfreq]; exact h.sentinel
    total := by rw [htotal]; exact h.total
    cur := hcur.trans h.cur
    host := sameHost_trans h.host hhost }

/-- The first three stages end without a fault (R94): COUNT's table has the sentinel, and BUILD's tree is well formed. -/
theorem exists_prepared (h : Ready s) (hn : (remainingBytes s).length ≤ hwParams.nMax) :
    ∃ t T, thenExec (thenExec (exec .count s) .build) .gencodes = .next t ∧ Prepared s t (remainingBytes s) T ∧
      t.src.bits = s.src.bits ∧ t.snk = s.snk := by
  obtain ⟨s₁, hcount, hsucc₁, hbyte, heos, htotal, hsrc₁, hsnk₁, -, hcur₁, -, -, -, hhost₁⟩ :=
    countCountsTheSource s h hn
  obtain ⟨hfreq₁, -⟩ := flags_of_succeeded hsucc₁
  obtain ⟨s₂, T, hbuild, hsucc₂, hwf, hT, hleaf, ⟨hf₂, hn₂⟩, hcur₂, -, hsrc₂, hsnk₂, hhost₂⟩ :=
    exec_build_tree (ready_of_succeeded hsucc₁) hfreq₁ (by rw [heos]; decide)
  obtain ⟨hfreq₂, htree₂, -⟩ := flags_of_succeeded hsucc₂
  obtain ⟨t, T', hT', hgencodes, hsucc, hcodes, hcoded, hroot, hcur, ⟨hf, hn⟩, hnode, -, hsrc, hsnk, hhost⟩ :=
    gencodesRecordsLeafPaths s₂ (ready_of_succeeded hsucc₂) htree₂ hwf
  obtain rfl : T' = T := Option.some_inj.1 (hT'.symm.trans hT)
  rw [hfreq₂] at hsucc
  have htable : t.freq = s₁.freq := hf.trans hf₂
  refine ⟨t, T', by rw [hcount, thenExec, hbuild, thenExec, hgencodes], ?_, by rw [hsrc, hsrc₂, hsrc₁],
    by rw [hsnk, hsnk₂, hsnk₁]⟩
  exact {
    succeeded := succeeded_trans (succeeded_trans hsucc₁ hsucc₂) hsucc
    treeWF := (treeWF_congr hroot hnode).2 hwf
    tree := (currentTree_congr hroot hnode).trans hT
    codes := hcodes
    coded := fun v hv => (hcoded v).2 (hleaf v (htable ▸ hv))
    byte := by rw [htable]; exact hbyte
    sentinel := by rw [htable]; exact heos
    total := by rw [hn, hn₂]; exact htotal
    cur := hcur.trans (hcur₂.trans hcur₁)
    host := sameHost_trans (sameHost_trans hhost₁ hhost₂) hhost }

end

end Sys2Proof.Machine

open Sys2Proof.Machine

/-- Settles O38: COMPRESS is its five stage commands (R54). The first three leave a well-formed tree and a code for every
symbol of the input, so that WRHDR and ENCODE end without a fault, and these two write only the channels. -/
theorem compressWritesAFile : Obligations.CompressWritesAFile := by
  rintro s ⟨hready, hopen⟩ hpos hn
  have hbytes := remainingBytes_eq_sourceBytes hpos
  obtain ⟨s₃, T, hstages, hprep₃, hsrc₃, hsnk₃⟩ := exists_prepared hready (hbytes ▸ hn)
  rw [hbytes] at hprep₃
  obtain ⟨hfreq₃, htree₃, hcode₃, -⟩ := flags_of_succeeded hprep₃.succeeded
  obtain ⟨s₄, T', hT', hwrhdr, hsucc₄, hsnk₄, -, hsame₄, hsrc₄⟩ :=
    wrhdrAppendsTheHeader s₃ ⟨ready_of_succeeded hprep₃.succeeded, by rw [hsnk₃]; exact hopen⟩ htree₃ hprep₃.treeWF
  obtain rfl : T' = T := Option.some_inj.1 (hT'.symm.trans hprep₃.tree)
  rw [hfreq₃, hcode₃] at hsucc₄
  have hprep₄ := hprep₃.sameInside hsucc₄ hsame₄
  obtain ⟨hfreq₄, htree₄, hcode₄, -⟩ := flags_of_succeeded hsucc₄
  have hbits : s₄.src.bits = s.src.bits := by rw [hsrc₄, hsrc₃]
  have hsource : sourceBytes s₄ = sourceBytes s := by rw [sourceBytes, hbits, sourceBytes]
  obtain ⟨t, hencode, hsucc, hsnk, hsrc, hsame⟩ :=
    encodeAppendsThePayload s₄ ⟨ready_of_succeeded hsucc₄, by rw [hsnk₄]⟩ hcode₄
      (fun b hb => hprep₄.byte_coded (hsource ▸ hb)) hprep₄.sentinel_coded
  rw [hfreq₄, htree₄] at hsucc
  have hprep := hprep₄.sameInside hsucc hsame
  obtain ⟨-, -, -, -, -, hcode, -⟩ := hsame
  refine ⟨t, T', ?_, hprep.succeeded, hprep.treeWF, hprep.tree, hprep.codes, hprep.byte, hprep.sentinel, hprep.total,
    by rw [hsnk, hsource, hsnk₄, hsnk₃, hcode], by rw [hsrc, hbits, hsource], hprep.cur, hprep.host⟩
  rw [exec_compress_eq_stages hready, hstages, thenExec, hwrhdr, thenExec, hencode]
end

section
/-! SUPPORT. RDHDR on a header that ends early (R100 to R102). -/

namespace Sys2Proof.Machine

/-! ## A cut tree -/

/-- `Rd` with no bit left (R102). -/
theorem rd_end {fuel n : Nat} {s : State} (h : remaining s = []) : rd (fuel + 1) n s = .raised .malformedHeader s := by
  rw [rd, srcRead_short (by simp [h])]
  split <;> rfl

/-- `Rd` over the beginning of a serialized tree that fits (R102): the bits end inside the flag or the symbol of a leaf,
or else inside one of the two subtrees of an internal node. -/
theorem rd_cut {T : CodeTree} (hv : ∀ v ∈ T.symbols, v.toNat ≤ 256) {fuel n k : Nat} {s : State}
    (h : remaining s = (serialize T).take k) (hk : k < (serialize T).length) (hn : n + T.size ≤ 513)
    (hf : 513 < n + fuel) : ∃ t, rd fuel n s = .raised .malformedHeader t := by
  induction T generalizing fuel n k s with
  | leaf v =>
    simp only [CodeTree.size] at hn
    obtain ⟨fuel, rfl⟩ : ∃ g, fuel = g + 1 := ⟨fuel - 1, by omega⟩
    cases k with
    | zero => exact ⟨s, rd_end h⟩
    | succ k =>
      simp only [serialize, List.length_cons, bitsOf_length] at hk
      obtain ⟨h1, hrest⟩ := srcRead_append (n := 1) (g := [true]) h rfl (by decide)
      have h9 := srcRead_short (n := 9) (s := withSrcPos s (s.src.pos + 1)) (by rw [hrest]; simp; omega)
      simp only [rd, if_pos (show n < 513 by omega), h1, if_pos (show BitVec.ofNat 1 (bitsVal [true]) = 1 from rfl), h9]
      exact ⟨_, rfl⟩
  | node l r ihl ihr =>
    simp only [CodeTree.symbols, List.mem_append] at hv
    simp only [CodeTree.size] at hn
    obtain ⟨fuel, rfl⟩ : ∃ g, fuel = g + 1 := ⟨fuel - 1, by omega⟩
    cases k with
    | zero => exact ⟨s, rd_end h⟩
    | succ k =>
      simp only [serialize, List.length_cons, List.length_append] at hk
      obtain ⟨h1, hrest⟩ := srcRead_append (n := 1) (g := [false]) h rfl (by decide)
      simp only [rd, if_pos (show n < 513 by omega), h1, if_neg (show BitVec.ofNat 1 (bitsVal [false]) ≠ 1 by decide)]
      rcases Nat.lt_or_ge k (serialize l).length with hkl | hkl
      · rw [List.take_append_of_le_length hkl.le] at hrest
        obtain ⟨t, hl⟩ := ihl (fun v hx => hv v (.inl hx)) hrest hkl (n := n + 1) (fuel := fuel) (by omega) (by omega)
        exact ⟨t, by rw [hl]⟩
      · obtain ⟨j, rfl⟩ := Nat.exists_eq_add_of_le hkl
        rw [List.take_length_add_append] at hrest
        have hl : rd fuel (n + 1) (withSrcPos s (s.src.pos + 1)) = .ok (n + 1) (n + 1 + l.size)
            (withSrcPos (withNode s (storeTree l (n + 1) s.node)) (s.src.pos + 1 + (serialize l).length)) :=
          rd_serialize (fun v hx => hv v (.inl hx)) hrest (by omega) (by omega)
        obtain ⟨t, hr⟩ := ihr (fun v hx => hv v (.inr hx)) (n := n + 1 + l.size) (fuel := fuel)
          (s := withSrcPos (withNode s (storeTree l (n + 1) s.node)) (s.src.pos + 1 + (serialize l).length))
          (remaining_skip (s := withSrcPos s (s.src.pos + 1)) hrest) (by omega) (by omega) (by omega)
        exact ⟨t, by simp only [hl, hr]⟩

/-- `Rd` that faults has written nothing but NODE and the source cursor (R21). -/
theorem rd_raised_frame {fuel n : Nat} {e : Cause} {s t : State} (h : rd fuel n s = .raised e t) :
    ∃ m k, t = withSrcPos (withNode s m) k := by
  rcases rd_cases fuel n s with ⟨_, _, hrd, -⟩ | ⟨u, hrd, hframe⟩ | hrd
  · cases h.symm.trans hrd
  · cases h.symm.trans hrd
    exact hframe
  · cases h.symm.trans hrd

/-! ## A cut header -/

/-- RDHDR as a stage with too few bits for the magic tag (R100). -/
theorem rdhdrStage_short (p : Config.Params) {s : State} (h : (remaining s).length < 32) :
    rdhdrStage p s = .raised .badMagic s := by
  rw [rdhdrStage, rdhdrBody, srcRead_short h]
  rfl

/-- RDHDR as a stage on the magic tag and the beginning of a tree (R101, R102). -/
theorem rdhdrStage_cut {p : Config.Params} {s : State} {T : CodeTree} {k : Nat} (hw : T.wf = true)
    (h : remaining s = bitsOf 32 p.magic.toNat ++ (serialize T).take k) (hk : k < (serialize T).length) :
    ∃ t, rdhdrStage p s = .raised .malformedHeader t ∧ t.status = s.status ∧ t.snk = s.snk := by
  obtain ⟨-, hv, hf⟩ := wf_iff.1 hw
  obtain ⟨hmagic, hrest⟩ := srcRead_append h (bitsOf_length 32 _) (by decide)
  obtain ⟨t, hrd⟩ := rd_cut hv hrest hk (n := 0) (fuel := 514) (by omega) (by omega)
  have hstage : rdhdrStage p s = .raised .malformedHeader t := by
    simp only [rdhdrStage, rdhdrBody, hmagic, ofNat_bitsVal_bitsOf, BitVec.ofNat_toNat, BitVec.setWidth_eq, if_pos, hrd,
      andThen_raised]
  obtain ⟨m, j, rfl⟩ := rd_raised_frame hrd
  exact ⟨_, hstage, rfl, rfl⟩

end Sys2Proof.Machine
end

section
/-! SUPPORT. DECODE on codewords that end early (R104, R105). -/

namespace Sys2Proof.Machine

/-! ## A cut payload -/

/-- Fewer bits than there are make a proper beginning. -/
theorem take_proper {l : Bits} {k : Nat} (h : k < l.length) : l.take k <+: l ∧ l.take k ≠ l :=
  ⟨List.take_prefix k l, mt (List.take_eq_self_iff l).1 (Nat.not_le.2 h)⟩

/-- The bits of codewords cut before the last one's end are whole codewords and a beginning of the next. -/
theorem exists_cut_codeword (data : List (SymField × Bits)) (x : SymField × Bits) {k : Nat}
    (hk : k < (pathBits data).length + x.2.length) :
    ∃ pre y r, pre <+: data ∧ (y ∈ data ∨ y = x) ∧ r <+: y.2 ∧ r ≠ y.2 ∧
      (pathBits data ++ x.2).take k = pathBits pre ++ r := by
  induction data generalizing k with
  | nil =>
    obtain ⟨hpre, hne⟩ := take_proper (l := x.2) (k := k) (by simpa [pathBits] using hk)
    exact ⟨[], x, x.2.take k, List.nil_prefix, .inr rfl, hpre, hne, rfl⟩
  | cons y data ih =>
    have hbits : ∀ l, pathBits (y :: l) = y.2 ++ pathBits l := fun _ => rfl
    rw [hbits, List.append_assoc]
    rcases Nat.lt_or_ge k y.2.length with hky | hky
    · obtain ⟨hpre, hne⟩ := take_proper hky
      exact ⟨[], y, y.2.take k, List.nil_prefix, .inl (by simp), hpre, hne, List.take_append_of_le_length hky.le⟩
    · obtain ⟨j, rfl⟩ := Nat.exists_eq_add_of_le hky
      rw [hbits, List.length_append] at hk
      obtain ⟨pre, z, r, hpre, hz, hr, hne, heq⟩ := ih (k := j) (by omega)
      refine ⟨y :: pre, z, r, List.cons_prefix_cons.2 ⟨rfl, hpre⟩, hz.imp_left (List.mem_cons_of_mem y), hr, hne, ?_⟩
      rw [List.take_length_add_append, heq, hbits, List.append_assoc]

/-- The bytes of the first leaves are the first bytes. -/
theorem leafBytes_prefix {pre data : List (SymField × Bits)} (h : pre <+: data) : leafBytes pre <+: leafBytes data := by
  obtain ⟨post, rfl⟩ := h
  exact ⟨leafBytes post, List.flatMap_append.symm⟩

/-! ## The loop -/

/-- The loop from the root past whole codewords of data leaves: their bytes are written, and it is at the root again,
behind them (R104). -/
theorem decodeLoop_past_leaves {T : CodeTree} {data : List (SymField × Bits)} {rest : Bits} {fuel : Nat} {s : State}
    (hT : currentTree s = some T) (hi : T.rootInternal = true) (hd : DataLeaves T data) (ho : s.snk.closed = false)
    (h : remaining s = pathBits data ++ rest) :
    decodeLoop (fuel + (pathBits data).length) (withCur s s.root) = decodeLoop fuel (withCur
      (appended (withSrcPos s (s.src.pos + (pathBits data).length)) (leafBytes data)) s.root) := by
  induction data generalizing s with
  | nil => simp [pathBits, leafBytes]
  | cons x data ih =>
    obtain ⟨v, q⟩ := x
    obtain ⟨hx, hv⟩ := hd (v, q) (by simp)
    have hbits : pathBits ((v, q) :: data) = q ++ pathBits data := rfl
    rw [hbits, List.append_assoc] at h
    obtain ⟨c, -, hloop⟩ :=
      decodeLoop_path (s := withCur s s.root) (fuel := fuel + (pathBits data).length) hT hi hx h
    have hrec := ih (s := appended (withSrcPos s (s.src.pos + q.length)) (bitsOf 8 v.toNat)) hT
      (fun y hy => hd y (by simp [hy])) ho (remaining_skip h)
    rw [withSrcPos_appended, appended_appended, appended_src] at hrec
    rw [hbits, List.length_append, show fuel + (q.length + (pathBits data).length) =
      fuel + (pathBits data).length + q.length by omega, hloop, if_neg hv, snkWrite_appends (by exact ho), andThen_done,
      ← Nat.add_assoc s.src.pos]
    exact hrec

/-- The loop on a path's beginning: the bits end at an internal node (R105). -/
theorem decodeLoop_path_cut {T : CodeTree} {v : SymField} {q r : Bits} {fuel g : Nat} {s : State}
    (hT : treeAt s.node g s.cur.toNat = some T) (hx : (v, q) ∈ leafPaths T) (hr : r <+: q) (hne : r ≠ q)
    (h : remaining s = r) :
    ∃ c, decodeLoop (fuel + 1 + r.length) s =
      .raised .malformedStream (withCur (withSrcPos s (s.src.pos + r.length)) c) := by
  induction r generalizing T q s g with
  | nil => exact ⟨s.cur, decodeLoop_end h⟩
  | cons b r ih =>
    obtain ⟨q', rfl, hr'⟩ : ∃ q', q = b :: q' ∧ r <+: q' := by
      obtain ⟨l, rfl⟩ := hr
      exact ⟨r ++ l, rfl, l, rfl⟩
    cases T with
    | leaf w => simp [leafPaths] at hx
    | node l₁ l₂ =>
      obtain ⟨b', q'', hq, hx'⟩ := mem_leafPaths_node hx
      obtain ⟨rfl, rfl⟩ : b = b' ∧ q' = q'' := by simpa using hq
      obtain ⟨f, e, he, hchild⟩ := treeAt_child hT
      specialize hchild b
      obtain ⟨f', c, -, hc, ⟨-, hleaf⟩ | ⟨hn, -⟩⟩ := treeAt_eq_some hchild
      · obtain ⟨-, rfl⟩ : v = c.sym ∧ q' = [] := by simpa [hleaf, leafPaths] using hx'
        exact absurd (congrArg (b :: ·) (List.prefix_nil.1 hr')) hne
      · obtain ⟨c', hloop⟩ := ih (s := withCur (withSrcPos s (s.src.pos + 1)) (if b then e.right else e.left))
          hchild hx' hr' (fun heq => hne (by rw [heq])) (remaining_skip (g := [b]) h)
        refine ⟨c', ?_⟩
        have hpos : s.src.pos + (r.length + 1) = s.src.pos + 1 + r.length := by omega
        rw [List.length_cons, ← Nat.add_assoc, decodeLoop_inner h he hc hn, hloop, hpos]
        rfl

/-- DECODE's body on codewords of data leaves and the beginning of one more (R105): the bytes are written, and the sink
is not closed. -/
theorem decodeBody_cut (p : Config.Params) {s : State} {T : CodeTree} {data : List (SymField × Bits)}
    {x : SymField × Bits} {r : Bits} (hT : currentTree s = some T) (hi : T.rootInternal = true) (hd : DataLeaves T data)
    (hx : x ∈ leafPaths T) (hr : r <+: x.2) (hne : r ≠ x.2) (ho : s.snk.closed = false)
    (h : remaining s = pathBits data ++ r) :
    ∃ c, decodeBody p s = .raised .malformedStream (withCur (appended
      (withSrcPos s (s.src.pos + (remaining s).length)) (leafBytes data)) c) := by
  obtain ⟨fuel, hfuel⟩ : ∃ fuel, s.src.bits.length + 1 = fuel + 1 + r.length + (pathBits data).length := by
    have hlen := congrArg List.length h
    rw [remaining_length, List.length_append] at hlen
    exact ⟨s.src.bits.length - (pathBits data).length - r.length, by omega⟩
  obtain ⟨c, hloop⟩ := decodeLoop_path_cut (fuel := fuel)
    (s := withCur (appended (withSrcPos s (s.src.pos + (pathBits data).length)) (leafBytes data)) s.root)
    hT hx hr hne (remaining_skip h)
  refine ⟨c, ?_⟩
  rw [decodeBody, hfuel, decodeLoop_past_leaves hT hi hd ho h, hloop, h, List.length_append, ← Nat.add_assoc]
  rfl

end Sys2Proof.Machine
end

section
/-! DECOMPRESS as a command (R106, R107): where the end of the source stops it. -/

namespace Sys2Proof.Machine

/-- The state in which the body of RDHDR or DECOMPRESS begins (R113, R117). -/
def headerStart (s : State) : State := withStatus (acknowledge s) (clearTreeCode (acknowledge s).status)

@[simp] theorem headerStart_snk (s : State) : (headerStart s).snk = s.snk := rfl
@[simp] theorem remaining_headerStart (s : State) : remaining (headerStart s) = remaining s := rfl

section
variable {s u : State}

/-- A ready block accepts DECOMPRESS (R113, R114). -/
theorem exec_decompress_ready (h : Ready s) : exec .decompress s = finish (decompressBody hwParams (headerStart s)) :=
  accept_ready h rfl

/-- A fault before the tree is accepted: TREE_VALID and CODE_VALID stay cleared (R117, R127). -/
theorem tookFault_headerStart (e : Cause) (hu : u.status = (headerStart s).status) :
    TookFault e s (raiseFault e u) (freqValid s.status) false false := by
  simp [TookFault, FlagsAre, raiseFault, hu, headerStart, clearTreeCode, clearCode]

/-- A fault after the tree is accepted: TREE_VALID stays set (R117, R127). -/
theorem tookFault_markedTree (e : Cause) (hu : u.status = setTreeValid (headerStart s).status true) :
    TookFault e s (raiseFault e u) (freqValid s.status) true false := by
  simp [TookFault, FlagsAre, raiseFault, hu, headerStart, clearTreeCode, clearCode]

/-- The end without a fault (R115, R117). -/
theorem succeeded_markedTree (h : Ready s) (hu : u.status = setTreeValid (headerStart s).status true) :
    Succeeded s (complete u) (freqValid s.status) true false := by
  simp [Succeeded, FlagsAre, complete, hu, headerStart, clearTreeCode, clearCode, h.2]

/-! ## Where the source ends -/

/-- The source ends inside the magic tag. -/
theorem exec_decompress_cut_magic (h : Ready s) (hshort : (remaining s).length < 32) :
    ∃ t, exec .decompress s = .next t ∧ TookFault .badMagic s t (freqValid s.status) false false ∧ t.snk = s.snk := by
  refine ⟨raiseFault .badMagic (headerStart s), ?_, tookFault_headerStart _ rfl, rfl⟩
  rw [exec_decompress_ready h, decompressBody, rdhdrStage_short hwParams (by exact hshort)]
  rfl

/-- The source ends inside the tree. -/
theorem exec_decompress_cut_tree {T : CodeTree} {k : Nat} (h : Ready s) (hw : T.wf = true)
    (hrem : remaining s = bitsOf 32 hwParams.magic.toNat ++ (serialize T).take k) (hk : k < (serialize T).length) :
    ∃ t, exec .decompress s = .next t ∧ TookFault .malformedHeader s t (freqValid s.status) false false ∧
      t.snk = s.snk := by
  obtain ⟨u, hstage, hstatus, hsnk⟩ := rdhdrStage_cut (s := headerStart s) hw hrem hk
  refine ⟨raiseFault .malformedHeader u, ?_, tookFault_headerStart _ hstatus, hsnk⟩
  rw [exec_decompress_ready h, decompressBody, hstage]
  rfl

/-- The source ends between two codewords or inside one. -/
theorem exec_decompress_cut_payload {T : CodeTree} {data : List (SymField × Bits)} {x : SymField × Bits} {r : Bits}
    (h : ReadyToWrite s) (hw : T.wf = true) (hd : DataLeaves T data) (hx : x ∈ leafPaths T) (hr : r <+: x.2)
    (hne : r ≠ x.2)
    (hrem : remaining s = bitsOf 32 hwParams.magic.toNat ++ (serialize T ++ (pathBits data ++ r))) :
    ∃ t, exec .decompress s = .next t ∧ TookFault .malformedStream s t (freqValid s.status) true false ∧
      t.snk = ⟨s.snk.bits ++ leafBytes data, false⟩ := by
  obtain ⟨hready, ho⟩ := h
  obtain ⟨hi, -, -⟩ := wf_iff.1 hw
  obtain ⟨u, hstage, hstatus, hT, hrest, hsnk⟩ := rdhdrStage_spec (s := headerStart s) hw hrem
  rw [headerStart_snk] at hsnk
  obtain ⟨c, hbody⟩ := decodeBody_cut hwParams hT hi hd hx hr hne (by rw [hsnk, ho]) hrest
  have hexec := exec_decompress_ready hready
  rw [decompressBody, hstage, andThen_done, hbody, finish] at hexec
  refine ⟨_, hexec, tookFault_markedTree _ hstatus, ?_⟩
  show Sink.mk (u.snk.bits ++ leafBytes data) u.snk.closed = _
  rw [hsnk, ho]

/-- The source holds the sentinel's codeword to its end. -/
theorem exec_decompress_whole {T : CodeTree} {data : List (SymField × Bits)} {e rest : Bits} (h : ReadyToWrite s)
    (hw : T.wf = true) (hd : DataLeaves T data) (he : (256, e) ∈ leafPaths T)
    (hrem : remaining s = bitsOf 32 hwParams.magic.toNat ++ (serialize T ++ (pathBits data ++ (e ++ rest)))) :
    ∃ t, exec .decompress s = .next t ∧ Succeeded s t (freqValid s.status) true false ∧
      t.snk = closedSink (s.snk.bits ++ leafBytes data) := by
  obtain ⟨hready, ho⟩ := h
  obtain ⟨u, hbody, hstatus, hsnk⟩ := decompressBody_spec (s := headerStart s) hw hd he ho hrem
  refine ⟨complete u, ?_, succeeded_markedTree hready hstatus, hsnk⟩
  rw [exec_decompress_ready hready, hbody]
  rfl

end

end Sys2Proof.Machine

open Sys2Proof.Machine

/-- Settles O47: the file is the magic tag, the tree and the codewords, one after another, and the cut falls inside one
of them or behind them all. -/
theorem truncationLandsByPlace : Obligations.TruncationLandsByPlace := by
  intro s T data e pad c h hw hd he hrem
  obtain ⟨hready, ho⟩ := h
  rcases Nat.lt_or_ge c 32 with hc | hc
  · obtain ⟨t, ht, hend⟩ := exec_decompress_cut_magic hready (by rw [hrem, List.length_take]; omega)
    exact ⟨t, ht, fun _ => hend, by omega, by omega, by omega⟩
  obtain ⟨k, rfl⟩ := Nat.exists_eq_add_of_le hc
  have hmagic : (bitsOf 32 hwParams.magic.toNat).length + k = 32 + k := by rw [bitsOf_length]
  simp only [List.append_assoc] at hrem
  rw [← hmagic, List.take_length_add_append] at hrem
  rcases Nat.lt_or_ge k (serialize T).length with hk | hk
  · rw [List.take_append_of_le_length hk.le] at hrem
    obtain ⟨t, ht, hend⟩ := exec_decompress_cut_tree hready hw hrem hk
    exact ⟨t, ht, by omega, fun _ _ => hend, by omega, by omega⟩
  obtain ⟨j, rfl⟩ := Nat.exists_eq_add_of_le hk
  rw [List.take_length_add_append, ← List.append_assoc (pathBits data)] at hrem
  rcases Nat.lt_or_ge j ((pathBits data).length + e.length) with hj | hj
  · rw [List.take_append_of_le_length (by rw [List.length_append]; exact hj.le)] at hrem
    obtain ⟨pre, y, r, hpre, hy, hr, hne, hcut⟩ := exists_cut_codeword data (256, e) hj
    rw [hcut] at hrem
    obtain ⟨t, ht, hfault, hsnk⟩ := exec_decompress_cut_payload ⟨hready, ho⟩ hw
      (fun x hx => hd x (hpre.subset hx)) (hy.elim (fun hmem => (hd y hmem).1) fun heq => heq ▸ he) hr hne hrem
    refine ⟨t, ht, by omega, by omega, fun _ _ => ⟨hfault, by rw [hsnk], ?_⟩, by omega⟩
    rw [hsnk]
    exact (List.prefix_append_right_inj _).2 (leafBytes_prefix hpre)
  · obtain ⟨i, rfl⟩ := Nat.exists_eq_add_of_le hj
    rw [← List.length_append, List.take_length_add_append, List.append_assoc] at hrem
    obtain ⟨t, ht, hend⟩ := exec_decompress_whole ⟨hready, ho⟩ hw hd he hrem
    exact ⟨t, ht, by omega, by omega, by omega, fun _ => hend⟩
end

section
/-! Command control (R113 to R117, R120): how every command ends, and with which valid flags. -/

namespace Sys2Proof.Machine

/-! ## A command as its start and its body -/

/-- The column "cleared at start" of R117, by command. -/
def clearedAtStart : Instr → StatusWord → StatusWord
  | .count | .compress => clearAll
  | .build | .rdhdr | .decompress => clearTreeCode
  | .gencodes => clearCode
  | _ => clearNone

/-- The state in which the body of a command begins (R113). -/
def bodyStart (i : Instr) (s : State) : State :=
  withStatus (acknowledge s) (clearedAtStart i (acknowledge s).status)

/-- The body of a command (R113); that of a reserved code is `raise IllegalCmd` (R120). -/
def bodyOf : Instr → State → Body
  | .clear => fun s => .done (clearBody s)
  | .count => countStage hwParams
  | .build => buildStage hwParams
  | .gencodes => gencodesStage
  | .wrhdr => wrhdrBody hwParams
  | .encode => encodeBody hwParams
  | .rdhdr => rdhdrStage hwParams
  | .decode => decodeBody hwParams
  | .compress => compressBody hwParams
  | .decompress => decompressBody hwParams
  | _ => .raised .illegalCmd

/-- CLEAR is accepted whenever the block is not busy (R116). -/
theorem exec_clear {s : State} (h : isBusy s.status = false) :
    exec .clear s = .next (complete (clearBody (acknowledge s))) := if_neg (by simp [h])

/-- Every command but CLEAR runs in the wrapper of R113. -/
theorem exec_eq_accept {i : Instr} (hi : i ≠ .clear) (s : State) :
    exec i s = accept (prerequisite i) (clearedAtStart i) (bodyOf i) s := by
  cases i with
  | clear => exact absurd rfl hi
  | _ => rfl

/-- Every command but CLEAR is dropped while FAULT = 1 (R113, R128). -/
theorem exec_dropped {i : Instr} {s : State} (hi : i ≠ .clear) (hf : isFault s.status = true) : exec i s = .next s :=
  (exec_eq_accept hi s).trans (accept_dropped (.inr hf))

@[simp] theorem prerequisite_acknowledge (i : Instr) (s : State) :
    prerequisite i (acknowledge s).status = prerequisite i s.status := by cases i <;> simp [prerequisite]

section
variable {i : Instr} {s t : State}

/-- A command whose prerequisite fails is acknowledged and raises Sequence (R114). -/
theorem exec_prerequisite_missing (h : Ready s) (hp : prerequisite i s.status = false) :
    exec i s = .next (raiseFault .sequence (acknowledge s)) := by
  have hi : i ≠ .clear := by
    rintro rfl
    cases hp
  rw [exec_eq_accept hi, accept_sequence h (by simpa using hp)]

/-- A command whose prerequisite holds, or that has none, runs its body (R113). -/
theorem exec_prerequisite_met (h : Ready s) (hp : prerequisite i s.status = true) :
    exec i s = finish (bodyOf i (bodyStart i s)) := by
  by_cases hi : i = .clear
  · subst hi
    exact exec_clear h.1
  · rw [exec_eq_accept hi, accept_ready h (by simpa using hp)]
    rfl

end

/-- A fault raised before the body begins: `STATUS` alone is written, and no valid flag of it (R114, R120). -/
theorem raiseFault_acknowledge_spec (e : Cause) (s : State) :
    TookFault e s (raiseFault e (acknowledge s)) (freqValid s.status) (treeValid s.status) (codeValid s.status) ∧
      SameInside s (raiseFault e (acknowledge s)) ∧ (raiseFault e (acknowledge s)).src = s.src ∧
      (raiseFault e (acknowledge s)).snk = s.snk :=
  ⟨tookFault_raiseFault e rfl, ⟨⟨rfl, rfl⟩, rfl, ⟨rfl, rfl⟩, rfl, rfl, rfl, rfl, rfl⟩, rfl, rfl⟩

/-- A reserved code raises IllegalCmd as soon as it is acknowledged (R120). -/
theorem exec_reserved {i : Instr} (hi : i ∈ reservedCodes) {s : State} (h : Ready s) :
    exec i s = .next (raiseFault .illegalCmd (acknowledge s)) := by
  have hrow : prerequisite i s.status = true ∧
      finish (bodyOf i (bodyStart i s)) = .next (raiseFault .illegalCmd (acknowledge s)) := by
    simp only [reservedCodes, List.mem_cons, List.not_mem_nil, or_false] at hi
    rcases hi with rfl | rfl | rfl | rfl | rfl | rfl <;> exact ⟨rfl, rfl⟩
  obtain ⟨hp, hbody⟩ := hrow
  rw [exec_prerequisite_met h hp, hbody]

/-! ## What a body can raise (R126) -/

/-- Where a body ends by `raise e`, `R` holds of `e` and of `STATUS` as the fault found it. -/
def Body.RaisesOnly (R : Cause → StatusWord → Prop) : Body → Prop
  | .raised e u => R e u.status
  | _ => True

section
variable {R : Cause → StatusWord → Prop} {f t c : Bool}

theorem raisesOnly_andThen {b : Body} {k : State → Body} (hb : b.RaisesOnly R)
    (hk : ∀ u, b = .done u → (k u).RaisesOnly R) :
    (b.andThen k).RaisesOnly R := by
  cases b with
  | done u => exact hk u rfl
  | raised e u => exact hb
  | refused r => trivial
  | stuck g => trivial

/-- A body that does not write `STATUS` raises with the flags it began with. -/
theorem raisesOnly_of_ends {P : Cause → Prop} {s : State} {b : Body} (h : Running s.status f t c)
    (hb : b.Ends fun u => u.status = s.status) (hP : b.RaisesOnly fun e _ => P e)
    (hR : ∀ e w, P e → Running w f t c → R e w) : b.RaisesOnly R := by
  cases b with
  | raised e u => exact hR e _ hP ((congrArg (Running · f t c) hb).mpr h)
  | done u => trivial
  | refused r => trivial
  | stuck g => trivial

/-! The sink primitives raise nothing (R33, R34). -/

theorem snkWrite_raisesOnly (n v : Nat) (s : State) : (snkWrite n v s).RaisesOnly R := by
  rcases snkWrite_cases n v s with ⟨-, hw⟩ | ⟨-, hw⟩ <;> rw [hw] <;> trivial

theorem snkClose_raisesOnly (p : Config.Params) (s : State) : (snkClose p s).RaisesOnly R := by
  rw [snkClose]
  split <;> trivial

/-! COUNT (R72) -/

theorem countStage_raisesOnly (p : Config.Params) {s : State} (h : Running s.status f t c)
    (hR : ∀ w, Running w f t c → R .overflow w) : (countStage p s).RaisesOnly R := by
  have honly : (countBody p s).RaisesOnly fun e _ => e = .overflow := by
    refine raisesOnly_andThen ?_ fun _ _ => trivial
    rcases countLoop_ends p (s.src.bits.length + 1) (withTable s (Vector.replicate 257 0) 0)
      (by rw [remaining_length, withTable_src]; omega) with ⟨u, hu⟩ | ⟨u, hu⟩ <;> rw [hu]
    · trivial
    · rfl
  refine raisesOnly_andThen (raisesOnly_of_ends h (countBody_status p s) honly ?_) fun _ _ => trivial
  rintro _ w rfl hw
  exact hR w hw

/-! BUILD, GENCODES and WRHDR raise nothing once they have begun. -/

theorem buildStage_raisesOnly (p : Config.Params) (s : State) : (buildStage p s).RaisesOnly R := by
  refine raisesOnly_andThen ?_ fun _ _ => trivial
  rw [buildBody]
  split
  · trivial
  · split <;> trivial

theorem gencodesStage_raisesOnly (s : State) : (gencodesStage s).RaisesOnly R := by
  refine raisesOnly_andThen ?_ fun _ _ => trivial
  rw [gencodesBody]
  split
  · trivial
  · split <;> trivial

theorem wrhdrBody_raisesOnly (p : Config.Params) (s : State) : (wrhdrBody p s).RaisesOnly R := by
  rw [wrhdrBody]
  split
  · trivial
  · next T _ =>
    refine raisesOnly_andThen (snkWrite_raisesOnly _ _ s) fun u _ => ?_
    rcases writeTree_cases T u with ⟨-, l, hl⟩ | ⟨-, hl⟩ <;> rw [hl] <;> trivial

/-! ENCODE (R93) -/

theorem writeCode_raisesOnly (v : Symbol) (s : State) : (writeCode v s).RaisesOnly fun e _ => e = .noCode := by
  rcases writeCode_cases v s with ⟨-, hw⟩ | ⟨-, -, hw⟩ | ⟨-, -, hw⟩ <;> rw [hw]
  · rfl
  · trivial
  · trivial

theorem encodeLoop_raisesOnly (fuel : Nat) (s : State) : (encodeLoop fuel s).RaisesOnly fun e _ => e = .noCode := by
  induction fuel generalizing s with
  | zero => trivial
  | succ fuel ih =>
    rw [encodeLoop]
    split
    · trivial
    · exact raisesOnly_andThen (writeCode_raisesOnly _ _) fun u _ => ih u

theorem writeCode_status (v : Symbol) (s : State) : (writeCode v s).Ends fun u => u.status = s.status := by
  rcases writeCode_cases v s with ⟨-, hw⟩ | ⟨-, -, hw⟩ | ⟨-, -, hw⟩ <;> rw [hw]
  · rfl
  · rfl
  · trivial

theorem snkClose_status (p : Config.Params) (s : State) : (snkClose p s).Ends fun u => u.status = s.status := by
  rw [snkClose]
  split
  · trivial
  · rfl

/-- ENCODE's body does not write `STATUS` (R21, R92). -/
theorem encodeBody_status (p : Config.Params) (s : State) : (encodeBody p s).Ends fun u => u.status = s.status := by
  have hloop : (encodeLoop (s.src.bits.length + 1) (srcRewind s)).Ends fun u => u.status = s.status := by
    refine ends_mono (encodeLoop_frame _ _) ?_
    rintro _ ⟨_, _, rfl⟩
    rfl
  have hsentinel := ends_andThen hloop (fun _ hu => hu) fun u hu =>
    ends_mono (writeCode_status eosSymbol u) fun _ hv => hv.trans hu
  exact ends_andThen hsentinel (fun _ hu => hu) fun u hu => ends_mono (snkClose_status p u) fun _ hv => hv.trans hu

theorem encodeBody_raisesOnly (p : Config.Params) {s : State} (h : Running s.status f t c)
    (hR : ∀ w, Running w f t c → R .noCode w) : (encodeBody p s).RaisesOnly R := by
  have honly : (encodeBody p s).RaisesOnly fun e _ => e = .noCode :=
    raisesOnly_andThen (raisesOnly_andThen (encodeLoop_raisesOnly _ _) fun u _ => writeCode_raisesOnly _ u) fun u _ =>
      snkClose_raisesOnly p u
  refine raisesOnly_of_ends h (encodeBody_status p s) honly ?_
  rintro _ w rfl hw
  exact hR w hw

/-! RDHDR (R100, R102) -/

/-- The two faults of a header. -/
def HeaderFault (e : Cause) : Prop := e = .badMagic ∨ e = .malformedHeader

theorem acceptRoot_raisesOnly (r n : Nat) (s : State) : (acceptRoot r n s).RaisesOnly fun e _ => HeaderFault e := by
  rw [acceptRoot]
  split
  · trivial
  · split
    · exact .inr rfl
    · trivial

theorem rdhdrBody_raisesOnly (p : Config.Params) (s : State) : (rdhdrBody p s).RaisesOnly fun e _ => HeaderFault e := by
  rw [rdhdrBody]
  split
  · exact .inl rfl
  · next m u _ =>
    split
    · rcases rd_cases 514 0 u with ⟨n, v, hrd, -⟩ | ⟨v, hrd, -⟩ | hrd <;> simp only [hrd]
      · exact acceptRoot_raisesOnly 0 n v
      · exact .inr rfl
      · trivial
    · exact .inl rfl

theorem rdhdrStage_raisesOnly (p : Config.Params) {s : State} (h : Running s.status f t c)
    (hR : ∀ e w, HeaderFault e → Running w f t c → R e w) : (rdhdrStage p s).RaisesOnly R :=
  raisesOnly_andThen (raisesOnly_of_ends h (rdhdrBody_status p s) (rdhdrBody_raisesOnly p s) hR) fun _ _ => trivial

/-! DECODE (R105) -/

theorem decodeLoop_raisesOnly (fuel : Nat) (s : State) :
    (decodeLoop fuel s).RaisesOnly fun e _ => e = .malformedStream := by
  induction fuel generalizing s with
  | zero => trivial
  | succ fuel ih =>
    rw [decodeLoop]
    split
    · rfl
    · split
      · trivial
      · dsimp only
        split
        · trivial
        · split
          · split
            · trivial
            · exact raisesOnly_andThen (snkWrite_raisesOnly _ _ _) fun u _ => ih _
          · exact ih _

/-- DECODE's body does not write `STATUS` (R21, R104). -/
theorem decodeBody_status (p : Config.Params) (s : State) : (decodeBody p s).Ends fun u => u.status = s.status := by
  have hloop : (decodeLoop (s.src.bits.length + 1) (withCur s s.root)).Ends fun u => u.status = s.status := by
    refine ends_mono (decodeLoop_frame _ _) ?_
    rintro _ ⟨_, _, _, -, rfl⟩
    rfl
  exact ends_andThen hloop (fun _ hu => hu) fun u hu => ends_mono (snkClose_status p u) fun _ hv => hv.trans hu

theorem decodeBody_raisesOnly (p : Config.Params) {s : State} (h : Running s.status f t c)
    (hR : ∀ w, Running w f t c → R .malformedStream w) : (decodeBody p s).RaisesOnly R := by
  have honly : (decodeBody p s).RaisesOnly fun e _ => e = .malformedStream :=
    raisesOnly_andThen (decodeLoop_raisesOnly _ _) fun u _ => snkClose_raisesOnly p u
  refine raisesOnly_of_ends h (decodeBody_status p s) honly ?_
  rintro _ w rfl hw
  exact hR w hw

/-! The composites: COMPRESS raises in its first stage or in its last, DECOMPRESS in either (R94, R106). -/

/-- COMPRESS's body before its last stage (R94). -/
theorem compressStages_leavesRunning (p : Config.Params) {s : State} (h : Running s.status f t c) :
    ((((countStage p s).andThen (buildStage p)).andThen gencodesStage).andThen (wrhdrBody p)).LeavesRunning
      true true true :=
  leavesRunning_andThen (leavesRunning_andThen (leavesRunning_andThen (countStage_leavesRunning p h)
    fun _ => buildStage_leavesRunning p) fun _ => gencodesStage_leavesRunning) fun u hu =>
    leavesRunning_of_ends hu (wrhdrBody_status p u)

theorem compressBody_leavesRunning (p : Config.Params) {s : State} (h : Running s.status f t c) :
    (compressBody p s).LeavesRunning true true true :=
  leavesRunning_andThen (compressStages_leavesRunning p h) fun u hu => leavesRunning_of_ends hu (encodeBody_status p u)

theorem compressBody_raisesOnly (p : Config.Params) {s : State} (h : Running s.status f t c)
    (hcount : ∀ w, Running w f t c → R .overflow w) (hencode : ∀ w, Running w true true true → R .noCode w) :
    (compressBody p s).RaisesOnly R := by
  have hcounted := countStage_raisesOnly p h hcount
  refine raisesOnly_andThen (raisesOnly_andThen (raisesOnly_andThen (raisesOnly_andThen hcounted ?_) ?_) ?_) ?_
  · exact fun u _ => buildStage_raisesOnly p u
  · exact fun u _ => gencodesStage_raisesOnly u
  · exact fun u _ => wrhdrBody_raisesOnly p u
  · exact fun u hu => encodeBody_raisesOnly p (compressStages_leavesRunning p h u hu) hencode

theorem decompressBody_leavesRunning (p : Config.Params) {s : State} (h : Running s.status f t c) :
    (decompressBody p s).LeavesRunning f true c :=
  leavesRunning_andThen (rdhdrStage_leavesRunning p h) fun u hu => leavesRunning_of_ends hu (decodeBody_status p u)

theorem decompressBody_raisesOnly (p : Config.Params) {s : State} (h : Running s.status f t c)
    (hrdhdr : ∀ e w, HeaderFault e → Running w f t c → R e w)
    (hdecode : ∀ w, Running w f true c → R .malformedStream w) : (decompressBody p s).RaisesOnly R :=
  raisesOnly_andThen (rdhdrStage_raisesOnly p h hrdhdr) fun u hu =>
    decodeBody_raisesOnly p (rdhdrStage_leavesRunning p h u hu) hdecode

end

/-! ## The valid flags (R117) -/

/-- `(FREQ_VALID, TREE_VALID, CODE_VALID)`. -/
abbrev validFlags (w : StatusWord) : Bool × Bool × Bool := (freqValid w, treeValid w, codeValid w)

theorem Running.validFlags_eq {w : StatusWord} {f t c : Bool} (h : Running w f t c) : validFlags w = (f, t, c) := by
  rw [validFlags, h.freq, h.tree, h.code]

/-- A command that clears no flag at its start (R117). -/
theorem running_acknowledge {s : State} (h : Ready s) :
    Running (acknowledge s).status (freqValid s.status) (treeValid s.status) (codeValid s.status) := by
  constructor <;> simp [h.2]

/-- GENCODES (R117). -/
theorem running_clearCode {s : State} (h : Ready s) :
    Running (clearCode (acknowledge s).status) (freqValid s.status) (treeValid s.status) false := by
  constructor <;> simp [clearCode, h.2]

/-- The rows of a command in R126 and R117 for the faults that its body raises, from `STATUS` before the command. -/
def FaultRow (i : Instr) (w : StatusWord) (e : Cause) (v : StatusWord) : Prop :=
  e ∈ listedFaults i ∧ e ≠ .sequence ∧
    validFlags v = flagsAfterFault i e (freqValid w) (treeValid w) (codeValid w)

section
variable {i : Instr} {s t : State}

/-- What RDHDR and DECOMPRESS raise before the tree is accepted (R117). -/
theorem faultRow_header (hi : i = .rdhdr ∨ i = .decompress) {e : Cause} {v : StatusWord} (he : HeaderFault e)
    (hv : Running v (freqValid s.status) false false) : FaultRow i s.status e v := by
  rcases hi with rfl | rfl <;> rcases he with rfl | rfl <;> exact ⟨by decide, by decide, hv.validFlags_eq⟩

/-- A body raises no fault but those of its command's row, and never Sequence (R117, R126). -/
theorem bodyOf_raisesOnly (i : Instr) (h : Ready s) : (bodyOf i (bodyStart i s)).RaisesOnly (FaultRow i s.status) := by
  cases i with
  | clear => trivial
  | count => exact countStage_raisesOnly _ (running_clearAll h) fun w hw => ⟨by decide, by decide, hw.validFlags_eq⟩
  | build => exact buildStage_raisesOnly _ _
  | gencodes => exact gencodesStage_raisesOnly _
  | wrhdr => exact wrhdrBody_raisesOnly _ _
  | encode =>
    exact encodeBody_raisesOnly _ (running_acknowledge h) fun w hw => ⟨by decide, by decide, hw.validFlags_eq⟩
  | rdhdr => exact rdhdrStage_raisesOnly _ (running_clearTreeCode h) fun _ _ => faultRow_header (.inl rfl)
  | decode =>
    exact decodeBody_raisesOnly _ (running_acknowledge h) fun w hw => ⟨by decide, by decide, hw.validFlags_eq⟩
  | compress =>
    exact compressBody_raisesOnly _ (running_clearAll h) (fun w hw => ⟨by decide, by decide, hw.validFlags_eq⟩)
      fun w hw => ⟨by decide, by decide, hw.validFlags_eq⟩
  | decompress =>
    exact decompressBody_raisesOnly _ (running_clearTreeCode h) (fun _ _ => faultRow_header (.inr rfl))
      fun w hw => ⟨by decide, by decide, hw.validFlags_eq⟩
  | _ => exact ⟨by decide, by decide, (running_acknowledge h).validFlags_eq⟩

/-- A body that ends without `raise` leaves the flags of its command's row (R117). -/
theorem bodyOf_done (h : Ready s) {u : State} (hu : bodyOf i (bodyStart i s) = .done u) :
    isFault u.status = false ∧
      validFlags u.status = flagsAfterSuccess i (freqValid s.status) (treeValid s.status) (codeValid s.status) := by
  have hrun {b : Body} {f t c : Bool} (hb : b.LeavesRunning f t c) (hbu : b = .done u) :
      isFault u.status = false ∧ validFlags u.status = (f, t, c) := ⟨(hb u hbu).fault, (hb u hbu).validFlags_eq⟩
  have hack := running_acknowledge h
  cases i with
  | clear =>
    cases hu
    exact ⟨show isFault 0x0000#16 = false by decide, show validFlags 0x0000#16 = (false, false, false) by decide⟩
  | count => exact hrun (countStage_leavesRunning _ (running_clearAll h)) hu
  | build => exact hrun (buildStage_leavesRunning _ (running_clearTreeCode h)) hu
  | gencodes => exact hrun (gencodesStage_leavesRunning (running_clearCode h)) hu
  | wrhdr => exact hrun (leavesRunning_of_ends hack (wrhdrBody_status _ _)) hu
  | encode => exact hrun (leavesRunning_of_ends hack (encodeBody_status _ _)) hu
  | rdhdr => exact hrun (rdhdrStage_leavesRunning _ (running_clearTreeCode h)) hu
  | decode => exact hrun (leavesRunning_of_ends hack (decodeBody_status _ _)) hu
  | compress => exact hrun (compressBody_leavesRunning _ (running_clearAll h)) hu
  | decompress => exact hrun (decompressBody_leavesRunning _ (running_clearTreeCode h)) hu
  | _ => cases hu

/-- The rows of a command whose prerequisite fails (R114, R117, R126). -/
theorem sequence_row {w : StatusWord} (hp : prerequisite i w = false) :
    Cause.sequence ∈ listedFaults i ∧ ∀ f t c, flagsAfterFault i .sequence f t c = (f, t, c) := by
  cases i with
  | build | gencodes | wrhdr | encode | decode => exact ⟨by decide, fun _ _ _ => rfl⟩
  | _ => cases hp

/-- How a command that a ready block accepts can end (R114, R115, R117, R126, R127): without a fault, or by one of the
listed faults, which is Sequence only where the prerequisite fails. -/
theorem exec_next_cases (h : Ready s) (ht : exec i s = .next t) :
    (isFault t.status = false ∧
      validFlags t.status = flagsAfterSuccess i (freqValid s.status) (treeValid s.status) (codeValid s.status)) ∨
    ∃ e ∈ listedFaults i, isFault t.status = true ∧ errOf t.status = causeCode e ∧
      validFlags t.status = flagsAfterFault i e (freqValid s.status) (treeValid s.status) (codeValid s.status) ∧
      (prerequisite i s.status = true → e ≠ .sequence) := by
  cases hp : prerequisite i s.status with
  | false =>
    cases (exec_prerequisite_missing h hp).symm.trans ht
    obtain ⟨hlisted, hflags⟩ := sequence_row hp
    obtain ⟨⟨-, -, hfault, herr, hf, htr, hc, -⟩, -⟩ := raiseFault_acknowledge_spec .sequence s
    exact .inr ⟨.sequence, hlisted, hfault, herr, by rw [hflags, validFlags, hf, htr, hc], nofun⟩
  | true =>
    rw [exec_prerequisite_met h hp] at ht
    rcases finish_eq_next ht with ⟨u, hu, rfl⟩ | ⟨e, u, hu, rfl⟩
    · obtain ⟨hfault, hflags⟩ := bodyOf_done h hu
      obtain ⟨-, -, hfault', -, ⟨hf, htr, hc, -⟩, -⟩ := complete_spec u
      exact .inl ⟨hfault'.trans hfault, by rw [← hflags, validFlags, hf, htr, hc]⟩
    · have hrow := bodyOf_raisesOnly i h
      rw [hu] at hrow
      obtain ⟨hlisted, hne, hflags⟩ := hrow
      obtain ⟨⟨-, -, hfault, herr, hf, htr, hc, -⟩, -⟩ := raiseFault_spec e u
      exact .inr ⟨e, hlisted, hfault, herr, by rw [← hflags, validFlags, hf, htr, hc], fun _ => hne⟩

end

/-- Two faults have two codes (R125). -/
theorem causeCode_injective : Function.Injective causeCode := fun d e => by cases d <;> cases e <;> decide

end Sys2Proof.Machine

open Sys2Proof.Machine

/-- Settles O17: the check comes before the body, and no body raises Sequence. -/
theorem prerequisitesDecideSequence : Obligations.PrerequisitesDecideSequence := by
  intro i s h
  refine ⟨fun hp => ⟨_, exec_prerequisite_missing h hp, raiseFault_acknowledge_spec .sequence s⟩, ?_⟩
  intro hp t ht hfault herr
  rcases exec_next_cases h ht with ⟨hnone, -⟩ | ⟨e, -, -, he, -, hne⟩
  · exact absurd (hfault.symm.trans hnone) (by decide)
  · exact hne hp (causeCode_injective (he.symm.trans herr))

/-- Settles O19: `ERR` names the fault, so the row of the fault that was raised is the row asked for. -/
theorem validFlagsFollowTheTable : Obligations.ValidFlagsFollowTheTable := by
  intro i s t h ht
  rcases exec_next_cases h ht with ⟨hnone, hflags⟩ | ⟨d, -, hfault, hd, hflags, -⟩
  · exact ⟨fun _ => hflags, fun _ hfault _ => absurd (hfault.symm.trans hnone) (by decide)⟩
  · refine ⟨fun hnone => absurd (hfault.symm.trans hnone) (by decide), fun e _ he => ?_⟩
    rw [← causeCode_injective (hd.symm.trans he)]
    exact hflags

/-- Settles O15: CLEAR writes `STATUS` and the registers, and completes. -/
theorem clearStartsANewRun : Obligations.ClearStartsANewRun := by
  intro s h
  have hstatus : (complete (clearBody (acknowledge s))).status = 0x0002#16 :=
    show setBusy (setDone 0x0000#16 true) false = 0x0002#16 by decide
  exact ⟨_, exec_clear h, hstatus, rfl, rfl, rfl, rfl, rfl, rfl, rfl, rfl, rfl, rfl, rfl, rfl⟩

/-- Settles O16: the fault is raised at once, and then every command but CLEAR is dropped. -/
theorem reservedCodeRaisesIllegalCmd : Obligations.ReservedCodeRaisesIllegalCmd := by
  intro i hi s h
  obtain ⟨htook, hinside, hsrc, hsnk⟩ := raiseFault_acknowledge_spec .illegalCmd s
  have ⟨_, _, hfault, _⟩ := htook
  exact ⟨_, exec_reserved hi h, htook, hinside, hsrc, hsnk, fun j hj => exec_dropped hj hfault⟩
end

section
/-! Exceptions (R127, R128): what `raise E` writes, and what ends a fault. -/

namespace Sys2Proof.Machine

/-- The two values of `STATUS` at which a fault ends, reset's (R145) and CLEAR's (R116), differ in DONE alone. -/
theorem status_of_fault_ended {t : State} (h : t.status = 0x0000#16 ∨ t.status = 0x0002#16) :
    isFault t.status = false ∧ errOf t.status = 0 ∧ FlagsAre t t false false false := by
  rcases h with h | h <;> rw [FlagsAre, h] <;> decide

end Sys2Proof.Machine

open Sys2Proof.Machine

/-- Settles O13: a raised body drops its continuation, and `raiseFault` writes `STATUS` alone. -/
theorem raiseWritesOnlyStatus : Obligations.RaiseWritesOnlyStatus := fun e s k =>
  ⟨andThen_raised e s k, raiseFault e s, rfl, raiseFault_spec e s⟩

/-- Settles O14: the wrapper drops every command but CLEAR, whose `STATUS` O15 gives; a reset writes all of `STATUS`. -/
theorem faultIsStickyUntilClear : Obligations.FaultIsStickyUntilClear := by
  intro s hbusy hfault
  obtain ⟨t, hclear, hstatus, -⟩ := clearStartsANewRun s hbusy
  refine ⟨fun i hi => exec_dropped hi hfault, ?_, ?_⟩
  · exact ⟨t, hclear, status_of_fault_ended (.inr hstatus)⟩
  · exact ⟨resetBlock s, rfl, status_of_fault_ended (.inl rfl)⟩
end

section
/-! Hazards (R149): a command presented while BUSY. -/

namespace Sys2Proof.Machine

/-- CLEAR ends a fault but not a running command: it too is dropped while BUSY (R113, R116). -/
theorem exec_clear_busy {s : State} (h : isBusy s.status = true) : exec .clear s = .next s := if_pos h

end Sys2Proof.Machine

open Sys2Proof.Machine

/-- Settles O12: CLEAR tests BUSY itself, and the wrapper of every other command tests it before it acknowledges. -/
theorem busyCommandHasNoEffect : Obligations.BusyCommandHasNoEffect := by
  intro i s hbusy
  by_cases hi : i = .clear
  · subst hi
    exact exec_clear_busy hbusy
  · rw [exec_eq_accept hi, accept_dropped (.inl hbusy)]
end

section
/-! The round trip of every build (R8, R76, U1 to U5). -/
open Sys2Proof.Machine

/-- Settles O50: `round_trip` asks no more of a build than that its counters hold `N_MAX`. -/
theorem everyBuildRoundTrips : Obligations.EveryBuildRoundTrips := by
  intro p S hmax hdummy hpad hS
  obtain ⟨t, u, hcompress, hclosed, hdecompress, hfault, -, hsnk⟩ := round_trip (by omega) hdummy hpad hS
  exact ⟨t, u, hcompress, hclosed, hdecompress, hfault, hsnk⟩
end

section
/-! Reset, the host's actions and the command word (R50, R51, R113, R145 to R148). -/
open Sys2Proof Sys2Proof.Machine

/-- Settles O1: the registers of the reset state are written out in the model, and an empty host list gives a step
nothing to do. -/
theorem resetStateIsIdle : Obligations.ResetStateIsIdle := by
  refine ⟨rfl, rfl, rfl, rfl, rfl, by decide, by decide, rfl, fun s hs => ?_⟩
  rw [step, hs]

/-- Settles O2: what `resetBlock` writes. -/
theorem resetPulseClearsRegisters : Obligations.ResetPulseClearsRegisters := fun s =>
  ⟨resetBlock s, rfl, rfl, rfl, rfl, rfl, rfl, rfl, rfl, rfl⟩

/-- Settles O4: attaching is one field update each. -/
theorem attachingChangesOneChannel : Obligations.AttachingChangesOneChannel := fun s b =>
  ⟨⟨withSource s ⟨b, 0⟩, rfl, rfl, rfl, rfl, ⟨rfl, rfl⟩, rfl, ⟨rfl, rfl⟩, rfl, rfl, rfl, rfl, rfl⟩,
    withSink s ⟨[], false⟩, rfl, rfl, rfl, rfl, ⟨rfl, rfl⟩, rfl, ⟨rfl, rfl⟩, rfl, rfl, rfl, rfl, rfl⟩
end

section
/-! The command word (R50, R51, R113) and this hardware's parameters (R3). -/

namespace Sys2Proof.Machine

/-- The word of each command decodes to it (R51). -/
theorem decode_encode (i : Instr) : decodeTableWord 8 (encode i).toNat = some i := by cases i <;> decide

/-- A number that is a command word decodes to the command of its low 4 bits (R50). -/
theorem decodeTableWord_eq_some {n w : Nat} {i : Instr} (h : decodeTableWord n w = some i) :
    decodeOp (BitVec.ofNat 4 w) = i := by
  simp only [decodeTableWord, decodeWord] at h
  by_cases hn : n < 4
  · simp [hn] at h
  · by_cases hw : cmdWordFits w = true
    · simpa [hn, hw] using h
    · simp [hn, hw] at h

/-- A number of 16 or more is no command word (log 11). -/
theorem decodeTableWord_too_wide {n w : Nat} (h : 16 ≤ w) : decodeTableWord n w = none := by
  have hw : cmdWordFits w = false := decide_eq_false (Nat.not_lt.2 h)
  by_cases hn : n < 4 <;> simp [decodeTableWord, decodeWord, hn, hw]

/-- A step at which the host presents a command word (R113). -/
theorem step_command {s : State} {op : CmdWord} {rest : List HostAction} (h : s.host = .command op :: rest) :
    step s = exec (decodeOp op) (withHost s rest) := by
  rw [step, h]
  rfl

end Sys2Proof.Machine

open Sys2Proof Sys2Proof.Machine

/-- Settles O5: row by row, the word is the one the encoder gives the command. -/
theorem commandWordsDecode : Obligations.CommandWordsDecode :=
  ⟨decode_encode .clear, decode_encode .count, decode_encode .build, decode_encode .gencodes, decode_encode .wrhdr,
    decode_encode .encode, decode_encode .rdhdr, decode_encode .decode, decode_encode .compress,
    decode_encode .decompress, decode_encode .reservedA, decode_encode .reservedB, decode_encode .reservedC,
    decode_encode .reservedD, decode_encode .reservedE, decode_encode .reservedF⟩

/-- Settles O6: a command has one word, each of the 16 words has one command, and a wider number does not fit `cmd_op`. -/
theorem encodeDecodeAgree : Obligations.EncodeDecodeAgree :=
  ⟨decode_encode, by decide, fun _ _ => decodeTableWord_too_wide⟩

/-- Settles O7: the action at the head of the host list is the command, and taking it off a list it was put on gives
the list back. -/
theorem stepRunsThePresentedCommand : Obligations.StepRunsThePresentedCommand := by
  refine ⟨fun s op rest => step_command, fun s n w i hw => ?_⟩
  rw [State.withFetchWord, step_command (s := presentWord s w) rfl, decodeTableWord_eq_some hw]
  rfl

/-- Settles O8: every arm of `exec` is the arm of `runWith` at `hwParams`. -/
theorem execIsThisBuild : Obligations.ExecIsThisBuild := ⟨exec_eq, rfl, rfl, rfl⟩
end

section
/-! The sink primitives (R33, R34) and their port transfers (R44). -/

namespace Sys2Proof.Machine

/-- `SnkClose` of this hardware pads with zeros (R34). -/
theorem snkClose_hwParams {s : State} (h : s.snk.closed = false) :
    snkClose hwParams s = .done (withSink s (closedSink s.snk.bits)) := snkClose_open h hwParams

/-- A closed sink holds whole bytes (R34). -/
theorem closedSink_whole_bytes (w : Bits) : (closedSink w).bits.length % 8 = 0 := by
  rw [closedSink, List.length_append, List.length_replicate]
  exact add_padLength_mod _

/-- Each of the 32-bit groups fits its transfer, and there are as many as asked for. -/
theorem snkGroups_spec (v k : Nat) : (∀ x ∈ snkGroups v k, x.1 = 32 ∧ x.2 < 2 ^ 32) ∧ (snkGroups v k).length = k := by
  induction k with
  | zero => simp [snkGroups]
  | succ k ih =>
    obtain ⟨hfit, hlen⟩ := ih
    refine ⟨List.forall_mem_cons.2 ⟨⟨rfl, Nat.mod_lt _ (by decide)⟩, hfit⟩, ?_⟩
    rw [snkGroups, List.length_cons, hlen]

end Sys2Proof.Machine

open Sys2Proof.Machine

/-- Settles O10: both primitives look at `SNK_CLOSED` first, and the value of a write counts modulo `2^n`. -/
theorem sinkPrimitivesAppendAndClose : Obligations.SinkPrimitivesAppendAndClose := by
  refine fun n v s => ⟨fun ho => ⟨snkWrite_open ho n v, ?_, snkClose_hwParams ho, ?_, closedSink_whole_bytes _⟩,
    fun hc => ⟨snkWrite_closed hc n v, snkClose_closed hc hwParams⟩⟩
  · rw [snkWrite_open ho, snkWrite_open ho, bitsOf_mod]
  · exact Nat.lt_succ_iff.1 (padLength_lt _)

/-- Settles O11: the top `n mod 32` bits, if there are any, and then the 32-bit groups (R44). -/
theorem transfersCarryTheWrite : Obligations.TransfersCarryTheWrite := by
  intro n v
  obtain ⟨hfit, hlen⟩ := snkGroups_spec v (n / 32)
  have hgroups : ∀ x ∈ snkGroups v (n / 32), 1 ≤ x.1 ∧ x.1 ≤ 32 ∧ x.2 < 2 ^ x.1 := by
    intro x hx
    obtain ⟨hwidth, hvalue⟩ := hfit x hx
    rw [hwidth]
    exact ⟨by decide, le_rfl, hvalue⟩
  rw [snkTransfers]
  by_cases htop : n % 32 = 0
  · rw [if_pos htop, List.nil_append, hlen, snkGroups_bits, show 32 * (n / 32) = n by omega]
    exact ⟨rfl, hgroups, by omega⟩
  · rw [if_neg htop, List.singleton_append, List.flatMap_cons, snkGroups_bits, bitsOf_mod, ← bitsOf_add,
      show n % 32 + 32 * (n / 32) = n by omega, List.length_cons, hlen]
    refine ⟨rfl, List.forall_mem_cons.2 ⟨⟨?_, ?_, Nat.mod_lt _ (Nat.two_pow_pos _)⟩, hgroups⟩, ?_⟩ <;> omega
end

section
/-! The listed faults (R126) and the reset state (R20). -/
open Sys2Proof.Machine

/-- Settles O18: of the two ends of an accepted command the one with FAULT = 1 names a listed fault. -/
theorem onlyListedFaultsAreRaised : Obligations.OnlyListedFaultsAreRaised := by
  intro i s t h ht hfault
  rcases exec_next_cases h ht with ⟨hnone, -⟩ | ⟨e, hlisted, -, herr, -⟩
  · exact absurd (hfault.symm.trans hnone) (by decide)
  · exact ⟨e, hlisted, herr⟩

/-- Settles O51: no valid flag is set at reset, so nothing is promised of the memories. -/
theorem resetMeetsTheInvariant : Obligations.ResetMeetsTheInvariant := by
  have hstatus : State.reset.status = 0x0000#16 := rfl
  rw [Obligations.ResetMeetsTheInvariant, Sys2Proof.Machine.Inv, hstatus]
  refine ⟨by decide, ?_, ?_, ?_, le_rfl, nofun⟩ <;> exact fun h => absurd h (by decide)
end

section
/-! The tree grammar (R56, R91). -/

namespace Sys2Proof.Machine

/-- No serialization is a proper beginning of another: its first bit tells a leaf from an internal node, a leaf has 9
bits more, and an internal node two serializations. -/
theorem serialize_append_inj {T T' : CodeTree} {r r' : Bits} (h : serialize T ++ r = serialize T' ++ r') :
    T = T' ∧ r = r' := by
  induction T generalizing T' r r' with
  | leaf v =>
    cases T' with
    | leaf w =>
      obtain ⟨hbits, hrest⟩ := List.append_inj (List.cons.inj h).2 (by simp)
      have hval := congrArg bitsVal hbits
      rw [bitsVal_bitsOf, bitsVal_bitsOf, Nat.mod_eq_of_lt v.isLt, Nat.mod_eq_of_lt w.isLt] at hval
      exact ⟨congrArg CodeTree.leaf (BitVec.eq_of_toNat_eq hval), hrest⟩
    | node l' r₂ => cases h
  | node l r₁ ihl ihr =>
    cases T' with
    | leaf w => cases h
    | node l' r₂ =>
      simp only [serialize, List.cons_append, List.append_assoc, List.cons.injEq, true_and] at h
      obtain ⟨rfl, hright⟩ := ihl h
      obtain ⟨rfl, hrest⟩ := ihr hright
      exact ⟨rfl, hrest⟩

end Sys2Proof.Machine

open Sys2Proof.Machine

/-- Settles O35: `Wr` appends the serialization, and a serialization says where it ends. -/
theorem serializationIsSelfDelimiting : Obligations.SerializationIsSelfDelimiting := by
  refine ⟨fun T s ho => ?_, fun T T' r r' => serialize_append_inj⟩
  rw [writeTree_open T ho, appended, ho]
end

section
/-! The frame of every command (R21, R38): which columns of the access table a body writes, that the source's bits stay
and the cursor stays in the source, and that the sink only grows. -/

namespace Sys2Proof.Machine

/-! ## Columns -/

/-- The columns of R21, with `STATUS` by the fields a body does not write: `ERR` (R127) and the reserved bits (R11). -/
inductive Column
  | root | nnodes | cur | total | freq | node | inq | code | src | snk | err | reserved
deriving DecidableEq

/-- Two states agree on a column. -/
def Column.Same : Column → State → State → Prop
  | .root, s, t => t.root = s.root
  | .nnodes, s, t => t.nnodes = s.nnodes
  | .cur, s, t => t.cur = s.cur
  | .total, s, t => t.total = s.total
  | .freq, s, t => t.freq = s.freq
  | .node, s, t => t.node = s.node
  | .inq, s, t => t.inq = s.inq
  | .code, s, t => t.code = s.code
  | .src, s, t => t.src = s.src
  | .snk, s, t => t.snk = s.snk
  | .err, s, t => errOf t.status = errOf s.status
  | .reserved, s, t => reservedOf t.status = reservedOf s.status

theorem Column.same_refl (c : Column) (s : State) : c.Same s s := by cases c <;> rfl

theorem Column.same_trans {c : Column} {s t u : State} (hst : c.Same s t) (htu : c.Same t u) : c.Same s u := by
  cases c <;> exact Eq.trans htu hst

/-! ## The channels -/

/-- What a command does to the source (R31, R32, R38): the bits stay, and the cursor ends in them or where it was. -/
structure Source.MovesTo (c d : Source) : Prop where
  bits : d.bits = c.bits
  pos : d.pos ≤ max c.pos c.bits.length

theorem Source.movesTo_refl (c : Source) : c.MovesTo c := ⟨rfl, le_max_left _ _⟩

theorem Source.MovesTo.trans {c d e : Source} (hcd : c.MovesTo d) (hde : d.MovesTo e) : c.MovesTo e := by
  obtain ⟨hbits, hpos⟩ := hcd
  obtain ⟨hbits', hpos'⟩ := hde
  rw [hbits] at hpos'
  exact ⟨hbits'.trans hbits, by omega⟩

/-- What a command does to the sink (R33, R34, R38): it appends, changes nothing once the sink is closed, and closes it
behind a padding. -/
structure Sink.GrowsTo (p : Config.Params) (k l : Sink) : Prop where
  grows : k.bits <+: l.bits
  closed : k.closed = true → l = k
  padded : k.closed = false → l.closed = true → ∃ w, l.bits = w ++ p.padding (padLength w.length)

theorem Sink.growsTo_refl (p : Config.Params) (k : Sink) : k.GrowsTo p k :=
  ⟨List.prefix_rfl, fun _ => rfl, fun ho hc => absurd (ho.symm.trans hc) (by decide)⟩

theorem Sink.GrowsTo.trans {p : Config.Params} {k l m : Sink} (hkl : k.GrowsTo p l) (hlm : l.GrowsTo p m) :
    k.GrowsTo p m := by
  refine ⟨hkl.grows.trans hlm.grows, fun hc => ?_, fun ho hc => ?_⟩
  · have hl := hkl.closed hc
    rw [hlm.closed (hl ▸ hc), hl]
  · cases hl : l.closed with
    | false => exact hlm.padded hl hc
    | true => exact hlm.closed hl ▸ hkl.padded ho hl

/-! ## The frame -/

/-- `t` is `s` but for the columns listed, and the channels have moved as a command moves them. -/
structure Touches (p : Config.Params) (cols : List Column) (s t : State) : Prop where
  same : ∀ c ∉ cols, c.Same s t
  source : s.src.MovesTo t.src
  sink : s.snk.GrowsTo p t.snk
  host : SameHost s t

section
variable {p : Config.Params} {cols cols' : List Column} {s t u : State}

theorem Touches.refl (p : Config.Params) (cols : List Column) (s : State) : Touches p cols s s :=
  ⟨fun c _ => c.same_refl s, s.src.movesTo_refl, s.snk.growsTo_refl p, rfl, rfl⟩

theorem Touches.trans (hst : Touches p cols s t) (htu : Touches p cols t u) : Touches p cols s u :=
  ⟨fun c hc => Column.same_trans (hst.same c hc) (htu.same c hc), hst.source.trans htu.source, hst.sink.trans htu.sink,
    sameHost_trans hst.host htu.host⟩

theorem Touches.mono (h : Touches p cols s t) (hsub : cols ⊆ cols') : Touches p cols' s t :=
  ⟨fun c hc => h.same c fun hmem => hc (hsub hmem), h.source, h.sink, h.host⟩

/-- A body, and then another on the state it ends in. -/
theorem touches_andThen {b : Body} {k : State → Body} (hb : b.Ends (Touches p cols s))
    (hk : ∀ u, (k u).Ends (Touches p cols u)) : (b.andThen k).Ends (Touches p cols s) :=
  ends_andThen hb (fun _ h => h) fun u hu => ends_mono (hk u) fun _ h => hu.trans h

/-- A body that begins behind a change. -/
theorem Touches.ends {b : Body} (h : Touches p cols s t) (hb : b.Ends (Touches p cols t)) :
    b.Ends (Touches p cols s) := ends_mono hb fun _ hu => h.trans hu

/-- A body that touches less. -/
theorem touches_mono {b : Body} (hb : b.Ends (Touches p cols s)) (hsub : cols ⊆ cols') :
    b.Ends (Touches p cols' s) := ends_mono hb fun _ h => h.mono hsub

/-- An update that leaves the channels and the model's own fields alone touches the columns it does not keep. -/
theorem touches_inside (hsame : ∀ c ∉ cols, c.Same s t) (hsrc : t.src = s.src) (hsnk : t.snk = s.snk)
    (hhost : SameHost s t) : Touches p cols s t :=
  ⟨hsame, by rw [hsrc]; exact s.src.movesTo_refl, by rw [hsnk]; exact s.snk.growsTo_refl p, hhost⟩

end

/-! ## What each operation touches -/

section
variable (p : Config.Params) (s : State)

theorem touches_withStatus {w : StatusWord} (herr : errOf w = errOf s.status)
    (hres : reservedOf w = reservedOf s.status) : Touches p [] s (withStatus s w) :=
  touches_inside (fun c _ => by cases c <;> simp [Column.Same, herr, hres]) rfl rfl ⟨rfl, rfl⟩

theorem touches_withTable (f : Vector Count 257) (n : Count) : Touches p [.freq, .total] s (withTable s f n) :=
  touches_inside (fun c hc => by cases c <;> simp [Column.Same] at hc ⊢) rfl rfl ⟨rfl, rfl⟩

theorem touches_withNode (m : Vector NodeEntry 513) : Touches p [.node] s (withNode s m) :=
  touches_inside (fun c hc => by cases c <;> simp [Column.Same] at hc ⊢) rfl rfl ⟨rfl, rfl⟩

theorem touches_withInq (q : Vector Bool 513) : Touches p [.inq] s (withInq s q) :=
  touches_inside (fun c hc => by cases c <;> simp [Column.Same] at hc ⊢) rfl rfl ⟨rfl, rfl⟩

theorem touches_withTree (r n : NodeIdx) : Touches p [.root, .nnodes] s (withTree s r n) :=
  touches_inside (fun c hc => by cases c <;> simp [Column.Same] at hc ⊢) rfl rfl ⟨rfl, rfl⟩

theorem touches_withCode (m : Vector CodeEntry 257) : Touches p [.code] s (withCode s m) :=
  touches_inside (fun c hc => by cases c <;> simp [Column.Same] at hc ⊢) rfl rfl ⟨rfl, rfl⟩

theorem touches_withCur (i : NodeIdx) : Touches p [.cur] s (withCur s i) :=
  touches_inside (fun c hc => by cases c <;> simp [Column.Same] at hc ⊢) rfl rfl ⟨rfl, rfl⟩

/-- The cursor moves inside the source. -/
theorem touches_withSrcPos {k : Nat} (hk : k ≤ max s.src.pos s.src.bits.length) :
    Touches p [.src] s (withSrcPos s k) :=
  ⟨fun c hc => by cases c <;> simp [Column.Same] at hc ⊢, ⟨rfl, hk⟩, s.snk.growsTo_refl p, rfl, rfl⟩

/-- The sink grows. -/
theorem touches_withSink {k : Sink} (hk : s.snk.GrowsTo p k) : Touches p [.snk] s (withSink s k) :=
  ⟨fun c hc => by cases c <;> simp [Column.Same] at hc ⊢, s.src.movesTo_refl, hk, rfl, rfl⟩

theorem srcRead_touches (n : Nat) : Touches p [.src] s (srcRead n s).2 := by
  rcases srcRead_cases n s with ⟨hfits, hread⟩ | ⟨-, hread⟩ <;> rw [hread]
  · exact touches_withSrcPos p s (by omega)
  · exact .refl p _ s

theorem snkWrite_touches (n v : Nat) : (snkWrite n v s).Ends (Touches p [.snk] s) := by
  rcases snkWrite_cases n v s with ⟨ho, hw⟩ | ⟨-, hw⟩ <;> rw [hw]
  · refine touches_withSink p s ⟨List.prefix_append _ _, fun hc => ?_, fun _ hc => ?_⟩
    · exact absurd (ho.symm.trans hc) (by decide)
    · exact absurd (ho.symm.trans hc) (by decide)
  · trivial

theorem snkClose_touches : (snkClose p s).Ends (Touches p [.snk] s) := by
  cases ho : s.snk.closed with
  | true => rw [snkClose_closed ho]; trivial
  | false =>
    rw [snkClose_open ho]
    exact touches_withSink p s ⟨List.prefix_append _ _, fun hc => absurd (ho.symm.trans hc) (by decide),
      fun _ _ => ⟨_, rfl⟩⟩

theorem markFreq_touches : (markFreq s).Ends (Touches p [] s) := touches_withStatus p s (by simp) (by simp)
theorem markTree_touches : (markTree s).Ends (Touches p [] s) := touches_withStatus p s (by simp) (by simp)
theorem markCode_touches : (markCode s).Ends (Touches p [] s) := touches_withStatus p s (by simp) (by simp)

theorem acknowledge_touches : Touches p [] s (acknowledge s) := touches_withStatus p s (by simp) (by simp)
theorem complete_touches : Touches p [] s (complete s) := touches_withStatus p s (by simp) (by simp)

/-- `raise` writes `ERR` (R127). -/
theorem raiseFault_touches (e : Cause) : Touches p [.err] s (raiseFault e s) :=
  touches_inside (fun c hc => by cases c <;> simp [Column.Same, raiseFault] at hc ⊢) rfl rfl ⟨rfl, rfl⟩

end

/-! ## What each body touches -/

/-- COUNT's loop (R70). -/
theorem countLoop_touches (p : Config.Params) (fuel : Nat) (s : State) :
    (countLoop p fuel s).Ends (Touches p [.freq, .total, .src] s) := by
  induction fuel generalizing s with
  | zero => trivial
  | succ fuel ih =>
    have hread := (srcRead_touches p s 8).mono (cols' := [.freq, .total, .src]) (by decide)
    rw [countLoop]
    split
    · next u hu =>
      rw [hu] at hread
      exact hread
    · next v u hu =>
      rw [hu] at hread
      split
      · exact (hread.trans ((touches_withTable p u _ _).mono (by decide))).ends (ih _)
      · exact hread

theorem countStage_touches (p : Config.Params) (s : State) :
    (countStage p s).Ends (Touches p [.freq, .total, .src] s) := by
  have hloop := ((touches_withTable p s (Vector.replicate 257 0) 0).mono (by decide)).ends
    (countLoop_touches p (s.src.bits.length + 1) _)
  exact touches_andThen (touches_andThen hloop fun u => (touches_withTable p u _ _).mono (by decide)) fun u =>
    touches_mono (markFreq_touches p u) (by decide)

/-- BUILD writes the node memory, the membership bits and the two registers of the tree (R75). -/
theorem buildStage_touches (p : Config.Params) (s : State) :
    (buildStage p s).Ends (Touches p [.root, .nnodes, .node, .inq] s) := by
  refine touches_andThen ?_ fun u => touches_mono (markTree_touches p u) (by decide)
  rw [buildBody]
  split
  · trivial
  · split
    · trivial
    · next h _ =>
      exact ((touches_withNode p s h.node).mono (by decide)).trans
        (((touches_withInq p _ h.inq).mono (by decide)).trans ((touches_withTree p _ _ _).mono (by decide)))

theorem gencodesStage_touches (p : Config.Params) (s : State) : (gencodesStage s).Ends (Touches p [.code] s) := by
  refine touches_andThen ?_ fun u => touches_mono (markCode_touches p u) (by decide)
  rw [gencodesBody]
  split
  · trivial
  · split
    · exact touches_withCode p s _
    · trivial

theorem writeTree_touches (p : Config.Params) (T : CodeTree) (s : State) :
    (writeTree T s).Ends (Touches p [.snk] s) := by
  induction T generalizing s with
  | leaf v => exact touches_andThen (snkWrite_touches p s 1 1) fun u => snkWrite_touches p u 9 _
  | node l r ihl ihr => exact touches_andThen (touches_andThen (snkWrite_touches p s 1 0) ihl) ihr

theorem wrhdrBody_touches (p : Config.Params) (s : State) : (wrhdrBody p s).Ends (Touches p [.snk] s) := by
  rw [wrhdrBody]
  split
  · trivial
  · next T _ => exact touches_andThen (snkWrite_touches p s 32 _) (writeTree_touches p T)

theorem writeCode_touches (p : Config.Params) (v : Symbol) (s : State) : (writeCode v s).Ends (Touches p [.snk] s) := by
  rw [writeCode]
  split
  · exact .refl p _ s
  · exact snkWrite_touches p s _ _

/-- ENCODE's loop (R92). -/
theorem encodeLoop_touches (p : Config.Params) (fuel : Nat) (s : State) :
    (encodeLoop fuel s).Ends (Touches p [.src, .snk] s) := by
  induction fuel generalizing s with
  | zero => trivial
  | succ fuel ih =>
    have hread := (srcRead_touches p s 8).mono (cols' := [.src, .snk]) (by decide)
    rw [encodeLoop]
    split
    · next u hu =>
      rw [hu] at hread
      exact hread
    · next v u hu =>
      rw [hu] at hread
      exact hread.ends (touches_andThen (touches_mono (writeCode_touches p _ u) (by decide)) ih)

theorem encodeBody_touches (p : Config.Params) (s : State) : (encodeBody p s).Ends (Touches p [.src, .snk] s) := by
  have hrewind : Touches p [.src, .snk] s (srcRewind s) := (touches_withSrcPos p s (Nat.zero_le _)).mono (by decide)
  refine touches_andThen (touches_andThen (hrewind.ends (encodeLoop_touches p _ _)) fun u => ?_) fun u => ?_
  · exact touches_mono (writeCode_touches p _ u) (by decide)
  · exact touches_mono (snkClose_touches p u) (by decide)

/-- What a state `Rd` ends in satisfies, by `raise` or not. -/
def RdResult.Ends (P : State → Prop) : RdResult → Prop
  | .ok _ _ s => P s
  | .raised _ s => P s
  | .stuck _ => True

/-- `Rd` writes NODE and moves the cursor (R101). -/
theorem rd_touches (p : Config.Params) (fuel n : Nat) (s : State) :
    (rd fuel n s).Ends (Touches p [.node, .src] s) := by
  induction fuel generalizing n s with
  | zero => trivial
  | succ fuel ih =>
    have hwrite (e : NodeEntry) (u : State) : Touches p [.node, .src] u (nodeWrite n e u) :=
      (touches_withNode p u _).mono (by decide)
    have hread := (srcRead_touches p s 1).mono (cols' := [.node, .src]) (by decide)
    rw [rd]
    split
    · split
      · next u hu =>
        rw [hu] at hread
        exact hread
      · next f u hu =>
        rw [hu] at hread
        split
        · have hread' := (srcRead_touches p u 9).mono (cols' := [.node, .src]) (by decide)
          split
          · next v hv =>
            rw [hv] at hread'
            exact hread.trans hread'
          · next sym v hv =>
            rw [hv] at hread'
            split
            · exact hread.trans (hread'.trans (hwrite _ v))
            · exact hread.trans hread'
        · have hleft := ih (n + 1) u
          split
          · next e v hv =>
            rw [hv] at hleft
            exact hread.trans hleft
          · trivial
          · next l m v hv =>
            rw [hv] at hleft
            have hright := ih m v
            split
            · next e w hw =>
              rw [hw] at hright
              exact hread.trans (hleft.trans hright)
            · trivial
            · next r k w hw =>
              rw [hw] at hright
              exact hread.trans (hleft.trans (hright.trans (hwrite _ w)))
    · exact .refl p _ s

theorem acceptRoot_touches (p : Config.Params) (r n : Nat) (s : State) :
    (acceptRoot r n s).Ends (Touches p [.root, .nnodes] s) := by
  rw [acceptRoot]
  split
  · trivial
  · split
    · exact .refl p _ s
    · exact touches_withTree p s _ _

theorem rdhdrStage_touches (p : Config.Params) (s : State) :
    (rdhdrStage p s).Ends (Touches p [.root, .nnodes, .node, .src] s) := by
  refine touches_andThen ?_ fun u => touches_mono (markTree_touches p u) (by decide)
  have hread := (srcRead_touches p s 32).mono (cols' := [.root, .nnodes, .node, .src]) (by decide)
  rw [rdhdrBody]
  split
  · next u hu =>
    rw [hu] at hread
    exact hread
  · next m u hu =>
    rw [hu] at hread
    split
    · have htree := rd_touches p 514 0 u
      split
      · next e v hv =>
        rw [hv] at htree
        exact hread.trans (Touches.mono htree (by decide))
      · trivial
      · next r n v hv =>
        rw [hv] at htree
        exact (hread.trans (Touches.mono htree (by decide))).ends
          (touches_mono (acceptRoot_touches p r n v) (by decide))
    · exact hread

/-- DECODE's loop (R104). -/
theorem decodeLoop_touches (p : Config.Params) (fuel : Nat) (s : State) :
    (decodeLoop fuel s).Ends (Touches p [.cur, .src, .snk] s) := by
  induction fuel generalizing s with
  | zero => trivial
  | succ fuel ih =>
    have hread := (srcRead_touches p s 1).mono (cols' := [.cur, .src, .snk]) (by decide)
    have hcur (u : State) (c : NodeIdx) : Touches p [.cur, .src, .snk] u (withCur u c) :=
      (touches_withCur p u c).mono (by decide)
    rw [decodeLoop]
    split
    · next u hu =>
      rw [hu] at hread
      exact hread
    · next b u hu =>
      rw [hu] at hread
      split
      · trivial
      · next e _ =>
        generalize (if b = 0 then e.left else e.right) = i
        dsimp only
        split
        · trivial
        · refine (hread.trans (hcur u i)).ends ?_
          split
          · split
            · exact .refl p _ _
            · exact touches_andThen (touches_mono (snkWrite_touches p _ 8 _) (by decide)) fun v =>
                (hcur v _).ends (ih _)
          · exact ih _

theorem decodeBody_touches (p : Config.Params) (s : State) :
    (decodeBody p s).Ends (Touches p [.cur, .src, .snk] s) :=
  touches_andThen (((touches_withCur p s s.root).mono (by decide)).ends (decodeLoop_touches p _ _)) fun u =>
    touches_mono (snkClose_touches p u) (by decide)

/-! ## What each command touches -/

/-- The body of a command in the build with these parameters (R113). -/
def bodyWith (p : Config.Params) : Instr → State → Body
  | .clear => fun s => .done (clearBody s)
  | .count => countStage p
  | .build => buildStage p
  | .gencodes => gencodesStage
  | .wrhdr => wrhdrBody p
  | .encode => encodeBody p
  | .rdhdr => rdhdrStage p
  | .decode => decodeBody p
  | .compress => compressBody p
  | .decompress => decompressBody p
  | _ => .raised .illegalCmd

theorem bodyOf_eq_bodyWith (i : Instr) : bodyOf i = bodyWith hwParams i := by cases i <;> rfl

/-- Every command but CLEAR runs in the wrapper of R113, in every build. -/
theorem runWith_eq_accept (p : Config.Params) {i : Instr} (hi : i ≠ .clear) (s : State) :
    runWith p i s = accept (prerequisite i) (clearedAtStart i) (bodyWith p i) s := by
  cases i with
  | clear => exact absurd rfl hi
  | _ => rfl

/-- The marks W of R21 by command; CLEAR writes all of `STATUS` besides (R116). -/
def written : Instr → List Column
  | .clear => [.root, .nnodes, .cur, .total, .err, .reserved]
  | .count => [.freq, .total, .src]
  | .build => [.root, .nnodes, .node, .inq]
  | .gencodes => [.code]
  | .wrhdr => [.snk]
  | .encode => [.src, .snk]
  | .rdhdr => [.root, .nnodes, .node, .src]
  | .decode => [.cur, .src, .snk]
  | .compress => [.root, .nnodes, .total, .freq, .node, .inq, .code, .src, .snk]
  | .decompress => [.root, .nnodes, .cur, .node, .src, .snk]
  | _ => []

theorem clearBody_touches (p : Config.Params) (s : State) :
    Touches p (written .clear) s (clearBody s) :=
  touches_inside (fun c hc => by cases c <;> simp [written, Column.Same, clearBody] at hc ⊢) rfl rfl ⟨rfl, rfl⟩

/-- A body writes the columns its command's row marks W. -/
theorem bodyWith_touches (p : Config.Params) (i : Instr) (s : State) :
    (bodyWith p i s).Ends (Touches p (written i) s) := by
  cases i with
  | clear => exact clearBody_touches p s
  | count => exact countStage_touches p s
  | build => exact buildStage_touches p s
  | gencodes => exact gencodesStage_touches p s
  | wrhdr => exact wrhdrBody_touches p s
  | encode => exact encodeBody_touches p s
  | rdhdr => exact rdhdrStage_touches p s
  | decode => exact decodeBody_touches p s
  | compress =>
    refine touches_andThen (touches_andThen (touches_andThen (touches_andThen ?_ ?_) ?_) ?_) ?_
    · exact touches_mono (countStage_touches p s) (by decide)
    · exact fun u => touches_mono (buildStage_touches p u) (by decide)
    · exact fun u => touches_mono (gencodesStage_touches p u) (by decide)
    · exact fun u => touches_mono (wrhdrBody_touches p u) (by decide)
    · exact fun u => touches_mono (encodeBody_touches p u) (by decide)
  | decompress =>
    exact touches_andThen (touches_mono (rdhdrStage_touches p s) (by decide)) fun u =>
      touches_mono (decodeBody_touches p u) (by decide)
  | _ => exact .refl p _ s

/-- The flags cleared at start are none of the other fields of `STATUS` (R117). -/
theorem bodyStart_touches (p : Config.Params) (i : Instr) (s : State) : Touches p [] s (bodyStart i s) := by
  have hcleared (w : StatusWord) :
      errOf (clearedAtStart i w) = errOf w ∧ reservedOf (clearedAtStart i w) = reservedOf w := by
    cases i <;> simp [clearedAtStart, clearAll, clearTreeCode, clearCode, clearNone]
  obtain ⟨herr, hres⟩ := hcleared (acknowledge s).status
  exact (acknowledge_touches p s).trans (touches_withStatus p _ herr hres)

/-- What a command that answers a next state has done: nothing, when it was not accepted; or it has touched the columns
of its row and then completed or raised (R113, R115, R127). -/
theorem runWith_next_cases {p : Config.Params} {i : Instr} {s t : State} (h : runWith p i s = .next t) :
    t = s ∨ ∃ u, Touches p (written i) s u ∧ (t = complete u ∨ ∃ e, t = raiseFault e u) := by
  have hend {b : Body} (hb : b.Ends (Touches p (written i) s)) (ht : finish b = .next t) :
      ∃ u, Touches p (written i) s u ∧ (t = complete u ∨ ∃ e, t = raiseFault e u) := by
    rcases finish_eq_next ht with ⟨u, rfl, rfl⟩ | ⟨e, u, rfl, rfl⟩
    · exact ⟨u, hb, .inl rfl⟩
    · exact ⟨u, hb, .inr ⟨e, rfl⟩⟩
  have hnil {u : State} (hu : Touches p [] s u) : Touches p (written i) s u := hu.mono (List.nil_subset _)
  by_cases hi : i = .clear
  · subst hi
    cases hbusy : isBusy s.status with
    | true => exact .inl (by cases (if_pos hbusy).symm.trans h; rfl)
    | false =>
      cases (if_neg (by simp [hbusy])).symm.trans h
      exact .inr ⟨_, (hnil (acknowledge_touches p s)).trans (clearBody_touches p _), .inl rfl⟩
  · rw [runWith_eq_accept p hi] at h
    rcases accept_cases (prerequisite i) (clearedAtStart i) (bodyWith p i) s with ⟨-, ha⟩ | ⟨-, -, ha⟩ | ⟨-, -, ha⟩
    · exact .inl (by cases ha.symm.trans h; rfl)
    · cases ha.symm.trans h
      exact .inr ⟨_, hnil (acknowledge_touches p s), .inr ⟨_, rfl⟩⟩
    · rw [ha] at h
      exact .inr (hend ((hnil (bodyStart_touches p i s)).ends (bodyWith_touches p i _)) h)

/-- A command touches the columns of its row, and `ERR` by a fault. -/
theorem runWith_touches {p : Config.Params} {i : Instr} {s t : State} (h : runWith p i s = .next t) :
    Touches p (.err :: written i) s t := by
  rcases runWith_next_cases h with rfl | ⟨u, hu, rfl | ⟨e, rfl⟩⟩
  · exact .refl p _ t
  · exact (hu.mono (List.subset_cons_self _ _)).trans ((complete_touches p u).mono (List.nil_subset _))
  · exact (hu.mono (List.subset_cons_self _ _)).trans ((raiseFault_touches p u e).mono (by simp))

theorem exec_touches {i : Instr} {s t : State} (h : exec i s = .next t) :
    Touches hwParams (.err :: written i) s t := runWith_touches ((exec_eq i s).symm.trans h)

/-- A column that no mark of the command's row covers is the same after it. -/
theorem exec_same {i : Instr} {s t : State} (h : exec i s = .next t) {c : Column} (hc : c ∉ .err :: written i) :
    c.Same s t := (exec_touches h).same c hc

end Sys2Proof.Machine

open Sys2Proof.Machine

/-- Settles O20: the row of each command, column by column. -/
theorem commandsWriteOnlyTheirRow : Obligations.CommandsWriteOnlyTheirRow := by
  intro i s t h
  have hsame {c : Column} (hc : c ∉ .err :: written i) := exec_same h hc
  refine ⟨fun hi => ⟨hsame (c := .root) ?_, hsame (c := .nnodes) ?_⟩, fun hi => hsame (c := .cur) ?_,
    fun hi => hsame (c := .total) ?_, fun hi => hsame (c := .freq) ?_, fun hi => hsame (c := .node) ?_,
    fun hi => hsame (c := .inq) ?_, fun hi => hsame (c := .code) ?_, fun hi => hsame (c := .src) ?_,
    fun hi => hsame (c := .snk) ?_, fun hi => hsame (c := .reserved) ?_, (exec_touches h).host⟩ <;>
  · revert hi
    cases i <;> decide

/-- Settles O21: no command does anything else to the channels. -/
theorem sinkIsAppendOnly : Obligations.SinkIsAppendOnly := fun _ _ _ h =>
  ⟨(exec_touches h).source.bits, (exec_touches h).sink.grows⟩
end

section
/-! RDHDR on every header (R100 to R103): the tree it reads back, the faults it raises, and that a tree is all it
accepts. -/

namespace Sys2Proof.Machine

/-! ## From the body to the command -/

section
variable {p : Config.Params} {s u v : State} {e : Cause}

/-- A ready block accepts RDHDR (R113, R114). -/
theorem exec_rdhdr_ready (h : Ready s) : exec .rdhdr s = finish (rdhdrStage hwParams (headerStart s)) := accept_ready h rfl

/-- RDHDR and DECOMPRESS end alike by a fault in the header (R100, R106). -/
theorem exec_header_raised {i : Instr} (hi : i = .rdhdr ∨ i = .decompress) (h : Ready s)
    (hb : rdhdrStage hwParams (headerStart s) = .raised e u) : exec i s = .next (raiseFault e u) := by
  rcases hi with rfl | rfl
  · rw [exec_rdhdr_ready h, hb]
    rfl
  · rw [exec_decompress_ready h, decompressBody, hb]
    rfl

/-- Past the magic tag RDHDR reads the tree (R100). -/
theorem rdhdrBody_magic {rest : Bits} (h : remaining s = bitsOf 32 p.magic.toNat ++ rest) :
    remaining (withSrcPos s (s.src.pos + 32)) = rest ∧
      (∀ e t, rd 514 0 (withSrcPos s (s.src.pos + 32)) = .raised e t → rdhdrBody p s = .raised e t) ∧
      (∀ r n t, rd 514 0 (withSrcPos s (s.src.pos + 32)) = .ok r n t → rdhdrBody p s = acceptRoot r n t) := by
  obtain ⟨hmagic, hrest⟩ := srcRead_append h (bitsOf_length 32 _) (by decide)
  rw [ofNat_bitsVal_bitsOf, BitVec.ofNat_toNat, BitVec.setWidth_eq] at hmagic
  refine ⟨hrest, fun e t hrd => ?_, fun r n t hrd => ?_⟩ <;> simp only [rdhdrBody, hmagic, if_pos, hrd]

/-- Bits that are no magic tag, or are not all there (R100, R133). -/
theorem rdhdrStage_badMagic (h : (remaining s).take 32 ≠ bitsOf 32 p.magic.toNat) :
    rdhdrStage p s = .raised .badMagic
      (withSrcPos s (if (remaining s).length < 32 then s.src.pos else s.src.pos + 32)) := by
  by_cases hshort : (remaining s).length < 32
  · rw [rdhdrStage_short p hshort, if_pos hshort]
    rfl
  · have hlen : ((remaining s).take 32).length = 32 := by rw [List.length_take]; omega
    obtain ⟨hread, -⟩ := srcRead_append (List.take_append_drop 32 (remaining s)).symm hlen (by decide)
    have hne : BitVec.ofNat 32 (bitsVal ((remaining s).take 32)) ≠ p.magic := fun heq =>
      h (by rw [← heq, bitsOf_toNat_ofNat 32 _ hlen])
    rw [if_neg hshort]
    simp only [rdhdrStage, rdhdrBody, hread, if_neg hne, andThen_raised]

/-- A fault of the tree is a fault of the header. -/
theorem rdhdrStage_raised {rest : Bits} {t : State} (h : remaining s = bitsOf 32 p.magic.toNat ++ rest)
    (hrd : rd 514 0 (withSrcPos s (s.src.pos + 32)) = .raised e t) : rdhdrStage p s = .raised e t := by
  obtain ⟨-, hraised, -⟩ := rdhdrBody_magic h
  rw [rdhdrStage, hraised e t hrd, andThen_raised]

/-- A tree that is a leaf is no header (R102). -/
theorem acceptRoot_leaf {r n : Nat} {e : NodeEntry} (he : nodeRead s (BitVec.ofNat 10 r) = some e)
    (hleaf : e.leaf = true) : acceptRoot r n s = .raised .malformedHeader s := by
  simp [acceptRoot, he, hleaf]

end

/-! ## The header that WRHDR writes -/

/-- What RDHDR leaves inside the command (R100, R101): the tree from entry 0 on, the cursor behind it, `ROOT` and
`NNODES`, and `TREE_VALID` set (R117). -/
def headerRead (T : CodeTree) (s : State) : State :=
  withStatus (withTree (withSrcPos (withNode s (storeTree T 0 s.node)) (s.src.pos + 32 + (serialize T).length)) 0
    (BitVec.ofNat 10 T.size)) (setTreeValid s.status true)

/-- RDHDR as a stage, on a serialized tree that passes the checks of R102. -/
theorem rdhdrStage_serialize {p : Config.Params} {s : State} {T : CodeTree} {rest : Bits} (hw : T.wf = true)
    (h : remaining s = bitsOf 32 p.magic.toNat ++ (serialize T ++ rest)) :
    rdhdrStage p s = .done (headerRead T s) := by
  obtain ⟨hroot, hv, hf⟩ := wf_iff.1 hw
  obtain ⟨hrest, -, hok⟩ := rdhdrBody_magic h
  have hrd := rd_serialize hv hrest (n := 0) (fuel := 514) (by omega) (by omega)
  obtain ⟨e, he, hn⟩ := (stored_storeTree T 0 s.node (by omega)).inner_root hroot
  rw [rdhdrStage, hok _ _ _ hrd, acceptRoot_inner (by exact he) hn, andThen_done, Nat.zero_add]
  rfl

/-- The tree stands in the entries below its size, from entry 0 on, so it is well formed (R18, R101). -/
theorem treeWF_headerRead {T : CodeTree} (hw : T.wf = true) (s : State) : TreeWF (headerRead T s) := by
  obtain ⟨-, -, hf⟩ := wf_iff.1 hw
  have hst := stored_storeTree T 0 s.node (by omega)
  refine Stored.treeWF (s := headerRead T s) (js := List.range' 0 T.size) hst ?_ hw
  rw [List.range_eq_range']
  exact .of_eq (congrArg (List.range' 0) (Nat.mod_eq_of_lt (by omega)).symm)

theorem storeTree_leaf (v : SymField) (m : Vector NodeEntry 513) :
    (storeTree (.leaf v) 0 m)[0]? = some (leafEntry v 0) := Vector.getElem?_setIfInBounds_self_of_lt (by decide)

/-- The entries of a tree that `Rd` stores weigh nothing, and a left child stands next to its parent (R101). -/
theorem storeTree_entry (T : CodeTree) (n : Nat) (m : Vector NodeEntry 513) (hn : n + T.size ≤ 513) {j : Nat}
    (hj : n ≤ j) (hjn : j < n + T.size) :
    ∃ e, (storeTree T n m)[j]? = some e ∧ e.weight = 0 ∧ (e.leaf = false → e.left.toNat = j + 1) := by
  induction T generalizing n m with
  | leaf v =>
    obtain rfl : j = n := by simp only [CodeTree.size] at hjn; omega
    exact ⟨leafEntry v 0, Vector.getElem?_setIfInBounds_self_of_lt hn, rfl, nofun⟩
  | node l r ihl ihr =>
    simp only [CodeTree.size] at hn hjn
    rw [storeTree]
    rcases Nat.eq_or_lt_of_le hj with rfl | hlt
    · exact ⟨_, Vector.getElem?_setIfInBounds_self_of_lt (by omega), rfl, fun _ => Nat.mod_eq_of_lt (by omega)⟩
    · rw [Vector.getElem?_setIfInBounds_ne hlt.ne]
      rcases Nat.lt_or_ge j (n + 1 + l.size) with hl | hl
      · rw [storeTree_other _ _ _ _ (.inl hl)]
        exact ihl (n + 1) m (by omega) hlt hl
      · exact ihr (n + 1 + l.size) _ (by omega) hl (by omega)

/-! ## What a tree that was read looked like -/

/-- What SrcRead has returned stood next in the source (R31). -/
theorem srcRead_eq_some {n : Nat} {s t : State} {v : BitVec n} (h : srcRead n s = (some v, t)) :
    remaining s = bitsOf n v.toNat ++ remaining t := by
  rcases srcRead_cases n s with ⟨hfits, hread⟩ | ⟨-, hread⟩
  · obtain ⟨hv, rfl⟩ := Prod.mk.inj (hread.symm.trans h)
    cases hv
    have hlen : ((remaining s).take n).length = n := by rw [List.length_take, remaining_length]; omega
    rw [bitsOf_toNat_ofNat n _ hlen, remaining_withSrcPos, ← List.drop_drop]
    exact (List.take_append_drop n _).symm
  · cases hread.symm.trans h

/-- A tree that `Rd` accepts stood in the source as its serialization, with symbols in range and room in the memory. -/
theorem rd_ok_serialize {fuel n i m : Nat} {s t : State} (h : rd fuel n s = .ok i m t) :
    ∃ T, (∀ v ∈ T.symbols, v.toNat ≤ 256) ∧ m = n + T.size ∧ m ≤ 513 ∧ remaining s = serialize T ++ remaining t := by
  induction fuel generalizing n i m s t with
  | zero => cases h
  | succ fuel ih =>
    rw [rd] at h
    split at h
    · next hn =>
      split at h
      · cases h
      · next f u hf =>
        have hflag := srcRead_eq_some hf
        split at h
        · next hleaf =>
          split at h
          · cases h
          · next v w hv =>
            split at h
            · next hsym =>
              cases h
              refine ⟨.leaf v, fun x hx => List.mem_singleton.1 hx ▸ hsym, rfl, hn, ?_⟩
              rw [hflag, srcRead_eq_some hv, hleaf]
              rfl
            · cases h
        · next hinner =>
          obtain rfl : f = 0 := (show ∀ f : BitVec 1, f ≠ 1 → f = 0 by decide) f hinner
          split at h
          · cases h
          · cases h
          · next l k w hl =>
            obtain ⟨L, hL, rfl, -, hbits⟩ := ih hl
            split at h
            · cases h
            · cases h
            · next r k' w' hr =>
              obtain ⟨R, hR, rfl, hle, hbits'⟩ := ih hr
              cases h
              refine ⟨.node L R, fun v hv => (List.mem_append.1 hv).elim (hL v) (hR v), ?_, hle, ?_⟩
              · simp only [CodeTree.size]
                omega
              · rw [hflag, hbits, hbits', serialize, List.cons_append, List.append_assoc]
                rfl
    · cases h

/-- `Rd` never moves the cursor back (R31). -/
theorem rd_pos_le (fuel n : Nat) (s : State) : (rd fuel n s).Ends fun t => s.src.pos ≤ t.src.pos := by
  have hread (k : Nat) (s : State) : s.src.pos ≤ (srcRead k s).2.src.pos := by
    rcases srcRead_cases k s with ⟨-, hr⟩ | ⟨-, hr⟩ <;> rw [hr]
    exact Nat.le_add_right _ _
  induction fuel generalizing n s with
  | zero => trivial
  | succ fuel ih =>
    have h1 := hread 1 s
    rw [rd]
    split
    · split
      · next u hu =>
        rw [hu] at h1
        exact h1
      · next f u hu =>
        rw [hu] at h1
        split
        · have h9 := hread 9 u
          split
          · next v hv =>
            rw [hv] at h9
            exact h1.trans h9
          · next sym v hv =>
            rw [hv] at h9
            split <;> exact h1.trans h9
        · have hleft := ih (n + 1) u
          split
          · next e v hv =>
            rw [hv] at hleft
            exact h1.trans hleft
          · trivial
          · next l m v hv =>
            rw [hv] at hleft
            have hright := ih m v
            split
            · next e w hw =>
              rw [hw] at hright
              exact h1.trans (hleft.trans hright)
            · trivial
            · next r k w hw =>
              rw [hw] at hright
              exact h1.trans (hleft.trans hright)
    · exact le_rfl

/-- Where the bits behind the magic tag are no tree that passes the checks of R102, RDHDR raises MalformedHeader with the
cursor behind the tag (R102). -/
theorem rdhdrStage_malformed {p : Config.Params} {s : State} {bits : Bits}
    (h : remaining s = bitsOf 32 p.magic.toNat ++ bits)
    (hno : ∀ (T : CodeTree) (rest : Bits), T.wf = true → bits ≠ serialize T ++ rest) :
    ∃ m k, rdhdrStage p s = .raised .malformedHeader (withSrcPos (withNode s m) k) ∧ s.src.pos + 32 ≤ k := by
  obtain ⟨hrest, -, hok⟩ := rdhdrBody_magic h
  have hpos := rd_pos_le 514 0 (withSrcPos s (s.src.pos + 32))
  rcases rd_cases 514 0 (withSrcPos s (s.src.pos + 32)) with ⟨n, _, hrd, hn, -, m, k, rfl⟩ | ⟨_, hrd, m, k, rfl⟩ | hrd
  · rw [hrd] at hpos
    obtain ⟨T, hv, hsize, hle, hbits⟩ := rd_ok_serialize hrd
    rw [hrest] at hbits
    have hroot : T.rootInternal ≠ true := fun hroot =>
      hno T _ (wf_iff.2 ⟨hroot, hv, by omega⟩) hbits
    cases T with
    | node l r => exact absurd rfl hroot
    | leaf v =>
      have hleaf := rd_serialize hv (n := 0) (fuel := 514) (hrest.trans hbits) (by simp [CodeTree.size]) (by decide)
      obtain ⟨-, -, heq⟩ := RdResult.ok.inj (hrd.symm.trans hleaf)
      refine ⟨m, k, ?_, hpos⟩
      have hentry := storeTree_leaf v s.node
      rw [rdhdrStage, hok _ _ _ hrd, heq, acceptRoot_leaf (by exact hentry) rfl, andThen_raised, ← heq]
      rfl
  · rw [hrd] at hpos
    exact ⟨m, k, rdhdrStage_raised h hrd, hpos⟩
  · exact absurd hrd (rd_not_stuck 514 0 _ (by decide) (by decide))

/-! ## Where the checks of R102 stop -/

/-- `k` internal flags lead `k` levels down, and a fault there is a fault of the tree (R101). -/
theorem rd_raised_below {k fuel n : Nat} {s t : State} {e : Cause} {rest : Bits}
    (h : remaining s = List.replicate k false ++ rest) (hn : n + k ≤ 513)
    (hrd : rd fuel (n + k) (withSrcPos s (s.src.pos + k)) = .raised e t) : rd (fuel + k) n s = .raised e t := by
  induction k generalizing n s with
  | zero => exact hrd
  | succ k ih =>
    rw [List.replicate_succ, List.cons_append] at h
    obtain ⟨h1, hrest⟩ := srcRead_append (n := 1) (g := [false]) h rfl (by decide)
    have hbelow : rd (fuel + k) (n + 1) (withSrcPos s (s.src.pos + 1)) = .raised e t := by
      refine ih hrest (by omega) ?_
      rw [withSrcPos_withSrcPos, withSrcPos_src, show n + 1 + k = n + (k + 1) by omega,
        show s.src.pos + 1 + k = s.src.pos + (k + 1) by omega]
      exact hrd
    rw [← Nat.add_assoc, rd, if_pos (by omega)]
    simp only [h1, if_neg (show BitVec.ofNat 1 (bitsVal [false]) ≠ 1 by decide), hbelow]

/-- A leaf whose symbol field is above 256 (R102). -/
theorem rd_symbol_too_large {fuel n : Nat} {s : State} {v : SymField} {rest : Bits}
    (h : remaining s = true :: bitsOf 9 v.toNat ++ rest) (hn : n < 513) (hv : 256 < v.toNat) :
    rd (fuel + 1) n s = .raised .malformedHeader (withSrcPos s (s.src.pos + 10)) := by
  obtain ⟨h1, hrest⟩ := srcRead_append (n := 1) (g := [true]) h rfl (by decide)
  obtain ⟨h9, -⟩ := srcRead_append hrest (bitsOf_length 9 v.toNat) (by decide)
  have hsym : BitVec.ofNat 9 (bitsVal (bitsOf 9 v.toNat)) = v := by simp [ofNat_bitsVal_bitsOf]
  rw [hsym] at h9
  simp only [rd, if_pos hn, h1, if_pos (show BitVec.ofNat 1 (bitsVal [true]) = 1 from rfl), h9,
    if_neg (Nat.not_le.2 hv)]
  rfl

end Sys2Proof.Machine

open Sys2Proof Sys2Proof.Machine

/-- Settles O40: `Rd` stores the tree from entry 0 on, in pre-order, and a tree stored in the entries below its size is
well formed. -/
theorem rdhdrReadsBackTheTree : Obligations.RdhdrReadsBackTheTree := by
  intro s T rest h hw hrem
  obtain ⟨-, -, hf⟩ := wf_iff.1 hw
  have hst := stored_storeTree T 0 s.node (by omega)
  have hlen : (BitVec.ofNat 10 T.size).toNat = T.size := Nat.mod_eq_of_lt (by omega)
  have hmagic : remaining s = bitsOf 32 hwParams.magic.toNat ++ (serialize T ++ rest) := by rw [hrem, List.append_assoc]
  have hexec := exec_rdhdr_ready h
  rw [rdhdrStage_serialize (s := headerStart s) hw hmagic] at hexec
  refine ⟨_, hexec, succeeded_markedTree h rfl, treeWF_headerRead hw (headerStart s), rfl, hlen,
    hst.currentTree_eq hf rfl, fun i hi => ?_, fun i hi => ?_, rfl, ?_, rfl, rfl, ⟨rfl, rfl⟩, rfl, rfl, ⟨rfl, rfl⟩⟩
  · obtain ⟨e, he, hentry⟩ := storeTree_entry T 0 s.node (by omega) (Nat.zero_le i.val) (by omega)
    obtain ⟨_, rfl⟩ := Vector.getElem?_eq_some_iff.1 he
    exact hentry
  · have hother := storeTree_other T 0 s.node i.val (.inr (by omega))
    exact Option.some_inj.1 ((Vector.getElem?_eq_getElem i.isLt).symm.trans
      (hother.trans (Vector.getElem?_eq_getElem i.isLt)))
  · have hskip := remaining_skip (g := bitsOf 32 hwParams.magic.toNat ++ serialize T) (rest := rest) hrem
    rw [List.length_append, bitsOf_length, ← Nat.add_assoc] at hskip
    exact hskip

/-- Settles O41: nothing is read behind bits that are no magic tag. -/
theorem wrongMagicRaisesBadMagic : Obligations.WrongMagicRaisesBadMagic := fun _ s hi h hne =>
  ⟨_, exec_header_raised hi h (rdhdrStage_badMagic (s := headerStart s) hne), tookFault_headerStart _ rfl,
    ⟨⟨rfl, rfl⟩, rfl, ⟨rfl, rfl⟩, rfl, rfl, rfl, ⟨rfl, rfl⟩⟩, rfl, rfl⟩

/-- Settles O42: `Rd` accepts nothing but a serialized tree, so without one it raises, or the tree is a leaf, which
`acceptRoot` refuses. -/
theorem everyOtherHeaderIsMalformed : Obligations.EveryOtherHeaderIsMalformed := by
  intro i s hi h hmagic hno
  have hrem : remaining s = bitsOf 32 hwParams.magic.toNat ++ (remaining s).drop 32 := by
    rw [← hmagic, List.take_append_drop]
  obtain ⟨m, k, hstage, hk⟩ := rdhdrStage_malformed (s := headerStart s) hrem fun T rest hw hbits => by
    refine hno T rest hw ?_
    rw [hrem, hbits, List.append_assoc]
  have hexec := exec_header_raised hi h hstage
  have hlen : s.src.pos + 32 ≤ s.src.bits.length := by
    have := congrArg List.length hmagic
    rw [List.length_take, bitsOf_length, remaining_length] at this
    omega
  have hmoved : k ≤ max s.src.pos s.src.bits.length := (exec_touches hexec).source.pos
  exact ⟨_, hexec, tookFault_headerStart _ rfl, rfl, rfl, hk, hmoved.trans (by omega), ⟨rfl, rfl⟩, rfl, ⟨rfl, rfl⟩, rfl,
    rfl, ⟨rfl, rfl⟩⟩

/-- Settles O43: a leaf is read whole and then refused as a root; `k` internal flags lead `k` levels down, to a symbol
that is too large or to the end of the node memory. -/
theorem unusableHeadersStopWhereRead : Obligations.UnusableHeadersStopWhereRead := by
  intro s rest h
  have hfault (u : State) (hb : rdhdrStage hwParams (headerStart s) = .raised .malformedHeader u)
      (hu : u.status = (headerStart s).status) :
      ∃ t, exec .rdhdr s = .next t ∧ TookFault .malformedHeader s t (freqValid s.status) false false ∧
        t.src.pos = u.src.pos :=
    ⟨_, exec_header_raised (.inl rfl) h hb, tookFault_headerStart _ hu, rfl⟩
  refine ⟨fun v hv hrem => ?_, fun k v hk hv hrem => ?_, fun hrem => ?_⟩
  · rw [List.append_assoc] at hrem
    obtain ⟨hrest, -, hok⟩ := rdhdrBody_magic (s := headerStart s) hrem
    have hrd := rd_serialize (T := .leaf v) (by simpa [CodeTree.symbols] using hv) (n := 0) (fuel := 514) hrest
      (by simp [CodeTree.size]) (by decide)
    have hroot := hok _ _ _ hrd
    have hentry := storeTree_leaf v s.node
    rw [acceptRoot_leaf (by exact hentry) rfl] at hroot
    have hstage := congrArg (·.andThen markTree) hroot
    obtain ⟨t, hexec, htook, hpos⟩ := hfault _ hstage rfl
    refine ⟨t, hexec, htook, hpos.trans ?_⟩
    simp only [withSrcPos_src, serialize, List.length_cons, bitsOf_length]
    rfl
  · rw [List.append_assoc, List.append_assoc] at hrem
    obtain ⟨hrest, -⟩ := rdhdrBody_magic (s := headerStart s) hrem
    obtain ⟨fuel, hfuel⟩ : ∃ fuel, 514 = fuel + 1 + k := ⟨513 - k, by omega⟩
    have hskip := remaining_skip hrest
    rw [List.length_replicate] at hskip
    have hrd := rd_raised_below hrest (n := 0) (by omega) (rd_symbol_too_large (fuel := fuel) hskip (by omega) hv)
    rw [← hfuel] at hrd
    exact hfault _ (rdhdrStage_raised hrem hrd) rfl
  · rw [List.append_assoc] at hrem
    obtain ⟨hrest, -⟩ := rdhdrBody_magic (s := headerStart s) hrem
    exact hfault _ (rdhdrStage_raised hrem (rd_raised_below hrest (n := 0) (fuel := 1) (by decide) rfl)) rfl
end

section
/-! DECODE and DECOMPRESS as commands (R104 to R106). -/

namespace Sys2Proof.Machine

/-- A ready block with a valid tree accepts DECODE (R113, R114). -/
theorem exec_decode_ready {s : State} (h : Ready s) (ht : treeValid s.status = true) :
    exec .decode s = finish (decodeBody hwParams (acknowledge s)) :=
  accept_ready h ((treeValid_acknowledge s).trans ht)

/-- The current tree of a well-formed memory has an internal root (R18 item 2). -/
theorem rootInternal_of_treeWF {s : State} {T : CodeTree} (h : TreeWF s) (hT : currentTree s = some T) :
    T.rootInternal = true := by
  obtain ⟨T', hT', hwf⟩ := currentTree_of_treeWF h
  obtain rfl : T' = T := Option.some_inj.1 (hT'.symm.trans hT)
  exact (wf_iff.1 hwf).1

/-- DECODE's body on codewords that end with a sentinel's (R104): the bytes are appended, the sink is closed, and `CUR`
stands on the sentinel's leaf. -/
theorem decodeBody_closes {s : State} {T : CodeTree} {data : List (SymField × Bits)} {e rest : Bits}
    (hT : currentTree s = some T) (hi : T.rootInternal = true) (hd : DataLeaves T data) (he : (256, e) ∈ leafPaths T)
    (ho : s.snk.closed = false) (h : remaining s = pathBits data ++ (e ++ rest)) :
    ∃ c, (nodeRead s c).map (fun e => (e.leaf, e.sym)) = some (true, 256) ∧
      decodeBody hwParams s = .done (withSink (withCur
        (withSrcPos s (s.src.pos + (pathBits data).length + e.length)) c) (closedSink (s.snk.bits ++ leafBytes data))) := by
  have hf : (pathBits data).length + e.length ≤ s.src.bits.length + 1 := by
    have hlen := congrArg List.length h
    simp only [remaining_length, List.length_append] at hlen
    omega
  obtain ⟨c, hc, hloop⟩ := decodeLoop_leaves hT hi hd he ho h hf
  refine ⟨c, hc, ?_⟩
  rw [decodeBody, hloop, andThen_done, snkClose_hwParams (by exact ho)]
  rfl

end Sys2Proof.Machine

open Sys2Proof Sys2Proof.Machine

/-- Settles O44: each root path brings `CUR` to its leaf, and the loop ends on the sentinel's. -/
theorem decodeEmitsTheBytes : Obligations.DecodeEmitsTheBytes := by
  rintro s T data e rest ⟨h, ho⟩ ht hwf hT hd he hrem
  rw [List.append_assoc] at hrem
  obtain ⟨c, hc, hbody⟩ :=
    decodeBody_closes (s := acknowledge s) (by exact hT) (rootInternal_of_treeWF hwf hT) hd he ho hrem
  have hexec := exec_decode_ready h ht
  rw [hbody] at hexec
  have hsucc := succeeded_complete (u := withSink (withCur (withSrcPos (acknowledge s)
    (s.src.pos + (pathBits data).length + e.length)) c) (closedSink (s.snk.bits ++ leafBytes data))) h rfl
  rw [ht] at hsucc
  exact ⟨_, hexec, hsucc, rfl, rfl, hc, ⟨rfl, rfl⟩, ⟨rfl, rfl⟩, rfl, rfl, rfl, ⟨rfl, rfl⟩⟩

/-- Settles O45: the bits end at an internal node, behind the bytes of the whole codewords. -/
theorem decodeOfACutStreamFaults : Obligations.DecodeOfACutStreamFaults := by
  rintro s T data r x ⟨h, ho⟩ ht hwf hT hd hx hr hne hrem
  obtain ⟨c, hbody⟩ := decodeBody_cut hwParams (s := acknowledge s) (by exact hT) (rootInternal_of_treeWF hwf hT) hd hx
    hr hne ho hrem
  have hexec := exec_decode_ready h ht
  rw [hbody] at hexec
  have htook := tookFault_raiseFault (s := s) .malformedStream (u := withCur (appended (withSrcPos (acknowledge s)
    (s.src.pos + (remaining s).length)) (leafBytes data)) c) rfl
  rw [ht] at htook
  exact ⟨_, hexec, htook, congrArg (Sink.mk _) ho, rfl, ⟨rfl, rfl⟩, ⟨rfl, rfl⟩, rfl, rfl, rfl, ⟨rfl, rfl⟩⟩

/-- Settles O46: DECOMPRESS is RDHDR and then DECODE (R54), which finds the tree valid and the codewords next. -/
theorem decompressEmitsTheBytes : Obligations.DecompressEmitsTheBytes := by
  rintro s T data e rest ⟨h, ho⟩ hw hd he hrem
  rw [List.append_assoc, List.append_assoc] at hrem
  obtain ⟨t, hrdhdr, hsucc, hwf, -, -, hT, -, -, hsrc, hrest, hsnk, -, ⟨hf, hn⟩, hinq, hcode, hhost⟩ :=
    rdhdrReadsBackTheTree s T _ h hw hrem
  obtain ⟨hfreq, htree, hcodes, -⟩ := flags_of_succeeded hsucc
  rw [← List.append_assoc] at hrest
  obtain ⟨u, hdecode, hsucc', hsnk', hsrc', -, hroot, ⟨hf', hn'⟩, hnode, hinq', hcode', hhost'⟩ :=
    decodeEmitsTheBytes t T data e rest ⟨ready_of_succeeded hsucc, by rw [hsnk]; exact ho⟩ htree hwf hT hd he hrest
  rw [hfreq, hcodes] at hsucc'
  refine ⟨u, ?_, succeeded_trans hsucc hsucc', (treeWF_congr hroot hnode).2 hwf, (currentTree_congr hroot hnode).trans hT,
    by rw [hsnk', hsnk], by rw [hsrc', hsrc], ⟨hf'.trans hf, hn'.trans hn⟩, hinq'.trans hinq, hcode'.trans hcode,
    sameHost_trans hhost hhost'⟩
  rw [exec_decompress_eq_stages h, hrdhdr, thenExec, hdecode]
end

section
/-! COUNT of an input that is too long (R72). -/

namespace Sys2Proof.Machine

/-- Counting bytes leaves the sentinel's entry alone (R71). -/
theorem addBytes_eos (l : List Byte) (f : Vector Count 257) : (addBytes l f)[eosSymbol] = f[eosSymbol] := by
  induction l generalizing f with
  | nil => rfl
  | cons b l ih =>
    rw [addBytes_cons, ih]
    exact Vector.getElem_set_ne _ _ fun h => byteSymbol_ne_eos b (Fin.ext h)

/-- COUNT's loop past bytes that `N_MAX` allows: it goes on behind them, with their counts added (R70). -/
theorem countLoop_past_bytes {p : Config.Params} (hp : p.nMax < 2 ^ 64) {l : List Byte} {rest : Bits} {fuel : Nat}
    {s : State} (h : remaining s = bytesToBits l ++ rest) (hn : s.total.toNat + l.length ≤ p.nMax) :
    countLoop p (l.length + fuel) s = countLoop p fuel (withSrcPos
      (withTable s (addBytes l s.freq) (s.total + BitVec.ofNat 64 l.length)) (s.src.pos + 8 * l.length)) := by
  induction l generalizing s with
  | nil => simp
  | cons b l ih =>
    obtain ⟨hb, hrest⟩ := remaining_after_byte h
    rw [List.length_cons] at hn ⊢
    have htotal : (s.total + 1).toNat = s.total.toNat + 1 := by
      rw [BitVec.toNat_add]
      exact Nat.mod_eq_of_lt (by simp; omega)
    have hn' : (countSymbol (byteSymbol b) (withSrcPos s (s.src.pos + 8))).total.toNat + l.length ≤ p.nMax := by
      rw [countSymbol, withTable_total, withSrcPos_total, htotal]
      omega
    have hsum : s.total + 1 + BitVec.ofNat 64 l.length = s.total + BitVec.ofNat 64 (l.length + 1) := by
      rw [BitVec.ofNat_add, BitVec.add_assoc, BitVec.add_comm 1]
      rfl
    have hpos : s.src.pos + 8 + 8 * l.length = s.src.pos + 8 * (l.length + 1) := by omega
    rw [Nat.add_right_comm, countLoop_byte hb (by omega), ih (by rw [countSymbol, remaining_withTable, hrest]) hn',
      addBytes_cons, ← hsum, ← hpos]
    rfl

/-- What COUNT leaves inside the command when it raises Overflow (R72): the counts of the bytes before the one that did
not fit, and the cursor behind that one. -/
def overflowed (n : Nat) (s : State) : State :=
  withSrcPos (withTable s (addBytes ((remainingBytes s).take n) (Vector.replicate 257 0)) (BitVec.ofNat 64 n))
    (s.src.pos + 8 * (n + 1))

/-- COUNT as a stage, for an input of more than `N_MAX` bytes (R72). -/
theorem countStage_overflow {p : Config.Params} (hp : p.nMax < 2 ^ 64) {s : State}
    (hn : p.nMax < (remainingBytes s).length) :
    countStage p s = .raised .overflow (overflowed p.nMax s) := by
  obtain ⟨tail, h, -⟩ := remaining_eq_bytes s
  have hlen : ((remainingBytes s).take p.nMax).length = p.nMax := List.length_take_of_le hn.le
  rw [← List.take_append_drop p.nMax (remainingBytes s), List.drop_eq_getElem_cons hn, bytesToBits_append,
    bytesToBits_cons, List.append_assoc, List.append_assoc] at h
  obtain ⟨fuel, hfuel⟩ : ∃ fuel, s.src.bits.length + 1 = p.nMax + (fuel + 1) := by
    have hbits := congrArg List.length h
    rw [remaining_length, List.length_append, bytesToBits_length, hlen] at hbits
    exact ⟨s.src.bits.length - p.nMax, by omega⟩
  have hskip := remaining_skip h
  rw [bytesToBits_length, hlen] at hskip
  have hpast := countLoop_past_bytes hp (s := withTable s (Vector.replicate 257 0) 0) (fuel := fuel + 1) h
    (by rw [hlen]; simp)
  rw [hlen, withTable_total, zero_add, withTable_src, withTable_withTable, withTable_freq] at hpast
  rw [countStage, countBody, hfuel, hpast, countLoop_overflow (by exact hskip)]
  · simp only [andThen_raised, withSrcPos_withSrcPos, withSrcPos_src, overflowed, Nat.mul_add, Nat.mul_one, Nat.add_assoc]
  · rw [withSrcPos_total, withTable_total, BitVec.toNat_ofNat, Nat.mod_eq_of_lt hp]

/-- A fault of COUNT or COMPRESS before `FREQ_VALID` is set leaves every valid flag cleared (R117, R127). -/
theorem tookFault_clearAll {s u : State} (e : Cause) (hu : u.status = clearAll (acknowledge s).status) :
    TookFault e s (raiseFault e u) false false false := by
  simp [TookFault, FlagsAre, raiseFault, hu, clearAll, clearTreeCode, clearCode]

end Sys2Proof.Machine

open Sys2Proof Sys2Proof.Machine

/-- Settles O24: the loop counts `N_MAX` bytes, with no count above `N_MAX`, and raises at the next one. -/
theorem countOverflows : Obligations.CountOverflows := by
  intro p s hp h hn
  have hexec : runWith p .count s = finish (countStage p (withStatus (acknowledge s) (clearAll (acknowledge s).status))) :=
    accept_ready h rfl
  rw [countStage_overflow hp (by exact hn)] at hexec
  refine ⟨_, hexec, tookFault_clearAll _ rfl, fun b => ?_, ?_, Nat.mod_eq_of_lt hp, rfl, rfl, ⟨rfl, rfl⟩, rfl, rfl, rfl,
    rfl, ⟨rfl, rfl⟩⟩
  · have hcount := List.count_le_length (a := b) (l := (remainingBytes s).take p.nMax)
    rw [List.length_take_of_le hn.le] at hcount
    calc (addBytes ((remainingBytes s).take p.nMax) (Vector.replicate 257 0))[byteSymbol b].toNat
        = ((remainingBytes s).take p.nMax).count b % 2 ^ 64 := by rw [addBytes_byte]; simp
      _ = ((remainingBytes s).take p.nMax).count b := Nat.mod_eq_of_lt (Nat.lt_of_le_of_lt hcount hp)
  · calc (addBytes ((remainingBytes s).take p.nMax) (Vector.replicate 257 0))[eosSymbol]
        = (Vector.replicate 257 (0 : Count))[eosSymbol] := addBytes_eos _ _
      _ = 0 := Vector.getElem_replicate _
end

section
/-! The node memory after BUILD (R75, R80): the leaves in their order, then the merges, and nothing past the tree. -/

namespace Sys2Proof.Machine

/-! ## The leaves -/

/-- The heap has allocated the entries listed, in order, over the memory `m`. -/
structure Heap.Lists (m : Vector NodeEntry 513) (l : List NodeEntry) (h : Heap) : Prop where
  n : h.n = l.length
  node : h.node.toList = l ++ m.toList.drop l.length

section
variable {m : Vector NodeEntry 513} {l : List NodeEntry} {h : Heap}

theorem Heap.Lists.add (H : h.Lists m l) (hn : l.length < 513) (e : NodeEntry) : (heapAdd h e).Lists m (l ++ [e]) := by
  refine ⟨by rw [heapAdd_n, H.n, List.length_append, List.length_singleton], ?_⟩
  have hdrop : m.toList.drop l.length = m[l.length] :: m.toList.drop (l.length + 1) := by
    rw [List.drop_eq_getElem_cons (by simpa using hn)]
    simp
  rw [heapAdd_node, Vector.toList_setIfInBounds, H.node, H.n, List.set_append_right _ _ le_rfl, Nat.sub_self, hdrop,
    List.set_cons_zero, List.length_append, List.length_singleton, List.append_assoc, List.singleton_append]

/-- An entry listed stands at its place. -/
theorem Heap.Lists.getElem?_of_lt (H : h.Lists m l) {i : Nat} (hi : i < l.length) : h.node[i]? = l[i]? := by
  rw [← Vector.getElem?_toList, H.node, List.getElem?_append_left hi]

/-- Past them the memory is as it was. -/
theorem Heap.Lists.getElem?_of_ge (H : h.Lists m l) {i : Nat} (hi : l.length ≤ i) : h.node[i]? = m[i]? := by
  rw [← Vector.getElem?_toList, H.node, List.getElem?_append_right hi, List.getElem?_drop,
    Nat.add_sub_cancel' hi, Vector.getElem?_toList]

/-- The leaf entries of numbered counts: one for each count above 0 (R75). -/
def liveLeaves (l : List (Count × Nat)) : List NodeEntry :=
  l.filterMap fun x => if x.1 = 0 then none else some (leafEntry (BitVec.ofNat 9 x.2) x.1)

theorem Heap.Lists.foldl_leaves {xs : List (Count × Nat)} (H : h.Lists m l) (hn : l.length + xs.length ≤ 513) :
    (xs.foldl (fun h x => if x.1 = 0 then h else heapAdd h (leafEntry (BitVec.ofNat 9 x.2) x.1)) h).Lists m
      (l ++ liveLeaves xs) := by
  induction xs generalizing h l with
  | nil => simpa [liveLeaves] using H
  | cons x xs ih =>
    rw [List.length_cons] at hn
    rw [List.foldl_cons]
    by_cases hx : x.1 = 0
    · have hlive : liveLeaves (x :: xs) = liveLeaves xs := List.filterMap_cons_none (if_pos hx)
      rw [if_pos hx, hlive]
      exact ih H (by omega)
    · have hlive : liveLeaves (x :: xs) = leafEntry (BitVec.ofNat 9 x.2) x.1 :: liveLeaves xs :=
        List.filterMap_cons_some (if_neg hx)
      rw [if_neg hx, hlive, List.append_cons]
      exact ih (H.add (by omega) _) (by rw [List.length_append, List.length_singleton]; omega)

end

/-- The leaves of the table, in ascending symbol order (R75). -/
def tableLeaves (s : State) : List NodeEntry := (liveSymbols s).map fun v => leafEntry (BitVec.ofNat 9 v.val) s.freq[v]

theorem liveLeaves_eq_tableLeaves (s : State) : liveLeaves s.freq.toList.zipIdx = tableLeaves s := by
  rw [liveLeaves, zipIdx_freq, List.filterMap_map, tableLeaves, liveSymbols, ← List.filterMap_eq_map,
    ← List.filterMap_eq_filter, List.filterMap_filterMap]
  congr 1
  funext v
  by_cases hv : s.freq[v.val] = 0#64 <;> simp [hv, Option.guard]

/-- The leaves BUILD begins with, the synthesized one last when there is only one other (R78). -/
def buildLeaves (p : Config.Params) (s : State) : List NodeEntry :=
  if (liveSymbols s).length = 1 then tableLeaves s ++ [leafEntry p.dummySym 0] else tableLeaves s

theorem buildLeaves_length (p : Config.Params) (s : State) : (buildLeaves p s).length = buildLeafCount s := by
  rw [buildLeaves, buildLeafCount, tableLeaves]
  split
  · next h1 => rw [List.length_append, List.length_map, h1, List.length_singleton]
  · rw [List.length_map]

theorem buildFields_length_eq (p : Config.Params) (s : State) : (buildFields p s.freq).length = buildLeafCount s := by
  have hlen : (tableFields s.freq).length = (liveSymbols s).length := by rw [tableFields_eq_map, List.length_map]
  rw [buildFields, buildLeafCount, hlen]
  split
  · next h1 => rw [List.length_cons, hlen, h1]
  · exact hlen

theorem leaf_of_mem_buildLeaves {p : Config.Params} {s : State} {e : NodeEntry} (h : e ∈ buildLeaves p s) :
    e.leaf = true := by
  have htable : ∀ e ∈ tableLeaves s, e.leaf = true := by
    intro e he
    obtain ⟨v, -, rfl⟩ := List.mem_map.1 he
    rfl
  rw [buildLeaves] at h
  split at h
  · rcases List.mem_append.1 h with h | h
    · exact htable e h
    · rw [List.mem_singleton.1 h]
      rfl
  · exact htable e h

theorem initialHeap_lists (p : Config.Params) (s : State) : (initialHeap p s).Lists s.node (buildLeaves p s) := by
  have hlive : (liveSymbols s).length ≤ 257 := by
    rw [← List.length_map (f := fun v : Symbol => BitVec.ofNat 9 v.val), ← tableFields_eq_map]
    exact tableFields_length_le _
  have H : (addLeaves s.freq ⟨s.node, Vector.replicate 513 false, 0⟩).Lists s.node (tableLeaves s) := by
    rw [← liveLeaves_eq_tableLeaves]
    exact Heap.Lists.foldl_leaves (l := []) ⟨rfl, rfl⟩ (by simp)
  have hn : (addLeaves s.freq ⟨s.node, Vector.replicate 513 false, 0⟩).n = (liveSymbols s).length := by
    rw [H.n, tableLeaves, List.length_map]
  rw [initialHeap, buildLeaves, hn]
  split
  · next h1 => exact H.add (by rw [tableLeaves, List.length_map]; omega) _
  · exact H

/-! ## The merges -/

/-- `h` comes from `g` by merges (R75): they allocate internal entries whose children stand before them, and write
nothing else. -/
structure Heap.Grown (g h : Heap) : Prop where
  le : g.n ≤ h.n
  same : ∀ i, i < g.n ∨ h.n ≤ i → h.node[i]? = g.node[i]?
  inner : ∀ i e, g.n ≤ i → i < h.n → h.node[i]? = some e → e.leaf = false ∧ e.left.toNat < i ∧ e.right.toNat < i

/-- Taking an element out of the priority set puts none in. -/
theorem mem_queue_of_clear {h : Heap} {m i : Nat} (hi : i ∈ queue ⟨h.node, h.inq.setIfInBounds m false, h.n⟩) :
    i ∈ queue h := by
  rw [mem_queue, Vector.getElem?_setIfInBounds] at hi
  rw [mem_queue]
  split at hi
  · split at hi <;> cases hi
  · exact hi

/-- An allocation puts its own index in. -/
theorem mem_queue_heapAdd {h : Heap} {e : NodeEntry} {i : Nat} (hi : i ∈ queue (heapAdd h e)) : i = h.n ∨ i ∈ queue h := by
  rw [mem_queue, heapAdd_inq, Vector.getElem?_setIfInBounds] at hi
  rw [mem_queue]
  split at hi
  · next heq => exact .inl heq.symm
  · exact .inr hi

/-- A heap of which one more merge is made. -/
theorem Heap.Grown.of_merge {g h2 h : Heap} {e : NodeEntry} (hnode : h2.node = g.node) (hn : h2.n = g.n)
    (he : g.n < 513 → e.leaf = false ∧ e.left.toNat < g.n ∧ e.right.toNat < g.n) (G : (heapAdd h2 e).Grown h) :
    g.Grown h := by
  have hle : g.n + 1 ≤ h.n := by simpa [hn] using G.le
  refine ⟨by omega, fun i hi => ?_, fun i d hgi hih hd => ?_⟩
  · rw [G.same i (by rw [heapAdd_n, hn]; omega), heapAdd_node, hnode, hn, Vector.getElem?_setIfInBounds_ne (by omega)]
  · rcases Nat.eq_or_lt_of_le hgi with rfl | hlt
    · have hbound : g.n < 513 := (Vector.getElem?_eq_some_iff.1 hd).1
      rw [G.same _ (.inl (by rw [heapAdd_n, hn]; omega)), heapAdd_node, hn,
        Vector.getElem?_setIfInBounds_self_of_lt hbound] at hd
      obtain rfl := Option.some_inj.1 hd
      exact he hbound
    · exact G.inner i d (by rw [heapAdd_n, hn]; omega) hih hd

theorem mergeLoop_grown (p : Config.Params) {fuel : Nat} {g h : Heap} (hq : ∀ i ∈ queue g, i < g.n)
    (hm : mergeLoop p fuel g = some h) : g.Grown h := by
  induction fuel generalizing g with
  | zero => cases hm
  | succ fuel ih =>
    rcases mergeLoop_cases p fuel g with ⟨-, hstop⟩ | ⟨-, hturn⟩
    · obtain rfl := Option.some_inj.1 (hstop.symm.trans hm)
      exact ⟨le_rfl, fun _ _ => rfl, fun i e hgi hig => by omega⟩
    · rw [hturn] at hm
      rcases removeMin_cases p g with ⟨-, hr⟩ | ⟨wa, a, ha, hr⟩
      · simp [hr] at hm
      · rw [hr, Option.bind_some] at hm
        rcases removeMin_cases p ⟨g.node, g.inq.setIfInBounds a false, g.n⟩ with ⟨-, hr'⟩ | ⟨wb, b, hb, hr'⟩
        · simp [hr'] at hm
        · rw [hr', Option.bind_some] at hm
          have haq : a ∈ queue g := List.mem_map_of_mem ha
          have hbq : b ∈ queue g := mem_queue_of_clear (List.mem_map_of_mem hb)
          refine Heap.Grown.of_merge (h2 := ⟨g.node, (g.inq.setIfInBounds a false).setIfInBounds b false, g.n⟩)
            (e := mergeEntry p wa a wb b) rfl rfl (fun hbound => ?_) (ih (fun i hi => ?_) hm)
          · have han := hq a haq
            have hbn := hq b hbq
            obtain ⟨hleaf, ⟨hl, hr⟩ | ⟨hl, hr⟩⟩ :=
              mergeEntry_children p wa wb (show a < 513 by omega) (show b < 513 by omega)
            · exact ⟨hleaf, by omega, by omega⟩
            · exact ⟨hleaf, by omega, by omega⟩
          · rw [heapAdd_n]
            rcases mem_queue_heapAdd hi with rfl | hi
            · exact Nat.lt_succ_self _
            · exact (hq i (mem_queue_of_clear (mem_queue_of_clear hi))).trans (Nat.lt_succ_self _)

/-! ## The command -/

/-- What BUILD's body leaves (R75), with the heap it comes from: one tree, grown from the leaves by merges. -/
theorem buildBody_heap (p : Config.Params) {s : State} (h : tableFields s.freq ≠ []) :
    ∃ g x, buildBody p s =
        .done (withTree (withInq (withNode s g.node) g.inq) (BitVec.ofNat 10 x.root) (BitVec.ofNat 10 (x.root + 1))) ∧
      g.Holds [x] ∧ x.tree.symbols.Perm (buildFields p s.freq) ∧ (initialHeap p s).Grown g := by
  obtain ⟨F, H, hs⟩ := initialHeap_holds p s h
  obtain ⟨h2, h257⟩ := buildFields_length p h
  have hn := H.n_add_length
  have hle := length_le_forestSymbols F
  have hpos : 1 ≤ F.length := by
    by_contra hF
    have hnil : (forestSymbols F).length = 0 := by rw [List.length_eq_zero_iff.1 (show F.length = 0 by omega)]; rfl
    have := hs.length_eq
    omega
  rw [hs.length_eq] at hn hle
  obtain ⟨g, x, hm, G, hx⟩ := H.mergeLoop_ends p (fuel := 513) hpos (by omega) (by rw [hs.length_eq]; exact h257)
  have hroot : x.root + 1 = g.n := G.newest x rfl
  have hq : ∀ i ∈ queue (initialHeap p s), i < (initialHeap p s).n := by
    intro i hi
    obtain ⟨y, hy, rfl⟩ := List.mem_map.1 (H.roots.mem_iff.1 hi)
    exact H.lt_n hy (H.stored y hy).root_mem
  refine ⟨g, x, ?_, G, hx.trans hs, mergeLoop_grown p hq hm⟩
  simp only [buildBody, if_neg (show (initialHeap p s).n ≠ 0 by omega), hm, ← hroot, Nat.add_sub_cancel]

/-- BUILD as a command, with the heap it leaves (R75). -/
theorem exec_build_heap {s : State} (hr : Ready s) (hf : freqValid s.status = true) (he : s.freq[eosSymbol] ≠ 0) :
    ∃ t g x, exec .build s = .next t ∧ t.node = g.node ∧ t.inq = g.inq ∧ t.root.toNat = x.root ∧
      t.nnodes.toNat = x.root + 1 ∧ g.Holds [x] ∧ x.root + 1 = g.n ∧ g.n + 1 = 2 * buildLeafCount s ∧
      x.tree.symbols.length = buildLeafCount s ∧ 2 ≤ buildLeafCount s ∧ buildLeafCount s ≤ 257 ∧
      (initialHeap hwParams s).Grown g := by
  have hne : tableFields s.freq ≠ [] := List.ne_nil_of_mem (mem_tableFields.2 ⟨_, he, rfl⟩)
  obtain ⟨h2, h257⟩ := buildFields_length hwParams hne
  obtain ⟨g, x, hb, G, hsym, hgrown⟩ :=
    buildBody_heap hwParams (s := withStatus (acknowledge s) (clearTreeCode (acknowledge s).status)) hne
  have hlen : x.tree.symbols.length = buildLeafCount s := by rw [hsym.length_eq]; exact buildFields_length_eq hwParams s
  have hn := G.n_add_length
  rw [forestSymbols, List.flatMap_singleton, hlen, List.length_singleton] at hn
  rw [buildFields_length_eq] at h2 h257
  have hroot : x.root + 1 = g.n := G.newest x rfl
  have hexec := exec_build_ready hr hf
  rw [buildStage, hb, andThen_done] at hexec
  exact ⟨_, g, x, hexec, rfl, rfl, Nat.mod_eq_of_lt (by omega), Nat.mod_eq_of_lt (by omega), G, hroot, hn, hlen, h2, h257,
    hgrown⟩

/-- A tree with an internal root is at least one edge deep. -/
theorem depth_pos {T : CodeTree} (h : T.rootInternal = true) : 1 ≤ T.depth := by
  cases T with
  | leaf v => cases h
  | node l r => exact Nat.le_add_right 1 _

end Sys2Proof.Machine

open Sys2Proof Sys2Proof.Machine

/-- Settles O27: the heap BUILD leaves holds one tree, whose root is the priority set, and past its entries the merges
and the leaves have written nothing. -/
theorem buildLeavesAWellFormedTree : Obligations.BuildLeavesAWellFormedTree := by
  intro s hr hf he
  obtain ⟨t, T, hexec, hsucc, hwf, -, -, htable, hcur, hcode, hsrc, hsnk, hhost⟩ := exec_build_tree hr hf he
  obtain ⟨u, g, x, hu, hnode, hinq, hroot, hnnodes, G, hn, -, -, -, -, hgrown⟩ := exec_build_heap hr hf he
  obtain rfl : u = t := by simpa [hu] using hexec
  have L := initialHeap_lists hwParams s
  refine ⟨u, hexec, hsucc, hwf, by rw [hroot, hnnodes], fun i => ?_, fun i hi => ?_, htable, hcur, hcode, hsrc, hsnk,
    hhost⟩
  · have hmem : i.val ∈ queue g ↔ i.val = u.root.toNat := by
      rw [hroot, G.roots.mem_iff]
      exact List.mem_singleton
    rw [mem_queue, ← hinq, Vector.getElem?_eq_getElem i.isLt, Option.some_inj] at hmem
    rw [Bool.eq_iff_iff, decide_eq_true_iff]
    exact hmem
  · rw [hnnodes, hn] at hi
    have hsame : u.node[i.val]? = s.node[i.val]? := by
      rw [hnode, hgrown.same _ (.inr hi), L.getElem?_of_ge (by rw [← L.n]; exact hgrown.le.trans hi)]
    exact Option.some_inj.1 ((Vector.getElem?_eq_getElem i.isLt).symm.trans
      (hsame.trans (Vector.getElem?_eq_getElem i.isLt)))

/-- Settles O29: the first entries are the leaves as they were allocated, and each entry after them is a merge of two
earlier ones. -/
theorem builtTreeShape : Obligations.BuiltTreeShape := by
  intro s hr hf he
  obtain ⟨t, T, hexec, -, hwf, hT, -⟩ := exec_build_tree hr hf he
  obtain ⟨u, g, x, hu, hnode, -, hroot, hnnodes, G, hn, hcount, hlen, h2, h257, hgrown⟩ := exec_build_heap hr hf he
  obtain rfl : u = t := by simpa [hu] using hexec
  have L := initialHeap_lists hwParams s
  have hinit : (initialHeap hwParams s).n = buildLeafCount s := by rw [L.n, buildLeaves_length]
  have hsize := size_add_one x.tree
  have hx : currentTree u = some x.tree := by
    refine Stored.currentTree_eq (i := x.root) (js := x.nodes) ?_ (by omega) hroot
    rw [hnode]
    exact G.stored x (by simp)
  obtain rfl : x.tree = T := Option.some_inj.1 (hx.symm.trans hT)
  have hleaves : ∀ i, i < buildLeafCount s → u.node[i]? = (buildLeaves hwParams s)[i]? := by
    intro i hi
    rw [hnode, hgrown.same i (.inl (hinit ▸ hi)), L.getElem?_of_lt (by rw [buildLeaves_length]; exact hi)]
  have hat : ∀ i : Fin 513, u.node[i.val]? = some u.node[i] := fun i => Vector.getElem?_eq_getElem i.isLt
  have hdepth := depth_lt x.tree
  refine ⟨h2, h257, u, x.tree, hexec, hT, hlen, by omega, by omega, depth_pos (rootInternal_of_treeWF hwf hT), by omega,
    fun hlive => ?_, fun i hi => ?_, fun i hi hin => ?_⟩
  · have htable : buildLeaves hwParams s = tableLeaves s := if_neg (by omega)
    refine List.ext_getElem? fun i => ?_
    rw [List.getElem?_take, Vector.getElem?_toList]
    rw [htable] at hleaves
    split
    · next hi => exact hleaves i hi
    · next hi =>
      refine (List.getElem?_eq_none ?_).symm
      rw [← buildLeaves_length hwParams, htable] at hi
      exact Nat.not_lt.1 hi
  · have hentry := (hat i).symm.trans (hleaves i hi)
    exact leaf_of_mem_buildLeaves (List.mem_of_getElem? hentry.symm)
  · rw [hnnodes, hn] at hin
    exact hgrown.inner i _ (hinit ▸ hi) hin (hnode ▸ hat i)
end

section
/-! The size of the file COMPRESS writes (R59, R63). -/

namespace Sys2Proof.Machine

/-- A second command has answered a state, so the first one has too. -/
theorem thenExec_eq_next {o : Host.Outcome State Fault Refusal} {i : Instr} {t : State} (h : thenExec o i = .next t) :
    ∃ s, o = .next s ∧ exec i s = .next t := by
  cases o with
  | next s => exact ⟨s, rfl, h⟩
  | fault f => cases h
  | refused r => cases h

/-! ## The leaves -/

/-- A symbol is the sentinel or a byte (R1). -/
theorem symbol_cases (v : Symbol) : v = eosSymbol ∨ ∃ b, v = byteSymbol b := by
  rcases Nat.lt_or_ge v.val 256 with hlt | hge
  · exact .inr ⟨BitVec.ofNat 8 v.val, Fin.ext (Nat.mod_eq_of_lt hlt).symm⟩
  · exact .inl (Fin.ext (Nat.le_antisymm (Nat.le_of_lt_succ v.isLt) hge))

/-- The symbols with a count above 0 are the sentinel and the bytes that occur (R70, R71). -/
theorem liveSymbols_perm {s : State} {S : List Byte} (hbyte : ∀ b : Byte, (s.freq[byteSymbol b]).toNat = S.count b)
    (heos : s.freq[eosSymbol] = 1) : (liveSymbols s).Perm (eosSymbol :: S.dedup.map byteSymbol) := by
  have hnodup : (eosSymbol :: S.dedup.map byteSymbol).Nodup := by
    refine List.nodup_cons.2 ⟨fun hmem => ?_, (List.nodup_dedup S).map fun _ _ => byteSymbol_inj⟩
    obtain ⟨b, -, hb⟩ := List.mem_map.1 hmem
    exact byteSymbol_ne_eos b hb
  refine (List.perm_ext_iff_of_nodup ((List.nodup_finRange 257).filter _) hnodup).2 fun v => ?_
  rw [List.mem_filter, List.mem_cons, List.mem_map]
  rcases symbol_cases v with rfl | ⟨b, rfl⟩
  · have hlive : s.freq[eosSymbol] ≠ 0 := by rw [heos]; decide
    exact ⟨fun _ => .inl rfl, fun _ => ⟨List.mem_finRange _, decide_eq_true hlive⟩⟩
  · have hlive : s.freq[byteSymbol b] ≠ 0 ↔ b ∈ S := by
      rw [← List.count_pos_iff, ← hbyte, Nat.pos_iff_ne_zero, ne_eq, ne_eq, ← BitVec.toNat_inj]
      rfl
    constructor
    · rintro ⟨-, hv⟩
      exact .inr ⟨b, List.mem_dedup.2 (hlive.1 (of_decide_eq_true hv)), rfl⟩
    · rintro (hv | ⟨c, hc, hcb⟩)
      · exact absurd hv (byteSymbol_ne_eos b)
      · obtain rfl := byteSymbol_inj hcb
        exact ⟨List.mem_finRange _, decide_eq_true (hlive.2 (List.mem_dedup.1 hc))⟩

/-- BUILD makes a leaf for each byte value that occurs and one for the sentinel, and two for the empty input (R78). -/
theorem buildLeafCount_eq {s : State} {S : List Byte} (hbyte : ∀ b : Byte, (s.freq[byteSymbol b]).toNat = S.count b)
    (heos : s.freq[eosSymbol] = 1) : buildLeafCount s = if S = [] then 2 else S.dedup.length + 1 := by
  have hlen := (liveSymbols_perm hbyte heos).length_eq
  rw [List.length_cons, List.length_map] at hlen
  rw [buildLeafCount, hlen]
  by_cases hS : S = []
  · simp [hS]
  · have hpos : 0 < S.dedup.length := List.length_pos_iff.2 (mt (List.dedup_eq_nil S).1 hS)
    rw [if_neg hS, if_neg (by omega)]

/-! ## The payload -/

/-- A sum over the bytes of a sequence, by byte values. -/
theorem sum_count_mul (S : List Byte) (f : Fin 256 → Nat) :
    ((List.finRange 256).map fun b => S.count (BitVec.ofFin b) * f b).sum = (S.map fun b => f b.toFin).sum := by
  induction S with
  | nil =>
    rw [← Fin.sum_univ_def]
    simp only [List.count_nil, Nat.zero_mul, Finset.sum_const_zero]
    rfl
  | cons c S ih =>
    have hone (b : Fin 256) : (c :: S).count (BitVec.ofFin b) * f b =
        S.count (BitVec.ofFin b) * f b + if b = c.toFin then f b else 0 := by
      by_cases hb : b = c.toFin
      · subst hb
        rw [if_pos rfl, List.count_cons_self, Nat.succ_mul]
      · rw [if_neg hb, List.count_cons_of_ne fun h => hb (by rw [h]), Nat.add_zero]
    rw [List.map_cons, List.sum_cons, ← ih, ← Fin.sum_univ_def, ← Fin.sum_univ_def]
    simp only [hone, Finset.sum_add_distrib, Finset.sum_ite_eq', Finset.mem_univ, if_true]
    exact Nat.add_comm _ _

/-- The length of a payload (R55, R59). -/
theorem encodeBytes_length (m : Vector CodeEntry 257) (S : List Byte) :
    (encodeBytes m S).length = (S.map fun b => m[byteSymbol b].len.toNat).sum := by
  rw [encodeBytes, List.length_flatMap]
  simp only [codeword, bitsOf_length]

/-- By byte values, with the counts of the table. -/
theorem encodeBytes_length_eq_sum {s : State} {S : List Byte}
    (hbyte : ∀ b : Byte, (s.freq[byteSymbol b]).toNat = S.count b) :
    (encodeBytes s.code S).length =
      ((List.finRange 256).map fun b => (s.freq[b.castSucc]).toNat * (s.code[b.castSucc]).len.toNat).sum := by
  rw [encodeBytes_length]
  refine (sum_count_mul S fun b => (s.code[b.castSucc]).len.toNat).symm.trans ?_
  congr 1
  refine List.map_congr_left fun b _ => ?_
  rw [← hbyte]
  rfl

/-! ## The tree of the file -/

/-- The tree COMPRESS leaves is the one BUILD made of the counts (R94). -/
theorem compress_leafCount {s t : State} {T : CodeTree} (h : Ready s) (hn : (remainingBytes s).length ≤ hwParams.nMax)
    (hexec : exec .compress s = .next t) (hT : currentTree t = some T) :
    leafCount T = if remainingBytes s = [] then 2 else (remainingBytes s).dedup.length + 1 := by
  rw [exec_compress_eq_stages h] at hexec
  obtain ⟨s₄, h₄, hencode⟩ := thenExec_eq_next hexec
  obtain ⟨s₃, h₃, hwrhdr⟩ := thenExec_eq_next h₄
  obtain ⟨s₂, h₂, hgencodes⟩ := thenExec_eq_next h₃
  obtain ⟨s₁, hcount, hbuild⟩ := thenExec_eq_next h₂
  obtain ⟨u, hu, hsucc, hbyte, heos, -⟩ := countCountsTheSource s h hn
  obtain rfl : u = s₁ := by simpa [hu] using hcount
  obtain ⟨hfreq, -⟩ := flags_of_succeeded hsucc
  obtain ⟨-, -, v, T', hv, hT', hleaves, -⟩ :=
    builtTreeShape u (ready_of_succeeded hsucc) hfreq (by rw [heos]; decide)
  obtain rfl : v = s₂ := by simpa [hv] using hbuild
  have hkept (c : Column) (hg : c ∉ .err :: written .gencodes) (hw : c ∉ .err :: written .wrhdr)
      (he : c ∉ .err :: written .encode) : c.Same v t :=
    Column.same_trans (Column.same_trans (exec_same hgencodes hg) (exec_same hwrhdr hw)) (exec_same hencode he)
  have hroot : SameRoot v t :=
    ⟨hkept .root (by decide) (by decide) (by decide), hkept .nnodes (by decide) (by decide) (by decide)⟩
  have hnode : t.node = v.node := hkept .node (by decide) (by decide) (by decide)
  obtain rfl : T' = T := Option.some_inj.1 (hT'.symm.trans ((currentTree_congr hroot hnode).symm.trans hT))
  rw [hleaves, buildLeafCount_eq hbyte heos]

end Sys2Proof.Machine

open Sys2Proof Sys2Proof.Machine

/-- Settles O39: the lengths of the header (R56) and of the payload (R55), and the padding behind them. -/
theorem compressedFileSize : Obligations.CompressedFileSize := by
  rintro s ⟨hready, hopen⟩ hpos hempty hn
  obtain ⟨t, T, hexec, -, -, hT, -, hbyte, -, -, hsnk, -⟩ := compressWritesAFile s ⟨hready, hopen⟩ hpos hn
  have hbytes := remainingBytes_eq_sourceBytes hpos
  have hleaves := compress_leafCount hready (hbytes ▸ hn) hexec hT
  rw [hbytes] at hleaves
  refine ⟨t, T, hexec, hT, hleaves, ?_⟩
  have hser := serialize_length T
  have heos : (codeword t.code[eosSymbol]).length = t.code[eosSymbol].len.toNat := bitsOf_length _ _
  have hlen : (s.snk.bits ++ bitsOf 32 hwParams.magic.toNat ++ serialize T ++ encodeBytes t.code (sourceBytes s) ++
      codeword t.code[eosSymbol]).length = 31 + 11 * leafCount T + (((List.finRange 256).map fun b =>
        (t.freq[b.castSucc]).toNat * (t.code[b.castSucc]).len.toNat).sum + t.code[eosSymbol].len.toNat) := by
    rw [← encodeBytes_length_eq_sum hbyte, leafCount]
    simp only [hempty, List.length_append, List.length_nil, bitsOf_length, heos]
    omega
  rw [hsnk, closedSink, List.length_append, List.length_replicate, hlen]
  omega
end

section
/-! Two runs of a command side by side: states that agree on all that the command reads end it alike. The same relation
serves for other contents of the sink (R38) and for other contents of the memories (R20, R137). -/

namespace Sys2Proof.Machine

/-! ## Bodies and outcomes side by side -/

/-- Two bodies end in the same way, in states that `R` relates. -/
def Body.Related (R : State → State → Prop) : Body → Body → Prop
  | .done s, .done t => R s t
  | .raised e s, .raised f t => e = f ∧ R s t
  | .refused r, .refused q => r = q
  | .stuck f, .stuck g => f = g
  | _, _ => False

/-- Two outcomes of the same kind, with states that `R` relates. -/
def OutcomesRelated (R : State → State → Prop) :
    Host.Outcome State Fault Refusal → Host.Outcome State Fault Refusal → Prop
  | .next s, .next t => R s t
  | .fault f, .fault g => f = g
  | .refused r, .refused q => r = q
  | _, _ => False

section
variable {R Q : State → State → Prop} {b d : Body} {k l : State → Body}

theorem related_andThen (h : b.Related R d) (hRQ : ∀ s t, R s t → Q s t)
    (hkl : ∀ s t, R s t → (k s).Related Q (l t)) : (b.andThen k).Related Q (d.andThen l) := by
  match b, d, h with
  | .done _, .done _, h => exact hkl _ _ h
  | .raised _ _, .raised _ _, h => exact ⟨h.1, hRQ _ _ h.2⟩
  | .refused _, .refused _, h => exact h
  | .stuck _, .stuck _, h => exact h

/-- Where one relation holds throughout. -/
theorem related_chain (h : b.Related R d) (hkl : ∀ s t, R s t → (k s).Related R (l t)) :
    (b.andThen k).Related R (d.andThen l) := related_andThen h (fun _ _ hst => hst) hkl

theorem related_mono (h : b.Related R d) (hRQ : ∀ s t, R s t → Q s t) : b.Related Q d := by
  match b, d, h with
  | .done _, .done _, h => exact hRQ _ _ h
  | .raised _ _, .raised _ _, h => exact ⟨h.1, hRQ _ _ h.2⟩
  | .refused _, .refused _, h => exact h
  | .stuck _, .stuck _, h => exact h

/-- Bodies that are related end commands that are, if `R` bears the end of a command (R115, R127). -/
theorem finish_related (h : b.Related R d) (hcomplete : ∀ s t, R s t → R (complete s) (complete t))
    (hraise : ∀ e s t, R s t → R (raiseFault e s) (raiseFault e t)) : OutcomesRelated R (finish b) (finish d) := by
  match b, d, h with
  | .done _, .done _, h => exact hcomplete _ _ h
  | .raised _ _, .raised _ _, ⟨rfl, h⟩ => exact hraise _ _ _ h
  | .refused _, .refused _, h => exact h
  | .stuck _, .stuck _, h => exact h

end

/-- Where `R` says what the second state is, related outcomes determine the second one. -/
theorem eq_mapNext_of_related {R : State → State → Prop} {f : State → State} {o o' : Host.Outcome State Fault Refusal}
    (h : OutcomesRelated R o o') (hR : ∀ s t, R s t → t = f s) : o' = mapNext f o := by
  match o, o', h with
  | .next _, .next _, h => exact congrArg Host.Outcome.next (hR _ _ h)
  | .fault _, .fault _, rfl => rfl
  | .refused _, .refused _, rfl => rfl

/-! ## States that a command cannot tell apart -/

/-- Two states that agree on the registers, on the source, on what has been appended to `a` and to `b` in the sink, on
the node entries of `N`, and on FREQ, INQ and CODE where `f`, `q` and `c` say so. -/
structure Sim (a b : Bits) (N : Nat → Prop) (f q c : Prop) (s t : State) : Prop where
  status : t.status = s.status
  root : t.root = s.root
  nnodes : t.nnodes = s.nnodes
  cur : t.cur = s.cur
  total : t.total = s.total
  src : t.src = s.src
  host : SameHost s t
  freq : f → t.freq = s.freq
  node : ∀ i, N i → t.node[i]? = s.node[i]?
  inq : q → t.inq = s.inq
  code : c → t.code = s.code
  closed : t.snk.closed = s.snk.closed
  appended : ∃ l, s.snk.bits = a ++ l ∧ t.snk.bits = b ++ l

section
variable {a b : Bits} {N M : Nat → Prop} {f q c : Prop} {s t : State}

/-! ### Updates -/

theorem Sim.mono (h : Sim a b N f q c s t) (hMN : ∀ i, M i → N i) : Sim a b M f q c s t :=
  { h with node := fun i hi => h.node i (hMN i hi) }

/-- Agreement that has been assumed holds. -/
theorem Sim.of_freq (h : Sim a b N f q c s t) (hf : f) : Sim a b N True q c s t := { h with freq := fun _ => h.freq hf }
theorem Sim.of_code (h : Sim a b N f q c s t) (hc : c) : Sim a b N f q True s t := { h with code := fun _ => h.code hc }

theorem Sim.withStatus (h : Sim a b N f q c s t) (w : StatusWord) :
    Sim a b N f q c (withStatus s w) (withStatus t w) := { h with status := rfl }

theorem Sim.withSrcPos (h : Sim a b N f q c s t) (k : Nat) : Sim a b N f q c (withSrcPos s k) (withSrcPos t k) :=
  { h with src := by rw [withSrcPos_src, withSrcPos_src, h.src] }

theorem Sim.withCur (h : Sim a b N f q c s t) (i : NodeIdx) : Sim a b N f q c (withCur s i) (withCur t i) :=
  { h with cur := rfl }

theorem Sim.withTree (h : Sim a b N f q c s t) (r n : NodeIdx) : Sim a b N f q c (withTree s r n) (withTree t r n) :=
  { h with root := rfl, nnodes := rfl }

theorem Sim.withRegs (h : Sim a b N f q c s t) (r n i : NodeIdx) (k : Count) :
    Sim a b N f q c (withRegs s r n i k) (withRegs t r n i k) :=
  { h with root := rfl, nnodes := rfl, cur := rfl, total := rfl }

theorem Sim.withTable (h : Sim a b N f q c s t) (g : Vector Count 257) (n : Count) :
    Sim a b N True q c (withTable s g n) (withTable t g n) := { h with freq := fun _ => rfl, total := rfl }

theorem Sim.withInq (h : Sim a b N f q c s t) (m : Vector Bool 513) :
    Sim a b N f True c (withInq s m) (withInq t m) := { h with inq := fun _ => rfl }

theorem Sim.withCode (h : Sim a b N f q c s t) (m : Vector CodeEntry 257) :
    Sim a b N f q True (withCode s m) (withCode t m) := { h with code := fun _ => rfl }

theorem Sim.withNode (h : Sim a b N f q c s t) {m m' : Vector NodeEntry 513} (hm : ∀ i, M i → m'[i]? = m[i]?) :
    Sim a b M f q c (withNode s m) (withNode t m') := { h with node := hm }

/-- A write to the node memory makes the entry written agree. -/
theorem Sim.nodeWrite (h : Sim a b N f q c s t) (n : Nat) (e : NodeEntry) :
    Sim a b (fun i => N i ∨ i = n) f q c (nodeWrite n e s) (nodeWrite n e t) := by
  refine h.withNode fun i hi => ?_
  rw [Vector.getElem?_setIfInBounds, Vector.getElem?_setIfInBounds]
  split
  · rfl
  · next hne => exact h.node i (hi.resolve_right fun heq => hne heq.symm)

theorem Sim.appended_same (h : Sim a b N f q c s t) (l : Bits) (closed : Bool) :
    Sim a b N f q c (withSink s ⟨s.snk.bits ++ l, closed⟩) (withSink t ⟨t.snk.bits ++ l, closed⟩) := by
  obtain ⟨m, hs, ht⟩ := h.appended
  exact { h with closed := rfl, appended := ⟨m ++ l, by simp [hs], by simp [ht]⟩ }

theorem Sim.complete (h : Sim a b N f q c s t) : Sim a b N f q c (complete s) (complete t) := by
  have := h.withStatus (setBusy (setDone s.status true) false)
  rwa [Machine.complete, Machine.complete, h.status]

theorem Sim.raiseFault (h : Sim a b N f q c s t) (e : Cause) :
    Sim a b N f q c (raiseFault e s) (raiseFault e t) := by
  have := h.withStatus (setBusy (setDone (setErr (setFault s.status true) (causeCode e)) false) false)
  rwa [Machine.raiseFault, Machine.raiseFault, h.status]

theorem Sim.acknowledge (h : Sim a b N f q c s t) : Sim a b N f q c (acknowledge s) (acknowledge t) := by
  have := h.withStatus (setDone (setBusy s.status true) false)
  rwa [Machine.acknowledge, Machine.acknowledge, h.status]

theorem Sim.bodyStart (h : Sim a b N f q c s t) (i : Instr) : Sim a b N f q c (bodyStart i s) (bodyStart i t) := by
  have := h.acknowledge.withStatus (clearedAtStart i (Machine.acknowledge s).status)
  rwa [Machine.bodyStart, Machine.bodyStart, h.acknowledge.status]

theorem Sim.clearBody (h : Sim a b N f q c s t) : Sim a b N f q c (clearBody s) (clearBody t) :=
  (h.withStatus _).withRegs _ _ _ _

/-! ### The channel primitives -/

theorem Sim.srcRead (h : Sim a b N f q c s t) (n : Nat) :
    ∃ r u v, srcRead n s = (r, u) ∧ srcRead n t = (r, v) ∧ Sim a b N f q c u v ∧ u.node = s.node ∧ v.node = t.node ∧
      u.root = s.root ∧ u.cur = s.cur := by
  have hrem : remaining t = remaining s := by rw [remaining, remaining, h.src]
  rcases srcRead_cases n s with ⟨hfits, hs⟩ | ⟨hshort, hs⟩
  · rcases srcRead_cases n t with ⟨-, ht⟩ | ⟨hshort, -⟩
    · rw [hrem, h.src] at ht
      exact ⟨_, _, _, hs, ht, h.withSrcPos _, rfl, rfl, rfl, rfl⟩
    · rw [h.src] at hshort
      omega
  · rcases srcRead_cases n t with ⟨hfits, -⟩ | ⟨-, ht⟩
    · rw [h.src] at hfits
      omega
    · exact ⟨_, _, _, hs, ht, h, rfl, rfl, rfl, rfl⟩

theorem Sim.snkWrite (h : Sim a b N f q c s t) (n v : Nat) :
    (snkWrite n v s).Related (Sim a b N f q c) (snkWrite n v t) := by
  cases ho : s.snk.closed with
  | false =>
    rw [snkWrite_open ho, snkWrite_open (h.closed.trans ho)]
    exact h.appended_same _ _
  | true =>
    rw [snkWrite_closed ho, snkWrite_closed (h.closed.trans ho)]
    rfl

/-- The padding depends on the number of bits modulo 8 alone (R34). -/
theorem padLength_congr {k l : Nat} (h : k % 8 = l % 8) : padLength k = padLength l := by rw [padLength, padLength, h]

theorem Sim.snkClose (h : Sim a b N f q c s t) (hab : b.length % 8 = a.length % 8) (p : Config.Params) :
    (snkClose p s).Related (Sim a b N f q c) (snkClose p t) := by
  cases ho : s.snk.closed with
  | false =>
    have hpad : padLength t.snk.bits.length = padLength s.snk.bits.length := by
      obtain ⟨l, hs, ht⟩ := h.appended
      refine padLength_congr ?_
      rw [hs, ht, List.length_append, List.length_append]
      omega
    rw [snkClose_open ho, snkClose_open (h.closed.trans ho), hpad]
    exact h.appended_same _ _
  | true =>
    rw [snkClose_closed ho, snkClose_closed (h.closed.trans ho)]
    rfl

theorem Sim.markFreq (h : Sim a b N f q c s t) : (markFreq s).Related (Sim a b N f q c) (markFreq t) := by
  rw [Machine.markFreq, Machine.markFreq, h.status]
  exact h.withStatus _

theorem Sim.markTree (h : Sim a b N f q c s t) : (markTree s).Related (Sim a b N f q c) (markTree t) := by
  rw [Machine.markTree, Machine.markTree, h.status]
  exact h.withStatus _

theorem Sim.markCode (h : Sim a b N f q c s t) : (markCode s).Related (Sim a b N f q c) (markCode t) := by
  rw [Machine.markCode, Machine.markCode, h.status]
  exact h.withStatus _

/-! ## The bodies side by side -/

/-! ### COUNT (R70) -/

theorem Sim.countLoop (p : Config.Params) (fuel : Nat) (h : Sim a b N True q c s t) :
    (countLoop p fuel s).Related (Sim a b N True q c) (countLoop p fuel t) := by
  induction fuel generalizing s t with
  | zero => rfl
  | succ fuel ih =>
    obtain ⟨r, u, v, hs, ht, huv, -⟩ := h.srcRead 8
    rw [Machine.countLoop, Machine.countLoop, hs, ht]
    cases r with
    | none => exact huv
    | some x =>
      simp only [huv.total]
      split
      · refine ih ?_
        rw [countSymbol, countSymbol, huv.freq trivial, huv.total]
        exact huv.withTable _ _
      · exact ⟨rfl, huv⟩

/-- COUNT writes FREQ whole, so it ends alike whatever FREQ held (R70). -/
theorem Sim.countStage (p : Config.Params) (h : Sim a b N f q c s t) :
    (countStage p s).Related (Sim a b N True q c) (countStage p t) := by
  have hloop := (h.withTable (Vector.replicate 257 0) 0).countLoop p (s.src.bits.length + 1)
  rw [Machine.countStage, Machine.countStage, countBody, countBody, h.src]
  refine related_chain (related_chain hloop fun u v huv => ?_)
    fun _ _ huv => huv.markFreq
  rw [huv.freq trivial, huv.total]
  exact huv.withTable _ _

/-! ### WRHDR (R90) and GENCODES (R85), on the same current tree -/

theorem Sim.writeTree (h : Sim a b N f q c s t) (T : CodeTree) :
    (writeTree T s).Related (Sim a b N f q c) (writeTree T t) := by
  induction T generalizing s t with
  | leaf v => exact related_chain (h.snkWrite 1 1) fun _ _ huv => huv.snkWrite 9 _
  | node l r ihl ihr =>
    exact related_chain (related_chain (h.snkWrite 1 0) fun _ _ huv => ihl huv)
      fun _ _ huv => ihr huv

theorem Sim.wrhdrBody (p : Config.Params) (h : Sim a b N f q c s t) (hT : currentTree t = currentTree s) :
    (wrhdrBody p s).Related (Sim a b N f q c) (wrhdrBody p t) := by
  rw [Machine.wrhdrBody, Machine.wrhdrBody, hT]
  split
  · rfl
  · next T _ => exact related_chain (h.snkWrite 32 _) fun _ _ huv => huv.writeTree T

theorem Sim.gencodesStage (h : Sim a b N f q c s t) (hT : currentTree t = currentTree s) :
    (gencodesStage s).Related (Sim a b N f q True) (gencodesStage t) := by
  have hbody : (gencodesBody s).Related (Sim a b N f q True) (gencodesBody t) := by
    rw [gencodesBody, gencodesBody, hT]
    split
    · rfl
    · split
      · exact h.withCode _
      · rfl
  exact related_chain hbody fun _ _ huv => huv.markCode

/-! ### ENCODE (R92), on the same codes -/

theorem Sim.writeCode (h : Sim a b N f q True s t) (v : Symbol) :
    (writeCode v s).Related (Sim a b N f q True) (writeCode v t) := by
  rw [Machine.writeCode, Machine.writeCode, codeRead, codeRead, h.code trivial]
  split
  · exact ⟨rfl, h⟩
  · exact h.snkWrite _ _

theorem Sim.encodeLoop (fuel : Nat) (h : Sim a b N f q True s t) :
    (encodeLoop fuel s).Related (Sim a b N f q True) (encodeLoop fuel t) := by
  induction fuel generalizing s t with
  | zero => rfl
  | succ fuel ih =>
    obtain ⟨r, u, v, hs, ht, huv, -⟩ := h.srcRead 8
    rw [Machine.encodeLoop, Machine.encodeLoop, hs, ht]
    cases r with
    | none => exact huv
    | some x => exact related_chain (huv.writeCode _) fun _ _ h => ih h

theorem Sim.encodeBody (p : Config.Params) (h : Sim a b N f q True s t) (hab : b.length % 8 = a.length % 8) :
    (encodeBody p s).Related (Sim a b N f q True) (encodeBody p t) := by
  rw [Machine.encodeBody, Machine.encodeBody, h.src]
  exact related_chain (related_chain ((h.withSrcPos 0).encodeLoop _) fun _ _ huv =>
    huv.writeCode _) fun _ _ huv => huv.snkClose hab p

/-! ### DECODE (R104), on a walk over the same entries -/

/-- From the indices in `W`, which the walk of DECODE stands on, one edge leads to the same entry in both memories, and
to an index in `W` unless to a leaf. -/
def SameWalk (W : Nat → Prop) (m m' : Vector NodeEntry 513) : Prop :=
  ∀ i, W i → m'[i]? = m[i]? ∧ ∀ e, m[i]? = some e → ∀ j, j = e.left ∨ j = e.right →
    m'[j.toNat]? = m[j.toNat]? ∧ ∀ d, m[j.toNat]? = some d → d.leaf = false → W j.toNat

theorem Sim.decodeLoop {W : Nat → Prop} (hW : SameWalk W s.node t.node) (fuel : Nat) (h : Sim a b N f q c s t)
    (hroot : W s.root.toNat) (hcur : W s.cur.toNat) :
    (decodeLoop fuel s).Related (Sim a b N f q c) (decodeLoop fuel t) := by
  induction fuel generalizing s t with
  | zero => rfl
  | succ fuel ih =>
    obtain ⟨r, u, v, hs, ht, huv, hun, hvn, hur, huc⟩ := h.srcRead 1
    rw [Machine.decodeLoop, Machine.decodeLoop, hs, ht]
    rw [← hun, ← hvn] at hW
    rw [← hur] at hroot
    rw [← huc] at hcur
    cases r with
    | none => exact ⟨rfl, huv⟩
    | some x =>
      obtain ⟨hentry, hedge⟩ := hW _ hcur
      simp only [nodeRead, huv.cur, hentry]
      split
      · rfl
      · next e he =>
        have hchild := hedge e he (if x = 0 then e.left else e.right) (by split <;> simp)
        generalize (if x = 0 then e.left else e.right) = j at hchild ⊢
        obtain ⟨hsame, hnext⟩ := hchild
        have huv' := huv.withCur j
        simp only [withCur_node, withCur_cur, hsame]
        split
        · rfl
        · next d hd =>
          split
          · split
            · exact huv'
            · refine related_andThen (R := fun x y => Sim a b N f q c x y ∧ x.node = u.node ∧ y.node = v.node ∧
                x.root = u.root) ?_ (fun _ _ hxy => hxy.1) ?_
              · have hwrite := huv'.snkWrite 8 d.sym.toNat
                cases ho : (Machine.withCur u j).snk.closed with
                | false =>
                  rw [snkWrite_open ho, snkWrite_open (huv'.closed.trans ho)] at hwrite ⊢
                  exact ⟨hwrite, rfl, rfl, rfl⟩
                | true =>
                  rw [snkWrite_closed ho, snkWrite_closed (huv'.closed.trans ho)]
                  rfl
              · rintro x y ⟨hxy, hxn, hyn, hxr⟩
                rw [hxy.root]
                exact ih (by rw [withCur_node, withCur_node, hxn, hyn]; exact hW) (hxy.withCur _) (hxr ▸ hroot)
                  (hxr ▸ hroot)
          · next hleaf => exact ih hW huv' hroot (hnext d hd (by simpa using hleaf))

theorem Sim.decodeBody {W : Nat → Prop} (hW : SameWalk W s.node t.node) (p : Config.Params) (h : Sim a b N f q c s t)
    (hroot : W s.root.toNat) (hab : b.length % 8 = a.length % 8) :
    (decodeBody p s).Related (Sim a b N f q c) (decodeBody p t) := by
  rw [Machine.decodeBody, Machine.decodeBody, h.src, h.root]
  have hloop := Sim.decodeLoop (s := Machine.withCur s s.root) (t := Machine.withCur t s.root) hW
    (s.src.bits.length + 1) (h.withCur _) hroot hroot
  exact related_chain hloop fun _ _ huv => huv.snkClose hab p

/-! ### RDHDR (R100) -/

/-- `Rd` ends alike, and the entries it allocates agree (R101). -/
theorem Sim.rd (fuel n : Nat) (h : Sim a b N f q c s t) :
    (∃ i m u v, rd fuel n s = .ok i m u ∧ rd fuel n t = .ok i m v ∧
      Sim a b (fun j => N j ∨ (n ≤ j ∧ j < m)) f q c u v) ∨
    (∃ e u v, rd fuel n s = .raised e u ∧ rd fuel n t = .raised e v ∧ Sim a b N f q c u v) ∨
    ∃ g, rd fuel n s = .stuck g ∧ rd fuel n t = .stuck g := by
  induction fuel generalizing n N s t with
  | zero => exact .inr (.inr ⟨_, rfl, rfl⟩)
  | succ fuel ih =>
    rw [Machine.rd, Machine.rd]
    by_cases hn : n < 513
    · obtain ⟨r, u, v, hs, ht, huv, -⟩ := h.srcRead 1
      simp only [if_pos hn, hs, ht]
      cases r with
      | none => exact .inr (.inl ⟨_, _, _, rfl, rfl, huv⟩)
      | some x =>
        by_cases hx : x = 1
        · obtain ⟨r, u', v', hs', ht', huv', -⟩ := huv.srcRead 9
          simp only [if_pos hx, hs', ht']
          cases r with
          | none => exact .inr (.inl ⟨_, _, _, rfl, rfl, huv'⟩)
          | some y =>
            by_cases hy : y.toNat ≤ 256
            · simp only [if_pos hy]
              exact .inl ⟨_, _, _, _, rfl, rfl, (huv'.nodeWrite n _).mono fun j hj => hj.imp_right fun hj => by omega⟩
            · simp only [if_neg hy]
              exact .inr (.inl ⟨_, _, _, rfl, rfl, huv'⟩)
        · simp only [if_neg hx]
          rcases ih (n + 1) huv with ⟨i, m, u', v', hs', ht', huv'⟩ | ⟨e, u', v', hs', ht', huv'⟩ | ⟨g, hs', ht'⟩
          · simp only [hs', ht']
            rcases ih m huv' with ⟨j, k, u'', v'', hs'', ht'', huv''⟩ | ⟨e, u'', v'', hs'', ht'', huv''⟩ | ⟨g, hs'', ht''⟩
            · simp only [hs'', ht'']
              refine .inl ⟨_, _, _, _, rfl, rfl, (huv''.nodeWrite n _).mono fun l hl => ?_⟩
              rcases hl with hl | hl
              · exact .inl (.inl (.inl hl))
              · by_cases hln : l = n
                · exact .inr hln
                · by_cases hlm : l < m
                  · exact .inl (.inl (.inr (by omega)))
                  · exact .inl (.inr (by omega))
            · simp only [hs'', ht'']
              exact .inr (.inl ⟨_, _, _, rfl, rfl, huv''.mono fun l hl => .inl hl⟩)
            · simp only [hs'', ht'']
              exact .inr (.inr ⟨_, rfl, rfl⟩)
          · simp only [hs', ht']
            exact .inr (.inl ⟨_, _, _, rfl, rfl, huv'⟩)
          · simp only [hs', ht']
            exact .inr (.inr ⟨_, rfl, rfl⟩)
    · simp only [if_neg hn]
      exact .inr (.inl ⟨_, _, _, rfl, rfl, h⟩)

/-- RDHDR ends alike: by `done` with the entries of the tree in agreement, or by `raise`. -/
theorem Sim.rdhdrStage (p : Config.Params) (h : Sim a b N f q c s t) :
    (rdhdrStage p s).Related (fun u v => ∃ M, Sim a b M f q c u v ∧ (∀ j, N j → M j) ∧
      (treeValid u.status = treeValid s.status ∨ ∀ j, j < u.nnodes.toNat → M j)) (rdhdrStage p t) := by
  have hfault {e : Cause} {u v : State} (huv : Sim a b N f q c u v) (hu : u.status = s.status) :
      (Body.raised e u).Related (fun u v => ∃ M, Sim a b M f q c u v ∧ (∀ j, N j → M j) ∧
        (treeValid u.status = treeValid s.status ∨ ∀ j, j < u.nnodes.toNat → M j)) (.raised e v) :=
    ⟨rfl, N, huv, fun _ hj => hj, .inl (by rw [hu])⟩
  have hstatus := rdhdrBody_status p s
  obtain ⟨r, u, v, hs, ht, huv, -⟩ := h.srcRead 32
  rw [Machine.rdhdrStage, Machine.rdhdrStage]
  rw [rdhdrBody, hs] at hstatus ⊢
  rw [rdhdrBody, ht]
  cases r with
  | none => exact hfault huv hstatus
  | some x =>
    by_cases hx : x = p.magic
    · simp only [if_pos hx] at hstatus ⊢
      rcases huv.rd 514 0 with ⟨i, m, u', v', hs', ht', huv'⟩ | ⟨e, u', v', hs', ht', huv'⟩ | ⟨g, hs', ht'⟩
      · obtain ⟨rfl, hm, hle⟩ : i = 0 ∧ 0 < m ∧ m ≤ 513 := by
          rcases rd_cases 514 0 u with ⟨m', _, hrd, hlt, hle, -⟩ | ⟨_, hrd, -⟩ | hrd
          · cases hs'.symm.trans hrd
            exact ⟨rfl, hlt, hle⟩
          · cases hs'.symm.trans hrd
          · cases hs'.symm.trans hrd
        have hroot : nodeRead v' (BitVec.ofNat 10 0) = nodeRead u' (BitVec.ofNat 10 0) :=
          huv'.node 0 (.inr ⟨Nat.le_refl 0, hm⟩)
        simp only [hs', ht', acceptRoot, hroot] at hstatus ⊢
        split
        · rfl
        · next e he =>
          simp only [he] at hstatus
          by_cases hleaf : e.leaf = true
          · simp only [if_pos hleaf] at hstatus ⊢
            exact hfault (huv'.mono fun j hj => .inl hj) hstatus
          · simp only [if_neg hleaf, andThen_done]
            have hdone := (huv'.withTree (BitVec.ofNat 10 0) (BitVec.ofNat 10 m)).markTree
            refine ⟨_, hdone, fun j hj => .inl hj, .inr fun j hj => .inr ⟨Nat.zero_le j, ?_⟩⟩
            have hmod : (BitVec.ofNat 10 m).toNat = m := Nat.mod_eq_of_lt (by omega)
            exact hmod ▸ hj
      · simp only [hs', ht'] at hstatus ⊢
        exact hfault huv' hstatus
      · simp only [hs', ht']
        rfl
    · simp only [if_neg hx] at hstatus ⊢
      exact hfault huv hstatus

end

/-! ### BUILD (R75) -/

/-- Two heaps that agree on the allocated entries, and on those of `N`, and queue no other. -/
structure Heap.Alike (N : Nat → Prop) (g h : Heap) : Prop where
  n : h.n = g.n
  inq : h.inq = g.inq
  node : ∀ i, N i ∨ i < g.n → h.node[i]? = g.node[i]?
  queued : ∀ i ∈ queue g, i < g.n

section
variable {N : Nat → Prop} {g h : Heap}

/-- The priority set is read from the queued entries alone (R76). -/
theorem Heap.Alike.prioritySet_eq (H : g.Alike N h) : prioritySet h = prioritySet g := by
  refine prioritySet_eq_of_mem_iff (List.pairwise_map.1 (queue_pairwise_lt g)) fun w i => ?_
  rw [mem_prioritySet, mem_prioritySet, H.inq]
  refine and_congr_right fun hi => ?_
  rw [H.node i (.inr (H.queued i (mem_queue.2 hi)))]

theorem Heap.Alike.add (H : g.Alike N h) (e : NodeEntry) : (heapAdd g e).Alike N (heapAdd h e) := by
  refine ⟨by rw [heapAdd_n, heapAdd_n, H.n], by rw [heapAdd_inq, heapAdd_inq, H.n, H.inq], fun i hi => ?_, fun i hi => ?_⟩
  · rw [heapAdd_node, heapAdd_node, H.n, Vector.getElem?_setIfInBounds, Vector.getElem?_setIfInBounds]
    split
    · rfl
    · next hne =>
      rw [heapAdd_n] at hi
      exact H.node i (hi.imp_right fun hlt => by omega)
  · rw [heapAdd_n]
    rcases mem_queue_heapAdd hi with rfl | hi
    · exact Nat.lt_succ_self _
    · exact (H.queued i hi).trans (Nat.lt_succ_self _)

/-- RemoveMin takes the same element out of both (R76). -/
theorem Heap.Alike.removeMin (p : Config.Params) (H : g.Alike N h) :
    (removeMin p g = none ∧ removeMin p h = none) ∨
    ∃ w m g' h', removeMin p g = some (w, m, g') ∧ removeMin p h = some (w, m, h') ∧ g'.Alike N h' := by
  rw [Machine.removeMin, Machine.removeMin, H.prioritySet_eq]
  split
  · exact .inl ⟨rfl, rfl⟩
  · next w m _ =>
    exact .inr ⟨w, m, _, _, rfl, rfl, H.n, congrArg (·.setIfInBounds m false) H.inq, H.node,
      fun i hi => H.queued i (mem_queue_of_clear hi)⟩

theorem Heap.Alike.mergeLoop (p : Config.Params) (fuel : Nat) (H : g.Alike N h) :
    (mergeLoop p fuel g = none ∧ mergeLoop p fuel h = none) ∨
    ∃ g' h', mergeLoop p fuel g = some g' ∧ mergeLoop p fuel h = some h' ∧ g'.Alike N h' := by
  induction fuel generalizing g h with
  | zero => exact .inl ⟨rfl, rfl⟩
  | succ fuel ih =>
    rw [Machine.mergeLoop, Machine.mergeLoop, H.prioritySet_eq]
    split
    · exact .inr ⟨g, h, rfl, rfl, H⟩
    · rcases H.removeMin p with ⟨hg, hh⟩ | ⟨wa, x, g1, h1, hg, hh, H1⟩
      · simp only [hg, hh]
        exact .inl ⟨trivial, trivial⟩
      · simp only [hg, hh]
        rcases H1.removeMin p with ⟨hg, hh⟩ | ⟨wb, y, g2, h2, hg, hh, H2⟩
        · simp only [hg, hh]
          exact .inl ⟨trivial, trivial⟩
        · simp only [hg, hh]
          exact ih (H2.add _)

theorem Heap.Alike.foldl_leaves (H : g.Alike N h) (xs : List (Count × Nat)) :
    (xs.foldl (fun h x => if x.1 = 0 then h else heapAdd h (leafEntry (BitVec.ofNat 9 x.2) x.1)) g).Alike N
      (xs.foldl (fun h x => if x.1 = 0 then h else heapAdd h (leafEntry (BitVec.ofNat 9 x.2) x.1)) h) := by
  induction xs generalizing g h with
  | nil => exact H
  | cons x xs ih =>
    rw [List.foldl_cons, List.foldl_cons]
    split
    · exact ih H
    · exact ih (H.add _)

/-- With nothing allocated, nothing is queued. -/
theorem alike_nil {m m' : Vector NodeEntry 513} (hm : ∀ i, N i → m'[i]? = m[i]?) :
    (Heap.mk m (Vector.replicate 513 false) 0).Alike N ⟨m', Vector.replicate 513 false, 0⟩ := by
  refine ⟨rfl, rfl, fun i hi => hm i (hi.resolve_right (Nat.not_lt_zero i)), fun i hi => ?_⟩
  have hroots := (holds_nil m).roots.mem_iff.1 hi
  exact absurd hroots (List.not_mem_nil)

end

section
variable {a b : Bits} {N : Nat → Prop} {f q c : Prop} {s t : State}

theorem Sim.initialHeap (p : Config.Params) (h : Sim a b N True q c s t) :
    (initialHeap p s).Alike N (initialHeap p t) := by
  have H := (alike_nil h.node).foldl_leaves s.freq.toList.zipIdx
  rw [Machine.initialHeap, Machine.initialHeap, addLeaves, addLeaves, h.freq trivial, H.n]
  split
  · exact H.add _
  · exact H

/-- BUILD ends alike on the same table, and the entries it allocates agree (R75). -/
theorem Sim.buildStage (p : Config.Params) (h : Sim a b N True q c s t) :
    (buildStage p s).Related (fun u v => Sim a b (fun j => N j ∨ j < u.nnodes.toNat) True True c u v)
      (buildStage p t) := by
  have H := h.initialHeap p
  rw [Machine.buildStage, Machine.buildStage, buildBody, buildBody, H.n]
  split
  · rfl
  · rcases H.mergeLoop p 513 with ⟨hg, hh⟩ | ⟨g, k, hg, hk, G⟩
    · simp only [hg, hh]
      rfl
    · simp only [hg, hk, G.n, G.inq, andThen_done]
      refine (((h.withNode fun i hi => G.node i (hi.imp_right fun hlt => ?_)).withInq g.inq).withTree _ _).markTree
      exact Nat.lt_of_lt_of_le hlt (Nat.mod_le _ _)

/-! ## The commands side by side -/

/-- Outside CLEAR a command is dropped, or raises Sequence, or runs its body, alike in both states (R113, R114). -/
theorem runWith_related (p : Config.Params) {R : State → State → Prop} {i : Instr} (hi : i ≠ .clear)
    (hstatus : t.status = s.status) (hR : R s t)
    (hseq : R (raiseFault .sequence (acknowledge s)) (raiseFault .sequence (acknowledge t)))
    (hbody : Ready s → prerequisite i s.status = true →
      OutcomesRelated R (finish (bodyWith p i (bodyStart i s))) (finish (bodyWith p i (bodyStart i t)))) :
    OutcomesRelated R (runWith p i s) (runWith p i t) := by
  rw [runWith_eq_accept p hi, runWith_eq_accept p hi]
  by_cases hready : Ready s
  · have hready' : Ready t := by rw [Ready, hstatus]; exact hready
    cases hp : prerequisite i s.status with
    | false =>
      rw [accept_sequence hready (by simpa using hp), accept_sequence hready' (by simpa [hstatus] using hp)]
      exact hseq
    | true =>
      rw [accept_ready hready (by simpa using hp), accept_ready hready' (by simpa [hstatus] using hp)]
      exact hbody hready hp
  · have hnot : isBusy s.status = true ∨ isFault s.status = true := by
      by_contra hcon
      simp only [not_or, Bool.not_eq_true] at hcon
      exact hready hcon
    rw [accept_dropped hnot, accept_dropped (by rw [hstatus]; exact hnot)]
    exact hR

/-- CLEAR, in both states. -/
theorem Sim.exec_clear (h : Sim a b N f q c s t) :
    OutcomesRelated (Sim a b N f q c) (exec .clear s) (exec .clear t) := by
  cases hbusy : isBusy s.status with
  | true =>
    rw [exec_clear_busy hbusy, exec_clear_busy (by rw [h.status]; exact hbusy)]
    exact h
  | false =>
    rw [Machine.exec_clear hbusy, Machine.exec_clear (by rw [h.status]; exact hbusy)]
    exact h.acknowledge.clearBody.complete

end

end Sys2Proof.Machine
end

section
/-! No command reads the sink (R38). -/

namespace Sys2Proof.Machine

/-- Two states that differ in the sink's content alone, which is `a` in one and `b` in the other before what both have
appended. -/
abbrev OtherSink (a b : Bits) : State → State → Prop := Sim a b (fun _ => True) True True True

section
variable {a b : Bits} {s t : State}

theorem OtherSink.node_eq (h : OtherSink a b s t) : t.node = s.node := by
  refine Vector.ext fun i hi => ?_
  exact Option.some_inj.1 ((Vector.getElem?_eq_getElem hi).symm.trans
    ((h.node i trivial).trans (Vector.getElem?_eq_getElem hi)))

theorem OtherSink.currentTree_eq (h : OtherSink a b s t) : currentTree t = currentTree s :=
  currentTree_congr ⟨h.root, h.nnodes⟩ h.node_eq

theorem OtherSink.sameWalk (h : OtherSink a b s t) : SameWalk (fun _ => True) s.node t.node := by
  rw [h.node_eq]
  exact fun i _ => ⟨rfl, fun _ _ _ _ => ⟨rfl, fun _ _ _ => trivial⟩⟩

/-- The second state is the first with the other content in its sink. -/
theorem OtherSink.eq_withSink (h : OtherSink a b s t) :
    t = withSink s ⟨b ++ s.snk.bits.drop a.length, s.snk.closed⟩ := by
  obtain ⟨l, hs, ht⟩ := h.appended
  have hsnk : t.snk = ⟨b ++ s.snk.bits.drop a.length, s.snk.closed⟩ := by
    rw [hs, List.drop_left, ← ht, ← h.closed]
  have hnode := h.node_eq
  obtain ⟨hstatus, hroot, hnnodes, hcur, htotal, hsrc, ⟨hhost, hctr⟩, hfreq, -, hinq, hcode, -, -⟩ := h
  cases t
  simp only at hstatus hroot hnnodes hcur htotal hsrc hhost hctr hfreq hinq hcode hsnk hnode
  rw [hstatus, hroot, hnnodes, hcur, htotal, hsrc, hhost, hctr, hfreq trivial, hinq trivial, hcode trivial, hsnk, hnode,
    withSink]

theorem OtherSink.buildStage (p : Config.Params) (h : OtherSink a b s t) :
    (buildStage p s).Related (OtherSink a b) (buildStage p t) :=
  related_mono (Sim.buildStage p h) fun _ _ huv => huv.mono fun _ _ => .inl trivial

theorem OtherSink.gencodesStage (h : OtherSink a b s t) : (gencodesStage s).Related (OtherSink a b) (gencodesStage t) :=
  Sim.gencodesStage h h.currentTree_eq

theorem OtherSink.wrhdrBody (p : Config.Params) (h : OtherSink a b s t) :
    (wrhdrBody p s).Related (OtherSink a b) (wrhdrBody p t) := Sim.wrhdrBody p h h.currentTree_eq

theorem OtherSink.rdhdrStage (p : Config.Params) (h : OtherSink a b s t) :
    (rdhdrStage p s).Related (OtherSink a b) (rdhdrStage p t) :=
  related_mono (Sim.rdhdrStage p h) fun _ _ ⟨_, huv, hM, _⟩ => huv.mono fun j _ => hM j trivial

theorem OtherSink.decodeBody (p : Config.Params) (h : OtherSink a b s t) (hab : b.length % 8 = a.length % 8) :
    (decodeBody p s).Related (OtherSink a b) (decodeBody p t) := Sim.decodeBody h.sameWalk p h trivial hab

theorem OtherSink.bodyWith (p : Config.Params) (h : OtherSink a b s t) (hab : b.length % 8 = a.length % 8) (i : Instr) :
    (bodyWith p i s).Related (OtherSink a b) (bodyWith p i t) := by
  cases i with
  | clear => exact h.clearBody
  | count => exact Sim.countStage p h
  | build => exact h.buildStage p
  | gencodes => exact h.gencodesStage
  | wrhdr => exact h.wrhdrBody p
  | encode => exact Sim.encodeBody p h hab
  | rdhdr => exact h.rdhdrStage p
  | decode => exact h.decodeBody p hab
  | compress =>
    have hcount := Sim.countStage p h
    have hbuild := related_chain hcount fun _ _ huv => OtherSink.buildStage p huv
    have hgencodes := related_chain hbuild fun _ _ huv => OtherSink.gencodesStage huv
    have hwrhdr := related_chain hgencodes fun _ _ huv => OtherSink.wrhdrBody p huv
    exact related_chain hwrhdr fun _ _ huv => Sim.encodeBody p huv hab
  | decompress => exact related_chain (h.rdhdrStage p) fun _ _ huv => OtherSink.decodeBody p huv hab
  | _ => exact ⟨rfl, h⟩

theorem OtherSink.exec (h : OtherSink a b s t) (hab : b.length % 8 = a.length % 8) (i : Instr) :
    OutcomesRelated (OtherSink a b) (exec i s) (exec i t) := by
  by_cases hi : i = .clear
  · subst hi
    exact Sim.exec_clear h
  · rw [exec_eq, exec_eq]
    refine runWith_related hwParams hi h.status h (h.acknowledge.raiseFault _) fun _ _ => ?_
    exact finish_related (OtherSink.bodyWith hwParams (h.bodyStart i) hab i) (fun _ _ huv => huv.complete)
      fun e _ _ huv => huv.raiseFault e

end

end Sys2Proof.Machine

open Sys2Proof Sys2Proof.Machine

/-- Settles O22: the sink enters only where it grows, where it is found closed, and in the number of padding bits, so two
states that differ in its content run side by side. -/
theorem sinkContentIsNeverRead : Obligations.SinkContentIsNeverRead := by
  intro i s b hab
  have hstart : OtherSink s.snk.bits b s (withSink s ⟨b, s.snk.closed⟩) := by
    refine ⟨rfl, rfl, rfl, rfl, rfl, rfl, ⟨rfl, rfl⟩, fun _ => rfl, fun _ _ => rfl, fun _ => rfl, fun _ => rfl, rfl,
      [], ?_, ?_⟩ <;> simp
  exact eq_mapNext_of_related (OtherSink.exec hstart hab i) fun _ _ => OtherSink.eq_withSink
end

section
/-! What every step keeps (R11 to R18, R30): each body ends with what its valid flags promise, or is the refusal of a
closed sink; none is stuck. -/

namespace Sys2Proof.Machine

/-! ## What the valid flags promise -/

/-- What the valid flags promise of the memories, for the flags given (R11 to R18). -/
structure Promises (f t c : Bool) (s : State) : Prop where
  table : f = true → TableOk s
  tree : t = true → TreeWF s
  codes : c = true → t = true ∧ CodesOk s

/-- The valid flags of a state keep their promises. -/
abbrev Covered (s : State) : Prop := Promises (freqValid s.status) (treeValid s.status) (codeValid s.status) s

section
variable {p : Config.Params} {f t c : Bool} {s u : State}

/-- The promises are about `ROOT`, `NNODES`, NODE, FREQ, TOTAL and CODE alone. -/
theorem Promises.congr (h : Promises f t c s) (hroot : SameRoot s u) (hnode : u.node = s.node) (htable : SameTable s u)
    (hcode : u.code = s.code) : Promises f t c u := by
  obtain ⟨hfreq, htotal⟩ := htable
  refine ⟨fun hf => ?_, fun ht => (treeWF_congr hroot hnode).2 (h.tree ht), fun hc => ?_⟩
  · rw [TableOk, hfreq, htotal]
    exact h.table hf
  · rw [CodesOk, currentTree_congr hroot hnode, hcode]
    exact h.codes hc

/-- What is not in the columns that the promises are about. -/
def unpromised : List Column := [.cur, .inq, .src, .snk, .err, .reserved]

theorem Promises.of_touches {cols : List Column} (h : Promises f t c s) (hu : Touches p cols s u)
    (hcols : cols ⊆ unpromised) : Promises f t c u := by
  have hsame {d : Column} (hd : d ∉ unpromised) := hu.same d fun hmem => hd (hcols hmem)
  exact h.congr ⟨hsame (d := .root) (by decide), hsame (d := .nnodes) (by decide)⟩ (hsame (d := .node) (by decide))
    ⟨hsame (d := .freq) (by decide), hsame (d := .total) (by decide)⟩ (hsame (d := .code) (by decide))

/-- A flag that is cleared promises nothing. -/
theorem Promises.clearCode (h : Promises f t c s) : Promises f t false s := ⟨h.table, h.tree, nofun⟩
theorem Promises.clearTreeCode (h : Promises f t c s) : Promises f false false s := ⟨h.table, nofun, nofun⟩
theorem promises_clearAll (s : State) : Promises false false false s := ⟨nofun, nofun, nofun⟩

theorem Promises.covered (h : Promises f t c s) (hw : validFlags s.status = (f, t, c)) : Covered s := by
  obtain ⟨rfl, rfl, rfl⟩ : freqValid s.status = f ∧ treeValid s.status = t ∧ codeValid s.status = c := by
    simpa [validFlags] using hw
  exact h

/-! ## Bodies that keep the promises and are not stuck -/

/-- A body that ends by `done` with the flags given and what they promise, by `raise` with what the flags it found
promise, or by a refusal; and that is never stuck. -/
def Body.Safe (f t c : Bool) : Body → Prop
  | .done u => Running u.status f t c ∧ Promises f t c u
  | .raised _ u => Covered u
  | .refused _ => True
  | .stuck _ => False

theorem safe_andThen {f' t' c' : Bool} {b : Body} {k : State → Body} (hb : b.Safe f t c)
    (hk : ∀ u, Running u.status f t c → Promises f t c u → (k u).Safe f' t' c') : (b.andThen k).Safe f' t' c' := by
  match b, hb with
  | .done u, ⟨hrun, hprom⟩ => exact hk u hrun hprom
  | .raised _ _, hb => exact hb
  | .refused _, _ => trivial

/-- A body that writes neither `STATUS` nor what the promises are about, and is not stuck. -/
theorem safe_of_touches {cols : List Column} {b : Body} (hrun : Running s.status f t c)
    (hprom : Promises f t c s) (hb : b.Ends (Touches p cols s)) (hcols : cols ⊆ unpromised)
    (hstatus : b.Ends fun u => u.status = s.status) (hstuck : ∀ g, b ≠ .stuck g) : b.Safe f t c := by
  match b, hb, hstatus, hstuck with
  | .done u, hb, hstatus, _ => exact ⟨hstatus ▸ hrun, hprom.of_touches hb hcols⟩
  | .raised _ u, hb, hstatus, _ =>
    exact (hprom.of_touches hb hcols).covered ((congrArg validFlags hstatus).trans hrun.validFlags_eq)
  | .refused _, _, _, _ => trivial
  | .stuck g, _, _, hstuck => exact hstuck g rfl

/-! ### COUNT (R70, R72) -/

/-- The table of a byte sequence (R13, R14). -/
theorem tableOk_counted {l : List Byte} (h : l.length ≤ hwParams.nMax) (s : State) : TableOk (counted l s) := by
  have hlt : l.length < 2 ^ 64 := Nat.lt_of_le_of_lt h (by decide)
  have htotal : (counted l s).total.toNat = l.length := Nat.mod_eq_of_lt hlt
  have hcount (b : Fin 256) : ((counted l s).freq[b.castSucc]).toNat = l.count (BitVec.ofFin b) * 1 := by
    have hbyte : (byteTable l)[byteSymbol (BitVec.ofFin b)].toNat = l.count (BitVec.ofFin b) := by
      rw [byteTable_byte, BitVec.toNat_ofNat, Nat.mod_eq_of_lt (Nat.lt_of_le_of_lt List.count_le_length hlt)]
    rw [Nat.mul_one]
    exact hbyte
  refine ⟨byteTable_eos l, htotal.trans_le h, ?_⟩
  rw [htotal, List.map_congr_left fun b _ => hcount b, sum_count_mul l fun _ => 1, List.map_const', List.sum_replicate,
    smul_eq_mul, Nat.mul_one]

theorem countStage_safe (hmax : p.nMax = hwParams.nMax) (hrun : Running s.status false false false) :
    (countStage p s).Safe true false false := by
  have hlt : p.nMax < 2 ^ 64 := hmax.trans_lt (by decide)
  rcases Nat.lt_or_ge p.nMax (remainingBytes s).length with hlong | hshort
  · rw [countStage_overflow hlt hlong]
    exact (promises_clearAll _).covered hrun.validFlags_eq
  · have hdone := countStage_bytes hlt hshort
    have hleaves := countStage_leavesRunning p hrun _ hdone
    rw [hdone]
    exact ⟨hleaves, fun _ => tableOk_counted (hmax ▸ hshort) s, nofun, nofun⟩

/-! ### BUILD (R75) -/

theorem buildStage_safe (hdummy : p.dummySym.toNat ≤ 256) (hrun : Running s.status true false false)
    (hprom : Promises true false false s) : (buildStage p s).Safe true true false := by
  have htable := hprom.table rfl
  have hne : tableFields s.freq ≠ [] := List.ne_nil_of_mem (sentinel_mem_tableFields htable)
  obtain ⟨m, q, T, js, n, hb, hst, hjs, hsym⟩ := buildBody_spec p hne
  have hwf : T.wf = true := wf_of_buildFields hdummy hne hsym
  obtain ⟨-, -, hsize⟩ := wf_iff.1 hwf
  have hlen : n + 1 = T.size := by rw [← hst.length_eq, ← hjs.length_eq, List.length_range]
  have hroot : (BitVec.ofNat 10 n).toNat = n := Nat.mod_eq_of_lt (by omega)
  have hnnodes : (BitVec.ofNat 10 (n + 1)).toNat = n + 1 := Nat.mod_eq_of_lt (by omega)
  have hleaves := buildStage_leavesRunning p hrun
  rw [buildStage, hb, andThen_done] at hleaves ⊢
  refine ⟨hleaves _ rfl, fun _ => htable, fun _ => ?_, nofun⟩
  rw [← hroot] at hst
  rw [← hnnodes] at hjs
  exact Stored.treeWF hst hjs.symm hwf

/-! ### GENCODES (R85) -/

theorem gencodesStage_safe (hrun : Running s.status f true false) (hprom : Promises f true false s) :
    (gencodesStage s).Safe f true true := by
  obtain ⟨T, hT, hw⟩ := currentTree_of_treeWF (hprom.tree rfl)
  obtain ⟨-, -, hsize⟩ := wf_iff.1 hw
  have hdone := gencodesStage_eq hT hw
  have hleaves := gencodesStage_leavesRunning hrun _ hdone
  rw [hdone]
  exact ⟨hleaves, hprom.table, hprom.tree, fun _ => ⟨rfl, T, hT, codesOf_walk hsize⟩⟩

/-! ### WRHDR (R90) and ENCODE (R92) -/

theorem wrhdrBody_not_stuck (p : Config.Params) {T : CodeTree} (hT : currentTree s = some T) (g : Fault) :
    wrhdrBody p s ≠ .stuck g := by
  simp only [wrhdrBody, hT]
  rcases snkWrite_cases 32 p.magic.toNat s with ⟨-, hw⟩ | ⟨-, hw⟩
  · rw [hw, andThen_done]
    rcases writeTree_cases T (appended s (bitsOf 32 p.magic.toNat)) with ⟨-, l, ht⟩ | ⟨-, ht⟩ <;>
    · rw [ht]
      exact nofun
  · rw [hw]
    exact nofun

theorem wrhdrBody_safe (hrun : Running s.status f true c) (hprom : Promises f true c s) :
    (wrhdrBody p s).Safe f true c := by
  obtain ⟨T, hT, -⟩ := currentTree_of_treeWF (hprom.tree rfl)
  exact safe_of_touches hrun hprom (wrhdrBody_touches p s) (by decide) (wrhdrBody_status p s)
    (wrhdrBody_not_stuck p hT)

theorem snkClose_not_stuck (p : Config.Params) (s : State) (g : Fault) : snkClose p s ≠ .stuck g := by
  rw [snkClose]
  split <;> exact nofun

theorem encodeBody_not_stuck (p : Config.Params) (s : State) (g : Fault) : encodeBody p s ≠ .stuck g := by
  intro h
  rcases andThen_eq_stuck h with h | ⟨u, -, h⟩
  · rcases andThen_eq_stuck h with h | ⟨u, -, h⟩
    · refine encodeLoop_not_stuck _ _ g ?_ h
      rw [remaining_length]
      exact Nat.lt_succ_of_le (Nat.sub_le _ _)
    · rcases writeCode_cases eosSymbol u with ⟨-, hw⟩ | ⟨-, -, hw⟩ | ⟨-, -, hw⟩ <;> cases hw.symm.trans h
  · exact snkClose_not_stuck p u g h

theorem encodeBody_safe (hrun : Running s.status f t c) (hprom : Promises f t c s) :
    (encodeBody p s).Safe f t c :=
  safe_of_touches hrun hprom (encodeBody_touches p s) (by decide) (encodeBody_status p s) (encodeBody_not_stuck p s)

/-! ### RDHDR (R100) -/

theorem rdhdrStage_safe (hrun : Running s.status f false false) (hprom : Promises f false false s) :
    (rdhdrStage p s).Safe f true false := by
  have hfault {u : State} (hu : validFlags u.status = validFlags s.status) (htable : TableOk s → TableOk u) :
      Covered u :=
    Promises.covered (f := f) (t := false) (c := false) ⟨fun hf => htable (hprom.table hf), nofun, nofun⟩
      (hu.trans hrun.validFlags_eq)
  by_cases hmagic : (remaining s).take 32 = bitsOf 32 p.magic.toNat
  · have hrem : remaining s = bitsOf 32 p.magic.toNat ++ (remaining s).drop 32 := by
      rw [← hmagic, List.take_append_drop]
    by_cases htree : ∃ (T : CodeTree) (rest : Bits), T.wf = true ∧ (remaining s).drop 32 = serialize T ++ rest
    · obtain ⟨T, rest, hw, hbits⟩ := htree
      have hdone := rdhdrStage_serialize hw (hbits ▸ hrem)
      have hleaves := rdhdrStage_leavesRunning p hrun _ hdone
      rw [hdone]
      exact ⟨hleaves, hprom.table, fun _ => treeWF_headerRead hw s, nofun⟩
    · obtain ⟨m, k, hraised, -⟩ := rdhdrStage_malformed hrem fun T rest hw hbits => htree ⟨T, rest, hw, hbits⟩
      rw [hraised]
      exact hfault rfl id
  · rw [rdhdrStage_badMagic hmagic]
    exact hfault rfl id

/-! ### DECODE (R104) -/

/-- The index of an internal entry of the tree, where the walk of DECODE can stand. -/
def InnerAt (s : State) (i : Nat) : Prop := i < s.nnodes.toNat ∧ ∃ e, s.node[i]? = some e ∧ e.leaf = false

/-- Both children of an internal entry of a well-formed tree are entries of it (R18 item 3). -/
theorem InnerAt.child (h : TreeWF s) {i : Nat} (hi : InnerAt s i) {e : NodeEntry} (he : s.node[i]? = some e)
    {j : NodeIdx} (hj : j = e.left ∨ j = e.right) :
    j.toNat < s.nnodes.toNat ∧ ∃ d, s.node[j.toNat]? = some d ∧ (d.leaf = false → InnerAt s j.toNat) := by
  obtain ⟨hlt, e', he', hinner⟩ := hi
  obtain rfl : e' = e := Option.some_inj.1 (he'.symm.trans he)
  obtain ⟨⟨-, hle, -⟩, -, hchildren, -⟩ := h
  obtain ⟨hi, rfl⟩ := Vector.getElem?_eq_some_iff.1 he
  obtain ⟨hleft, hright, -⟩ := hchildren ⟨i, hi⟩ hlt hinner
  have hj : j.toNat < s.nnodes.toNat := by
    rcases hj with rfl | rfl
    · exact hleft
    · exact hright
  have hd : s.node[j.toNat]? = some s.node[j.toNat] := Vector.getElem?_eq_getElem (by omega)
  exact ⟨hj, _, hd, fun hleaf => ⟨hj, _, hd, hleaf⟩⟩

theorem innerAt_root (h : TreeWF s) : InnerAt s s.root.toNat := by
  obtain ⟨⟨-, -, hlt⟩, hroot, -⟩ := h
  obtain ⟨e, he, hinner⟩ := Option.map_eq_some_iff.1 hroot
  exact ⟨hlt, e, he, hinner⟩

/-- On a well-formed tree the walk of DECODE never leaves the tree, and with more fuel than bits left it ends. -/
theorem decodeLoop_not_stuck (fuel : Nat) (h : TreeWF s) (hat : InnerAt s s.cur.toNat)
    (hlen : (remaining s).length < fuel) (g : Fault) : decodeLoop fuel s ≠ .stuck g := by
  induction fuel generalizing s with
  | zero => exact absurd hlen (Nat.not_lt_zero _)
  | succ fuel ih =>
    rw [decodeLoop]
    rw [remaining_length] at hlen
    have hless {u : State} (hu : u.src = ⟨s.src.bits, s.src.pos + 1⟩) (hp : s.src.pos + 1 ≤ s.src.bits.length) :
        (remaining u).length < fuel := by
      rw [remaining_length, hu]
      dsimp only
      omega
    rcases srcRead_cases 1 s with ⟨hp, hr⟩ | ⟨-, hr⟩ <;> simp only [hr]
    · have ⟨_, e, he, _⟩ := hat
      simp only [nodeRead, withSrcPos_node, withSrcPos_cur, he, withCur_node, withCur_cur]
      obtain ⟨-, d, hd, hnext⟩ := InnerAt.child h hat he
        (j := if BitVec.ofNat 1 (bitsVal ((remaining s).take 1)) = 0 then e.left else e.right) (by split <;> simp)
      generalize (if BitVec.ofNat 1 (bitsVal ((remaining s).take 1)) = 0 then e.left else e.right) = j at hd hnext ⊢
      simp only [hd]
      split
      · split
        · exact nofun
        · rcases snkWrite_cases 8 d.sym.toNat (withCur (withSrcPos s (s.src.pos + 1)) j) with ⟨-, hw⟩ | ⟨-, hw⟩
          · rw [hw, andThen_done]
            exact ih h (innerAt_root h) (hless rfl hp)
          · rw [hw]
            exact nofun
      · next hleaf => exact ih h (hnext (by simpa using hleaf)) (hless rfl hp)
    · exact nofun

theorem decodeBody_not_stuck (p : Config.Params) (h : TreeWF s) (g : Fault) : decodeBody p s ≠ .stuck g := by
  intro hb
  rcases andThen_eq_stuck hb with hb | ⟨u, -, hb⟩
  · refine decodeLoop_not_stuck _ (s := withCur s s.root) h (innerAt_root h) ?_ g hb
    rw [remaining_withCur, remaining_length]
    exact Nat.lt_succ_of_le (Nat.sub_le _ _)
  · exact snkClose_not_stuck p u g hb

theorem decodeBody_safe (hrun : Running s.status f true c) (hprom : Promises f true c s) :
    (decodeBody p s).Safe f true c :=
  safe_of_touches hrun hprom (decodeBody_touches p s) (by decide) (decodeBody_status p s)
    (decodeBody_not_stuck p (hprom.tree rfl))

/-! ### The composites (R94, R106) -/

theorem compressBody_safe (hmax : p.nMax = hwParams.nMax) (hdummy : p.dummySym.toNat ≤ 256)
    (hrun : Running s.status false false false) : (compressBody p s).Safe true true true :=
  safe_andThen (safe_andThen (safe_andThen (safe_andThen (countStage_safe hmax hrun) fun _ => buildStage_safe hdummy)
    fun _ => gencodesStage_safe) fun _ => wrhdrBody_safe) fun _ => encodeBody_safe

theorem decompressBody_safe (hrun : Running s.status f false false) (hprom : Promises f false false s) :
    (decompressBody p s).Safe f true false :=
  safe_andThen (rdhdrStage_safe hrun hprom) fun _ => decodeBody_safe

/-- The body of a command that a ready block accepts (R113, R117). -/
theorem bodyOf_safe {i : Instr} (hi : i ≠ .clear) (h : Ready s) (hcov : Covered s)
    (hp : prerequisite i s.status = true) : ∃ f t c, (bodyOf i (bodyStart i s)).Safe f t c := by
  have hprom : Promises (freqValid s.status) (treeValid s.status) (codeValid s.status) (bodyStart i s) :=
    hcov.congr ⟨rfl, rfl⟩ rfl ⟨rfl, rfl⟩ rfl
  have hack := running_acknowledge h
  cases i with
  | clear => exact absurd rfl hi
  | count => exact ⟨_, _, _, countStage_safe rfl (running_clearAll h)⟩
  | build =>
    have hrun := running_clearTreeCode h
    rw [show freqValid s.status = true from hp] at hprom hrun
    exact ⟨_, _, _, buildStage_safe (by decide) hrun hprom.clearTreeCode⟩
  | gencodes =>
    have hrun := running_clearCode h
    rw [show treeValid s.status = true from hp] at hprom hrun
    exact ⟨_, _, _, gencodesStage_safe hrun hprom.clearCode⟩
  | wrhdr =>
    rw [show treeValid s.status = true from hp] at hprom hack
    exact ⟨_, _, _, wrhdrBody_safe hack hprom⟩
  | encode => exact ⟨_, _, _, encodeBody_safe hack hprom⟩
  | rdhdr => exact ⟨_, _, _, rdhdrStage_safe (running_clearTreeCode h) hprom.clearTreeCode⟩
  | decode =>
    rw [show treeValid s.status = true from hp] at hprom hack
    exact ⟨_, _, _, decodeBody_safe hack hprom⟩
  | compress => exact ⟨_, _, _, compressBody_safe rfl (by decide) (running_clearAll h)⟩
  | decompress => exact ⟨_, _, _, decompressBody_safe (running_clearTreeCode h) hprom.clearTreeCode⟩
  | _ => exact ⟨false, false, false, hprom.covered hack.validFlags_eq⟩

end

/-! ## Commands -/

section
variable {i : Instr} {s t u : State}

theorem inv_iff : Inv s ↔ StatusOk s.status ∧ Covered s ∧ s.src.pos ≤ s.src.bits.length ∧
    (s.snk.closed = true → s.snk.bits.length % 8 = 0) :=
  ⟨fun ⟨hstatus, htable, htree, hcodes, hpos, hsnk⟩ => ⟨hstatus, ⟨htable, htree, hcodes⟩, hpos, hsnk⟩,
    fun ⟨hstatus, ⟨htable, htree, hcodes⟩, hpos, hsnk⟩ => ⟨hstatus, htable, htree, hcodes, hpos, hsnk⟩⟩

/-- Between commands the block is ready or faulted. -/
theorem StatusOk.ready_or_fault (h : StatusOk s.status) : Ready s ∨ isFault s.status = true := by
  obtain ⟨hbusy, -⟩ := h
  cases hfault : isFault s.status with
  | false => exact .inl ⟨hbusy, hfault⟩
  | true => exact .inr rfl

/-- Where no fault is, `ERR` is 0 (R11, R125). -/
theorem StatusOk.errOf_eq_zero {w : StatusWord} (h : StatusOk w) (hfault : isFault w = false) : errOf w = 0 := by
  obtain ⟨-, -, herr, -⟩ := h
  by_contra hne
  exact absurd (hfault.symm.trans (herr.2 hne)) (by decide)

/-- `Complete()` after a body that raised nothing (R115). -/
theorem statusOk_complete (hfault : isFault u.status = false) (herr : errOf u.status = 0)
    (hres : reservedOf u.status = 0) : StatusOk (complete u).status := by
  obtain ⟨hbusy, -, hfault', herr', ⟨-, -, -, hres'⟩, -⟩ := complete_spec u
  rw [hfault] at hfault'
  rw [herr] at herr'
  rw [StatusOk, hfault', herr']
  exact ⟨hbusy, hres'.trans hres, by decide, by decide, by simp⟩

/-- `raise E` (R127). -/
theorem statusOk_raiseFault (e : Cause) (hres : reservedOf u.status = 0) : StatusOk (raiseFault e u).status := by
  obtain ⟨⟨hbusy, hdone, hfault, herr, -, -, -, hres'⟩, -⟩ := raiseFault_spec e u
  have hcode : causeCode e ≠ 0 ∧ (causeCode e).toNat ≤ 7 := by cases e <;> decide
  obtain ⟨hne, hle⟩ := hcode
  rw [StatusOk, hfault, herr, hdone]
  exact ⟨hbusy, hres'.trans hres, by simpa using hne, hle, by simp⟩

theorem Promises.complete {f t c : Bool} (h : Promises f t c u) (hrun : Running u.status f t c) :
    Covered (complete u) := by
  obtain ⟨-, -, -, -, ⟨hf, ht, hc, -⟩, -⟩ := complete_spec u
  exact Promises.covered (h.congr ⟨rfl, rfl⟩ rfl ⟨rfl, rfl⟩ rfl) (by rw [validFlags, hf, ht, hc, ← hrun.validFlags_eq])

theorem covered_raiseFault (e : Cause) (h : Covered u) : Covered (raiseFault e u) := by
  obtain ⟨⟨-, -, -, -, hf, ht, hc, -⟩, -⟩ := raiseFault_spec e u
  exact Promises.covered (h.congr ⟨rfl, rfl⟩ rfl ⟨rfl, rfl⟩ rfl) (by rw [validFlags, hf, ht, hc])

theorem covered_acknowledge (h : Covered s) : Covered (acknowledge s) :=
  Promises.covered (h.congr ⟨rfl, rfl⟩ rfl ⟨rfl, rfl⟩ rfl) (by simp [validFlags])

/-- What `STATUS` and the memories look like after a command, and that no command is stuck. -/
theorem exec_keeps (hstatus : StatusOk s.status) (hcov : Covered s) (i : Instr) :
    (∀ g, exec i s ≠ .fault g) ∧ ∀ t, exec i s = .next t → StatusOk t.status ∧ Covered t := by
  by_cases hi : i = .clear
  · subst hi
    obtain ⟨t, ht, hword, -⟩ := clearStartsANewRun s hstatus.1
    rw [ht]
    refine ⟨nofun, ?_⟩
    rintro _ ⟨⟩
    rw [Covered, hword]
    exact ⟨by decide, promises_clearAll t⟩
  · rcases hstatus.ready_or_fault with h | hfault
    · have hres := hstatus.2.1
      have herr := hstatus.errOf_eq_zero h.2
      cases hp : prerequisite i s.status with
      | false =>
        rw [exec_prerequisite_missing h hp]
        refine ⟨nofun, ?_⟩
        rintro _ ⟨⟩
        exact ⟨statusOk_raiseFault _ ((reservedOf_acknowledge s).trans hres),
          covered_raiseFault _ (covered_acknowledge hcov)⟩
      | true =>
        rw [exec_prerequisite_met h hp]
        obtain ⟨f, t, c, hsafe⟩ := bodyOf_safe hi h hcov hp
        have htouch := (bodyStart_touches hwParams i s).mono (List.nil_subset (written i))
          |>.ends (bodyWith_touches hwParams i (bodyStart i s))
        rw [← bodyOf_eq_bodyWith] at htouch
        have hcol (d : Column) (hd : d = .err ∨ d = .reserved) : d ∉ written i := by
          revert hi
          rcases hd with rfl | rfl <;> cases i <;> decide
        match hb : bodyOf i (bodyStart i s), hsafe, htouch with
        | .done u, ⟨hrun, hprom⟩, htouch =>
          refine ⟨nofun, ?_⟩
          rintro _ ⟨⟩
          exact ⟨statusOk_complete hrun.fault ((htouch.same .err (hcol _ (.inl rfl))).trans herr)
            ((htouch.same .reserved (hcol _ (.inr rfl))).trans hres), hprom.complete hrun⟩
        | .raised e u, hcov', htouch =>
          refine ⟨nofun, ?_⟩
          rintro _ ⟨⟩
          exact ⟨statusOk_raiseFault e ((htouch.same .reserved (hcol _ (.inr rfl))).trans hres),
            covered_raiseFault e hcov'⟩
        | .refused r, _, _ => exact ⟨nofun, nofun⟩
    · rw [exec_dropped hi hfault]
      refine ⟨nofun, ?_⟩
      rintro _ ⟨⟩
      exact ⟨hstatus, hcov⟩

end

end Sys2Proof.Machine
end

section
/-! What is refused (R33, R152, U6): a write or close of a closed sink, and nothing else. -/

namespace Sys2Proof.Machine

/-! ## Bodies that write to the sink -/

/-- A body before any close: `c` says whether the sink is closed, from its beginning to its end, and it is refused only
where the sink is. -/
def Body.Writes (c : Bool) : Body → Prop
  | .done u => u.snk.closed = c
  | .refused r => r = .sinkClosed ∧ c = true
  | _ => True

/-- A body, closed at its end or not, on a sink that is closed if `c`. -/
def Body.RefusesOnly (c : Bool) : Body → Prop
  | .refused r => r = .sinkClosed ∧ c = true
  | _ => True

section
variable {c : Bool} {b : Body} {k : State → Body} {s : State}

theorem Body.Writes.refusesOnly (h : b.Writes c) : b.RefusesOnly c := by
  cases b with
  | refused r => exact h
  | _ => trivial

theorem writes_andThen (hb : b.Writes c) (hk : ∀ u, u.snk.closed = c → (k u).Writes c) : (b.andThen k).Writes c := by
  cases b with
  | done u => exact hk u hb
  | refused r => exact hb
  | _ => trivial

theorem refusesOnly_andThen (hb : b.Writes c) (hk : ∀ u, u.snk.closed = c → (k u).RefusesOnly c) :
    (b.andThen k).RefusesOnly c := by
  cases b with
  | done u => exact hk u hb
  | refused r => exact hb
  | _ => trivial

/-- A body that leaves the sink alone. -/
theorem writes_of_touches {p : Config.Params} {cols : List Column} (hb : b.Ends (Touches p cols s))
    (hcols : Column.snk ∉ cols) (hnot : ∀ r, b ≠ .refused r) : b.Writes s.snk.closed := by
  cases b with
  | done u => exact congrArg Sink.closed (hb.same .snk hcols)
  | refused r => exact absurd rfl (hnot r)
  | _ => trivial

theorem snkWrite_writes (n v : Nat) (s : State) : (snkWrite n v s).Writes s.snk.closed := by
  rcases snkWrite_cases n v s with ⟨-, hw⟩ | ⟨hc, hw⟩ <;> rw [hw]
  · rfl
  · exact ⟨rfl, hc⟩

theorem snkClose_refusesOnly (p : Config.Params) (s : State) : (snkClose p s).RefusesOnly s.snk.closed := by
  cases hc : s.snk.closed with
  | false =>
    rw [snkClose_open hc]
    trivial
  | true =>
    rw [snkClose_closed hc]
    exact ⟨rfl, rfl⟩

/-! ### The bodies that write nothing -/

theorem countStage_writes (p : Config.Params) (s : State) : (countStage p s).Writes s.snk.closed := by
  refine writes_of_touches (countStage_touches p s) (by decide) ?_
  rw [countStage, countBody]
  rcases countLoop_ends p (s.src.bits.length + 1) (withTable s (Vector.replicate 257 0) 0)
    (by rw [remaining_length, withTable_src]; omega) with ⟨u, hu⟩ | ⟨u, hu⟩ <;> rw [hu] <;> exact nofun

theorem buildStage_writes (p : Config.Params) (s : State) : (buildStage p s).Writes s.snk.closed := by
  refine writes_of_touches (buildStage_touches p s) (by decide) ?_
  rw [buildStage, buildBody]
  split
  · exact nofun
  · split <;> exact nofun

theorem gencodesStage_writes (s : State) : (gencodesStage s).Writes s.snk.closed := by
  refine writes_of_touches (gencodesStage_touches hwParams s) (by decide) ?_
  rw [gencodesStage, gencodesBody]
  split
  · exact nofun
  · split <;> exact nofun

theorem rdhdrStage_writes (p : Config.Params) (s : State) : (rdhdrStage p s).Writes s.snk.closed := by
  refine writes_of_touches (rdhdrStage_touches p s) (by decide) ?_
  rw [rdhdrStage, rdhdrBody]
  split
  · exact nofun
  · split
    · split
      · exact nofun
      · exact nofun
      · rw [acceptRoot]
        split
        · exact nofun
        · split <;> exact nofun
    · exact nofun

/-! ### The bodies that write -/

theorem wrhdrBody_writes (p : Config.Params) (s : State) : (wrhdrBody p s).Writes s.snk.closed := by
  rw [wrhdrBody]
  split
  · trivial
  · next T _ =>
    refine writes_andThen (snkWrite_writes 32 _ s) fun u hu => hu ▸ ?_
    rcases writeTree_cases T u with ⟨-, l, ht⟩ | ⟨hc, ht⟩ <;> rw [ht]
    · rfl
    · exact ⟨rfl, hc⟩

theorem writeCode_writes (v : Symbol) (s : State) : (writeCode v s).Writes s.snk.closed := by
  rcases writeCode_cases v s with ⟨-, hw⟩ | ⟨-, -, hw⟩ | ⟨-, hc, hw⟩ <;> rw [hw]
  · trivial
  · rfl
  · exact ⟨rfl, hc⟩

theorem encodeLoop_writes (fuel : Nat) (s : State) : (encodeLoop fuel s).Writes s.snk.closed := by
  induction fuel generalizing s with
  | zero => trivial
  | succ fuel ih =>
    rw [encodeLoop]
    rcases srcRead_cases 8 s with ⟨-, hr⟩ | ⟨-, hr⟩ <;> simp only [hr]
    · exact writes_andThen (writeCode_writes _ (withSrcPos s (s.src.pos + 8))) fun u hu => hu ▸ ih u
    · rfl

theorem encodeBody_refusesOnly (p : Config.Params) (s : State) : (encodeBody p s).RefusesOnly s.snk.closed :=
  refusesOnly_andThen (writes_andThen (encodeLoop_writes _ (srcRewind s)) fun u hu => hu ▸ writeCode_writes eosSymbol u)
    fun u hu => hu ▸ snkClose_refusesOnly p u

theorem decodeLoop_writes (fuel : Nat) (s : State) : (decodeLoop fuel s).Writes s.snk.closed := by
  induction fuel generalizing s with
  | zero => trivial
  | succ fuel ih =>
    rw [decodeLoop]
    rcases srcRead_cases 1 s with ⟨-, hr⟩ | ⟨-, hr⟩ <;> simp only [hr]
    · split
      · trivial
      · split
        · trivial
        · split
          · split
            · rfl
            · exact writes_andThen (snkWrite_writes 8 _ _) fun u hu => hu ▸ ih (withCur u u.root)
          · exact ih (withCur (withSrcPos s (s.src.pos + 1)) _)
    · trivial

theorem decodeBody_refusesOnly (p : Config.Params) (s : State) : (decodeBody p s).RefusesOnly s.snk.closed :=
  refusesOnly_andThen (decodeLoop_writes _ (withCur s s.root)) fun u hu => hu ▸ snkClose_refusesOnly p u

end

theorem bodyOf_refusesOnly (i : Instr) (s : State) : (bodyOf i s).RefusesOnly s.snk.closed := by
  cases i with
  | clear => trivial
  | count => exact (countStage_writes _ s).refusesOnly
  | build => exact (buildStage_writes _ s).refusesOnly
  | gencodes => exact (gencodesStage_writes s).refusesOnly
  | wrhdr => exact (wrhdrBody_writes _ s).refusesOnly
  | encode => exact encodeBody_refusesOnly _ s
  | rdhdr => exact (rdhdrStage_writes _ s).refusesOnly
  | decode => exact decodeBody_refusesOnly _ s
  | compress =>
    exact refusesOnly_andThen (writes_andThen (writes_andThen (writes_andThen (countStage_writes _ s)
      fun u hu => hu ▸ buildStage_writes _ u) fun u hu => hu ▸ gencodesStage_writes u)
      fun u hu => hu ▸ wrhdrBody_writes _ u) fun u hu => hu ▸ encodeBody_refusesOnly _ u
  | decompress =>
    exact refusesOnly_andThen (rdhdrStage_writes _ s) fun u hu => hu ▸ decodeBody_refusesOnly _ u
  | _ => trivial

/-- A command is refused on a closed sink only. -/
theorem exec_eq_refused {i : Instr} {s : State} {r : Refusal} (h : exec i s = .refused r) :
    r = .sinkClosed ∧ s.snk.closed = true := by
  by_cases hi : i = .clear
  · subst hi
    cases hbusy : isBusy s.status with
    | true => cases (exec_clear_busy hbusy).symm.trans h
    | false => cases (exec_clear hbusy).symm.trans h
  · rw [exec_eq_accept hi] at h
    rcases accept_cases (prerequisite i) (clearedAtStart i) (bodyOf i) s with ⟨-, ha⟩ | ⟨-, -, ha⟩ | ⟨-, -, ha⟩
    · cases ha.symm.trans h
    · cases ha.symm.trans h
    · have honly := bodyOf_refusesOnly i (bodyStart i s)
      replace h : finish (bodyOf i (bodyStart i s)) = .refused r := ha.symm.trans h
      match hb : bodyOf i (bodyStart i s) with
      | .refused q =>
        rw [hb] at honly h
        cases h
        exact honly
      | .done u => cases (congrArg finish hb).symm.trans h
      | .raised e u => cases (congrArg finish hb).symm.trans h
      | .stuck g => cases (congrArg finish hb).symm.trans h

/-! ## What a closed sink refuses -/

theorem wrhdrBody_closed (p : Config.Params) {s : State} {T : CodeTree} (hT : currentTree s = some T)
    (hc : s.snk.closed = true) : wrhdrBody p s = .refused .sinkClosed := by
  simp only [wrhdrBody, hT, snkWrite_closed hc, andThen_refused]

theorem writeCode_closed {v : Symbol} {s : State} (hv : s.code[v].len ≠ 0) (hc : s.snk.closed = true) :
    writeCode v s = .refused .sinkClosed := by
  rcases writeCode_cases v s with ⟨h0, -⟩ | ⟨-, ho, -⟩ | ⟨-, -, hw⟩
  · exact absurd h0 hv
  · exact absurd (ho.symm.trans hc) (by decide)
  · exact hw

/-- ENCODE's first write is the codeword of the first byte, or the sentinel's if there is no byte (R92). -/
theorem encodeBody_closed (p : Config.Params) {s : State} (hbytes : ∀ b ∈ sourceBytes s, s.code[byteSymbol b].len ≠ 0)
    (heos : s.code[eosSymbol].len ≠ 0) (hc : s.snk.closed = true) : encodeBody p s = .refused .sinkClosed := by
  obtain ⟨tail, hbits, htail⟩ := src_bits_eq_bytes s
  have hrem : remaining (srcRewind s) = bytesToBits (sourceBytes s) ++ tail := (List.drop_zero).trans hbits
  rw [encodeBody]
  cases hS : sourceBytes s with
  | nil =>
    rw [hS] at hrem
    rw [encodeLoop_end (by rw [hrem]; exact htail), andThen_done, writeCode_closed (by exact heos) (by exact hc),
      andThen_refused]
  | cons b l =>
    rw [hS] at hrem hbytes
    obtain ⟨hb, -⟩ := remaining_after_byte hrem
    rw [encodeLoop_byte hb, writeCode_closed (by exact hbytes b List.mem_cons_self) (by exact hc)]
    rfl

end Sys2Proof.Machine

open Sys2Proof Sys2Proof.Machine

/-- Settles O55: the sink primitives look at `SNK_CLOSED`, the bodies before their close leave it as it is, and WRHDR and
ENCODE come to a write. -/
theorem onlyAClosedSinkIsRefused : Obligations.OnlyAClosedSinkIsRefused := by
  refine ⟨fun i s r => exec_eq_refused, fun s h hc ht hwf => ?_, fun s h hc hcode hbytes heos => ?_⟩
  · obtain ⟨T, hT, -⟩ := currentTree_of_treeWF hwf
    have haccept : exec .wrhdr s = finish (wrhdrBody hwParams (acknowledge s)) :=
      accept_ready h ((treeValid_acknowledge s).trans ht)
    rw [haccept, wrhdrBody_closed hwParams (by exact hT) (by exact hc)]
    rfl
  · rw [exec_encode_ready h hcode, encodeBody_closed (s := acknowledge s) hwParams hbytes heos hc]
    rfl
end

section
/-! A reset during a command (R153): what the abandoned command would have written is what it writes with no padding. -/

namespace Sys2Proof.Machine

/-! ## The padding is for the close alone (R34) -/

/-- The build with which the model runs a command that a reset abandons (R153). -/
abbrev unpadded : Config.Params := { hwParams with padding := fun _ => [] }

section
variable {p q : Config.Params}

theorem countStage_congr (h : p.nMax = q.nMax) (s : State) : countStage p s = countStage q s := by
  have hloop (fuel : Nat) (s : State) : countLoop p fuel s = countLoop q fuel s := by
    induction fuel generalizing s with
    | zero => rfl
    | succ fuel ih => simp only [countLoop, h, ih]
  rw [countStage, countBody, hloop, countStage, countBody]

theorem removeMin_congr (h : p.before = q.before) (g : Heap) : removeMin p g = removeMin q g := by
  have hfirst (l : List (Count × Nat)) : firstOf p l = firstOf q l := by
    induction l with
    | nil => rfl
    | cons x l ih => simp only [firstOf, h, ih]
  rw [removeMin, hfirst, removeMin]

theorem buildStage_congr (hbefore : p.before = q.before) (hright : p.firstIsRight = q.firstIsRight)
    (hdummy : p.dummySym = q.dummySym) (s : State) : buildStage p s = buildStage q s := by
  have hmerge (wa : Count) (a : Nat) (wb : Count) (b : Nat) : mergeEntry p wa a wb b = mergeEntry q wa a wb b := by
    rw [mergeEntry, hright, mergeEntry]
  have hloop (fuel : Nat) (g : Heap) : mergeLoop p fuel g = mergeLoop q fuel g := by
    induction fuel generalizing g with
    | zero => rfl
    | succ fuel ih => simp only [mergeLoop, removeMin_congr hbefore, hmerge, ih]
  have hheap : initialHeap p s = initialHeap q s := by rw [initialHeap, hdummy, initialHeap]
  rw [buildStage, buildBody, hheap, hloop, buildStage, buildBody]

end

/-! ## The command side by side with itself without padding -/

/-- What the first sink holds begins what the second one holds. -/
def Behind (s t : State) : Prop := s.snk.bits <+: t.snk.bits

theorem behind_refl (s : State) : Behind s s := List.prefix_rfl

theorem related_behind_of_eq {b d : Body} (h : b = d) : b.Related Behind d := by
  subst h
  cases b with
  | done s => exact behind_refl s
  | raised e s => exact ⟨rfl, behind_refl s⟩
  | refused r => rfl
  | stuck g => rfl

/-- The one place where the padding shows. -/
theorem snkClose_behind (s : State) : (snkClose unpadded s).Related Behind (snkClose hwParams s) := by
  cases hc : s.snk.closed with
  | false =>
    rw [snkClose_open hc, snkClose_open hc]
    exact (List.prefix_append_right_inj _).2 (List.nil_prefix)
  | true =>
    rw [snkClose_closed hc, snkClose_closed hc]
    rfl

/-- Two runs of one body, with continuations that part. -/
theorem related_behind_andThen (b : Body) {k l : State → Body} (hkl : ∀ s, (k s).Related Behind (l s)) :
    (b.andThen k).Related Behind (b.andThen l) := by
  cases b with
  | done s => exact hkl s
  | raised e s => exact ⟨rfl, behind_refl s⟩
  | refused r => rfl
  | stuck g => rfl

theorem encodeBody_behind (s : State) : (encodeBody unpadded s).Related Behind (encodeBody hwParams s) :=
  related_behind_andThen _ snkClose_behind

theorem decodeBody_behind (s : State) : (decodeBody unpadded s).Related Behind (decodeBody hwParams s) :=
  related_behind_andThen _ snkClose_behind

theorem bodyOf_behind (i : Instr) (s : State) : (bodyWith unpadded i s).Related Behind (bodyOf i s) := by
  have hcount : countStage unpadded = countStage hwParams := funext (countStage_congr rfl)
  have hbuild : buildStage unpadded = buildStage hwParams := funext (buildStage_congr rfl rfl rfl)
  cases i with
  | count => exact related_behind_of_eq (congrFun hcount s)
  | build => exact related_behind_of_eq (congrFun hbuild s)
  | encode => exact encodeBody_behind s
  | decode => exact decodeBody_behind s
  | compress =>
    rw [bodyWith, bodyOf, compressBody, hcount, hbuild, compressBody]
    exact related_behind_andThen _ encodeBody_behind
  | decompress => exact related_behind_andThen _ decodeBody_behind
  | _ => exact related_behind_of_eq rfl

/-- Without the padding every command ends in the same way, with a sink that the padded run begins with. -/
theorem runWith_unpadded_related (i : Instr) (s : State) :
    OutcomesRelated Behind (runWith unpadded i s) (exec i s) := by
  by_cases hi : i = .clear
  · subst hi
    change OutcomesRelated Behind (exec .clear s) (exec .clear s)
    cases hbusy : isBusy s.status with
    | true =>
      rw [exec_clear_busy hbusy]
      exact behind_refl s
    | false =>
      rw [exec_clear hbusy]
      exact behind_refl _
  · rw [exec_eq_accept hi, runWith_eq_accept unpadded hi]
    rcases accept_cases (prerequisite i) (clearedAtStart i) (bodyOf i) s with
      ⟨hdropped, ha⟩ | ⟨hr, hp, ha⟩ | ⟨hr, hp, ha⟩
    · rw [ha, accept_dropped hdropped]
      exact behind_refl s
    · rw [ha, accept_sequence hr hp]
      exact behind_refl _
    · rw [ha, accept_ready hr hp]
      exact finish_related (bodyOf_behind i _) (fun _ _ h => h) fun _ _ _ h => h

/-! ## What the reset leaves -/

section
variable {i : Instr} {s t u : State}

/-- A reset during a command: of one that was not accepted nothing is left, of one that was a part of the channels'
changes (R153). -/
theorem abandon_eq_next (h : abandon i s = .next t) :
    t = resetBlock s ∨ ∃ u, runWith unpadded i s = .next u ∧ t = resetBlock (abandonChannels s u) := by
  rw [abandon] at h
  split at h
  · cases h
    exact .inl rfl
  · split at h
    · next u hu =>
      cases h
      exact .inr ⟨u, hu, rfl⟩
    · cases h
    · cases h

/-- The sink of an abandoned command holds what it held, and a beginning of what the command would have made of it. -/
theorem abandonChannels_snk (h : runWith unpadded i s = .next u) :
    s.snk.bits <+: (abandonChannels s u).snk.bits ∧ (abandonChannels s u).snk.bits <+: u.snk.bits :=
  ⟨List.prefix_take_iff.2 ⟨(runWith_touches h).sink.grows, Nat.le_add_right _ _⟩, List.take_prefix _ _⟩

/-- A closed sink is not written by an abandoned command either. -/
theorem abandonChannels_closed (h : runWith unpadded i s = .next u) (hc : s.snk.closed = true) :
    (abandonChannels s u).snk = s.snk := by
  obtain ⟨hgrows, hbegins⟩ := abandonChannels_snk h
  rw [(runWith_touches h).sink.closed hc] at hbegins
  have hbits : (abandonChannels s u).snk.bits = s.snk.bits := hbegins.eq_of_length_le hgrows.length_le
  exact congrArg₂ Sink.mk hbits rfl

theorem abandonChannels_pos (s u : State) : (abandonChannels s u).src.pos ≤ s.src.bits.length :=
  Nat.lt_succ_iff.1 (Nat.mod_lt _ (Nat.succ_pos _))

end

end Sys2Proof.Machine

open Sys2Proof Sys2Proof.Machine

/-- Settles O3: the cut is somewhere in what the command writes without its padding, which begins what it writes. -/
theorem resetDuringCommandLeavesAPrefix : Obligations.ResetDuringCommandLeavesAPrefix := by
  intro op s t h
  rcases abandon_eq_next h with rfl | ⟨u, hu, rfl⟩
  · exact ⟨rfl, rfl, rfl, rfl, rfl, rfl, le_max_left _ _, rfl, rfl, List.prefix_rfl,
      fun v hv => (exec_touches hv).sink.grows⟩
  · obtain ⟨hgrows, hbegins⟩ := abandonChannels_snk hu
    refine ⟨rfl, rfl, rfl, rfl, rfl, rfl, (abandonChannels_pos s u).trans (le_max_right _ _), rfl, rfl, hgrows,
      fun v hv => ?_⟩
    have hbehind := runWith_unpadded_related (decodeOp op) s
    rw [hu, hv] at hbehind
    exact hbegins.trans hbehind
end

section
/-! The invariant from step to step (R11 to R18, R30), that no step is stuck, and that every command ends (R119). -/

namespace Sys2Proof.Machine

section
variable {i : Instr} {s t : State}

/-- A command keeps the invariant. -/
theorem inv_exec (hs : Inv s) (h : exec i s = .next t) : Inv t := by
  obtain ⟨hstatus, hcov, hpos, hsnk⟩ := inv_iff.1 hs
  obtain ⟨hstatus', hcov'⟩ := (exec_keeps hstatus hcov i).2 t h
  obtain ⟨-, ⟨hbits, hpos'⟩, ⟨-, hclosed, hpadded⟩, -⟩ := exec_touches h
  refine inv_iff.2 ⟨hstatus', hcov', ?_, fun hc => ?_⟩
  · rw [hbits]
    exact hpos'.trans (max_le hpos le_rfl)
  · cases ho : s.snk.closed with
    | true =>
      rw [hclosed ho]
      exact hsnk ho
    | false =>
      obtain ⟨w, hw⟩ := hpadded ho hc
      rw [hw]
      exact closedSink_whole_bytes w

/-- A reset leaves no valid flag set, and the channels as they are (R20, R147). -/
theorem inv_resetBlock (hpos : s.src.pos ≤ s.src.bits.length) (hsnk : s.snk.closed = true → s.snk.bits.length % 8 = 0) :
    Inv (resetBlock s) :=
  have hflags : validFlags (resetBlock s).status = (false, false, false) :=
    show validFlags 0x0000#16 = (false, false, false) by decide
  inv_iff.2 ⟨show StatusOk 0x0000#16 by decide, (promises_clearAll _).covered hflags, hpos, hsnk⟩

theorem inv_abandon (hs : Inv s) (h : abandon i s = .next t) : Inv t := by
  obtain ⟨-, -, hpos, hsnk⟩ := inv_iff.1 hs
  rcases abandon_eq_next h with rfl | ⟨u, hu, rfl⟩
  · exact inv_resetBlock hpos hsnk
  · refine inv_resetBlock (abandonChannels_pos s u) fun hc => ?_
    have ho : s.snk.closed = true := hc
    rw [abandonChannels_closed hu ho]
    exact hsnk ho

/-- Every action of the host keeps the invariant. -/
theorem inv_hostAct {a : HostAction} (hs : Inv s) (h : hostAct a s = .next t) : Inv t := by
  obtain ⟨hstatus, hcov, hpos, hsnk⟩ := inv_iff.1 hs
  cases a with
  | command op => exact inv_exec hs h
  | reset =>
    cases h
    exact inv_resetBlock hpos hsnk
  | resetDuring op => exact inv_abandon hs h
  | attachSource bits =>
    cases h
    exact inv_iff.2 ⟨hstatus, hcov.congr ⟨rfl, rfl⟩ rfl ⟨rfl, rfl⟩ rfl, Nat.zero_le _, hsnk⟩
  | attachSink =>
    cases h
    exact inv_iff.2 ⟨hstatus, hcov.congr ⟨rfl, rfl⟩ rfl ⟨rfl, rfl⟩ rfl, hpos, nofun⟩

/-- A command goes on, or is refused on a closed sink. -/
theorem exec_goesOn (hs : Inv s) (i : Instr) :
    (∃ t, exec i s = .next t) ∨ (exec i s = .refused .sinkClosed ∧ s.snk.closed = true) := by
  obtain ⟨hstatus, hcov, -⟩ := inv_iff.1 hs
  match h : exec i s with
  | .next t => exact .inl ⟨t, rfl⟩
  | .fault g => exact absurd h ((exec_keeps hstatus hcov i).1 g)
  | .refused r =>
    obtain ⟨rfl, hc⟩ := exec_eq_refused h
    exact .inr ⟨rfl, hc⟩

/-- A reset during a command goes on, or the command is refused. -/
theorem abandon_goesOn (hs : Inv s) (i : Instr) :
    (∃ t, abandon i s = .next t) ∨ (abandon i s = .refused .sinkClosed ∧ s.snk.closed = true) := by
  have hrelated := runWith_unpadded_related i s
  rw [abandon]
  split
  · exact .inl ⟨_, rfl⟩
  · rcases exec_goesOn hs i with ⟨t, ht⟩ | ⟨hrefused, hc⟩
    · rw [ht] at hrelated
      match h : runWith unpadded i s, hrelated with
      | .next u, _ => exact .inl ⟨_, rfl⟩
    · rw [hrefused] at hrelated
      match h : runWith unpadded i s, hrelated with
      | .refused r, hr => exact .inr ⟨congrArg _ hr, hc⟩

end

end Sys2Proof.Machine

open Sys2Proof Sys2Proof.Machine

/-- Settles O52: the host list is no part of the invariant, and each action keeps it. -/
theorem stepKeepsTheInvariant : Obligations.StepKeepsTheInvariant := by
  intro s t hs h
  rw [step] at h
  split at h
  · cases h
    exact hs
  · next rest _ => exact inv_hostAct (s := withHost s rest) hs h

/-- Settles O53: a command that does not go on is refused, and an open sink refuses nothing. -/
theorem everyCommandEnds : Obligations.EveryCommandEnds := by
  intro i s hs ho
  rcases exec_goesOn hs i with h | ⟨-, hc⟩
  · exact h
  · exact absurd (ho.symm.trans hc) (by decide)

/-- Settles O54: every action but a command, presented or abandoned, goes on by itself. -/
theorem stepGoesOnOrMeetsAClosedSink : Obligations.StepGoesOnOrMeetsAClosedSink := by
  intro s hs
  rw [step]
  split
  · exact .inl ⟨s, rfl⟩
  · next a rest _ =>
    cases a with
    | command op => exact exec_goesOn (s := withHost s rest) hs (decodeOp op)
    | resetDuring op => exact abandon_goesOn (s := withHost s rest) hs (decodeOp op)
    | _ => exact .inl ⟨_, rfl⟩
end

section
/-! What no valid flag covers cannot be observed (R20, R137): two states that agree on the rest run side by side. -/

namespace Sys2Proof.Machine

section
variable {p : Config.Params} {f t c : Bool} {s u : State} {N : Nat → Prop} {F Q C : Prop} {b d : Body}

/-! ## `Alike` as agreement -/

/-- The node entries that `TREE_VALID` covers. -/
def TreeEntry (s : State) (j : Nat) : Prop := treeValid s.status = true ∧ j < s.nnodes.toNat

/-- States that a host cannot tell apart agree on what the valid flags cover. -/
theorem sim_of_alike (h : Alike s u) :
    Sim [] [] (TreeEntry s) (freqValid s.status = true) False (codeValid s.status = true) s u := by
  obtain ⟨hstatus, ⟨hroot, hnnodes⟩, hcur, htotal, hsrc, hsnk, hhost, hfreq, hnode, hcode⟩ := h
  refine ⟨hstatus, hroot, hnnodes, hcur, htotal, hsrc, hhost, hfreq, fun j ⟨ht, hj⟩ => ?_, False.elim, hcode,
    congrArg Sink.closed hsnk, s.snk.bits, rfl, congrArg Sink.bits hsnk⟩
  rcases Nat.lt_or_ge j 513 with hlt | hge
  · rw [Vector.getElem?_eq_getElem hlt, Vector.getElem?_eq_getElem hlt]
    exact congrArg some (hnode ht ⟨j, hlt⟩ hj)
  · rw [Vector.getElem?_eq_none hge, Vector.getElem?_eq_none hge]

/-- Agreement on what the valid flags cover is enough. -/
theorem Sim.alike (h : Sim [] [] N F Q C s u) (hF : freqValid s.status = true → F) (hN : ∀ j, TreeEntry s j → N j)
    (hC : codeValid s.status = true → C) : Alike s u := by
  obtain ⟨l, hs, hu⟩ := h.appended
  refine ⟨h.status, ⟨h.root, h.nnodes⟩, h.cur, h.total, h.src, congrArg₂ Sink.mk (hu.trans hs.symm) h.closed, h.host,
    fun hf => h.freq (hF hf), fun ht i hi => ?_, fun hc => h.code (hC hc)⟩
  have hentry := h.node i.val (hN _ ⟨ht, hi⟩)
  rw [Vector.getElem?_eq_getElem i.isLt, Vector.getElem?_eq_getElem i.isLt] at hentry
  exact Option.some_inj.1 hentry

/-- The current tree stands in the entries that `TREE_VALID` covers (R18, R19). -/
theorem currentTree_of_alike (h : Alike s u) (ht : treeValid s.status = true) (hwf : TreeWF s) :
    currentTree u = currentTree s := by
  have hsim := sim_of_alike h
  have ⟨⟨_, _, hroot⟩, _, hchildren, _⟩ := hwf
  rw [currentTree, currentTree, hsim.root]
  refine treeAt_congr (fun j => j < s.nnodes.toNat) hroot (fun j hj => hsim.node j ⟨ht, hj⟩) fun j e hj he hinner => ?_
  obtain ⟨hlt, rfl⟩ := Vector.getElem?_eq_some_iff.1 he
  obtain ⟨hleft, hright, -⟩ := hchildren ⟨j, hlt⟩ hj hinner
  exact ⟨hleft, hright⟩

/-- The walk of DECODE stays in those entries (R18, R104). -/
theorem sameWalk_of_alike (h : Alike s u) (ht : treeValid s.status = true) (hwf : TreeWF s) :
    SameWalk (InnerAt s) s.node u.node := by
  have hsim := sim_of_alike h
  intro i hi
  refine ⟨hsim.node i ⟨ht, hi.1⟩, fun e he j hj => ?_⟩
  obtain ⟨hlt, d, hd, hinner⟩ := hi.child hwf he hj
  refine ⟨hsim.node _ ⟨ht, hlt⟩, fun d' hd' hleaf => ?_⟩
  obtain rfl : d = d' := Option.some_inj.1 (hd.symm.trans hd')
  exact hinner hleaf

/-! ## The bodies side by side -/

/-- What a body has done besides, to the first of the two states. -/
theorem related_and_ends {R : State → State → Prop} {P : State → Prop} (h : b.Related R d) (hb : b.Ends P) :
    b.Related (fun x y => P x ∧ R x y) d := by
  match b, d, h, hb with
  | .done _, .done _, h, hb => exact ⟨hb, h⟩
  | .raised _ _, .raised _ _, ⟨he, h⟩, hb => exact ⟨he, hb, h⟩
  | .refused _, .refused _, h, _ => exact h
  | .stuck _, .stuck _, h, _ => exact h

/-- A body that writes neither `STATUS` nor `NNODES` ends in states that are alike where the ones it began with are. -/
theorem related_alike_of_status {cols : List Column} (h : b.Related (Sim [] [] (TreeEntry s) F Q C) d)
    (hstatus : b.Ends fun x => x.status = s.status) (htouch : b.Ends (Touches p cols s)) (hcols : Column.nnodes ∉ cols)
    (hF : freqValid s.status = true → F) (hC : codeValid s.status = true → C) : b.Related Alike d := by
  refine related_mono (related_and_ends (related_and_ends h htouch) hstatus) fun x y ⟨hx, htouch, hxy⟩ => ?_
  have hnnodes : x.nnodes = s.nnodes := htouch.same .nnodes hcols
  exact hxy.alike (hx ▸ hF) (fun j hj => by rwa [TreeEntry, hx, hnnodes] at hj) (hx ▸ hC)

/-- The flags that `markFreq`, `markTree` and `markCode` leave alone, behind a body that does not write `STATUS`. -/
theorem markFreq_flags (hb : b.Ends fun x => x.status = s.status) : (b.andThen markFreq).Ends fun x =>
    treeValid x.status = treeValid s.status ∧ codeValid x.status = codeValid s.status :=
  ends_andThen hb (fun _ hx => by rw [hx]; exact ⟨rfl, rfl⟩) fun _ hx => by simp [markFreq, hx]

theorem markTree_flags (hb : b.Ends fun x => x.status = s.status) : (b.andThen markTree).Ends fun x =>
    freqValid x.status = freqValid s.status ∧ codeValid x.status = codeValid s.status :=
  ends_andThen hb (fun _ hx => by rw [hx]; exact ⟨rfl, rfl⟩) fun _ hx => by simp [markTree, hx]

theorem markCode_flags (hb : b.Ends fun x => x.status = s.status) : (b.andThen markCode).Ends fun x =>
    freqValid x.status = freqValid s.status ∧ treeValid x.status = treeValid s.status :=
  ends_andThen hb (fun _ hx => by rw [hx]; exact ⟨rfl, rfl⟩) fun _ hx => by simp [markCode, hx]

theorem countStage_alike (p : Config.Params) (hrun : Running s.status f false false) (h : Alike s u) :
    (countStage p s).Related Alike (countStage p u) := by
  refine related_mono (related_and_ends ((sim_of_alike h).countStage p) (markFreq_flags (countBody_status p s))) ?_
  rintro x y ⟨⟨htree, hcode⟩, hxy⟩
  rw [hrun.tree] at htree
  exact hxy.alike (fun _ => trivial) (fun j hj => absurd (htree.symm.trans hj.1) (by decide)) (hcode ▸ id)

theorem buildStage_alike (p : Config.Params) (hrun : Running s.status true t c) (h : Alike s u) :
    (buildStage p s).Related Alike (buildStage p u) := by
  refine related_mono (related_and_ends (((sim_of_alike h).of_freq hrun.freq).buildStage p)
    (markTree_flags (buildBody_status p s))) ?_
  rintro x y ⟨⟨-, hcode⟩, hxy⟩
  exact hxy.alike (fun _ => trivial) (fun j hj => .inr hj.2) (hcode ▸ id)

theorem gencodesStage_alike (hrun : Running s.status f true c) (hwf : TreeWF s) (h : Alike s u) :
    (gencodesStage s).Related Alike (gencodesStage u) := by
  refine related_mono (related_and_ends (related_and_ends
    ((sim_of_alike h).gencodesStage (currentTree_of_alike h hrun.tree hwf)) (gencodesStage_touches hwParams s))
    (markCode_flags (gencodesBody_status s))) ?_
  rintro x y ⟨⟨hfreq, htree⟩, htouch, hxy⟩
  have hnnodes : x.nnodes = s.nnodes := htouch.same .nnodes (by decide)
  exact hxy.alike (hfreq ▸ id) (fun j hj => by rwa [TreeEntry, htree, hnnodes] at hj) fun _ => trivial

theorem wrhdrBody_alike (p : Config.Params) (hrun : Running s.status f true c) (hwf : TreeWF s) (h : Alike s u) :
    (wrhdrBody p s).Related Alike (wrhdrBody p u) :=
  related_alike_of_status ((sim_of_alike h).wrhdrBody p (currentTree_of_alike h hrun.tree hwf)) (wrhdrBody_status p s)
    (wrhdrBody_touches p s) (by decide) id id

theorem encodeBody_alike (p : Config.Params) (hrun : Running s.status f t true) (h : Alike s u) :
    (encodeBody p s).Related Alike (encodeBody p u) :=
  related_alike_of_status (((sim_of_alike h).of_code hrun.code).encodeBody p rfl) (encodeBody_status p s)
    (encodeBody_touches p s) (by decide) id fun _ => trivial

/-- Where RDHDR sets `TREE_VALID` it has written the entries of the tree (R101). -/
theorem rdhdrStage_alike (p : Config.Params) (hrun : Running s.status f false c) (h : Alike s u) :
    (rdhdrStage p s).Related Alike (rdhdrStage p u) := by
  refine related_mono (related_and_ends ((sim_of_alike h).rdhdrStage p) (markTree_flags (rdhdrBody_status p s))) ?_
  rintro x y ⟨⟨hfreq, hcode⟩, M, hxy, -, htree⟩
  refine hxy.alike (hfreq ▸ id) (fun j hj => ?_) (hcode ▸ id)
  rcases htree with hclear | hM
  · exact absurd ((hclear.trans hrun.tree).symm.trans hj.1) (by decide)
  · exact hM j hj.2

theorem decodeBody_alike (p : Config.Params) (hrun : Running s.status f true c) (hwf : TreeWF s) (h : Alike s u) :
    (decodeBody p s).Related Alike (decodeBody p u) :=
  related_alike_of_status ((sim_of_alike h).decodeBody (sameWalk_of_alike h hrun.tree hwf) p (innerAt_root hwf) rfl)
    (decodeBody_status p s) (decodeBody_touches p s) (by decide) id id

/-! ### The composites -/

/-- Two bodies that run side by side, the first of which keeps what its flags promise. -/
structure Body.Twins (f t c : Bool) (b d : Body) : Prop where
  safe : b.Safe f t c
  alike : b.Related Alike d

theorem twins_andThen {f' t' c' : Bool} {k l : State → Body} (h : b.Twins f t c d)
    (hkl : ∀ x y, Running x.status f t c → Promises f t c x → Alike x y → (k x).Twins f' t' c' (l y)) :
    (b.andThen k).Twins f' t' c' (d.andThen l) := by
  obtain ⟨hsafe, halike⟩ := h
  match b, d, hsafe, halike with
  | .done x, .done y, ⟨hrun, hprom⟩, hxy => exact hkl x y hrun hprom hxy
  | .raised _ _, .raised _ _, hsafe, halike => exact ⟨hsafe, halike⟩
  | .refused _, .refused _, hsafe, halike => exact ⟨hsafe, halike⟩

theorem compressBody_alike (hmax : p.nMax = hwParams.nMax) (hdummy : p.dummySym.toNat ≤ 256)
    (hrun : Running s.status false false false) (h : Alike s u) :
    (compressBody p s).Related Alike (compressBody p u) := by
  have hcount : (countStage p s).Twins true false false (countStage p u) :=
    ⟨countStage_safe hmax hrun, countStage_alike p hrun h⟩
  have hbuild := twins_andThen hcount fun _ _ hr hp ha => ⟨buildStage_safe hdummy hr hp, buildStage_alike p hr ha⟩
  have hgencodes := twins_andThen hbuild fun _ _ hr hp ha =>
    ⟨gencodesStage_safe hr hp, gencodesStage_alike hr (hp.tree rfl) ha⟩
  have hwrhdr := twins_andThen hgencodes fun _ _ hr hp ha =>
    ⟨wrhdrBody_safe (p := p) hr hp, wrhdrBody_alike p hr (hp.tree rfl) ha⟩
  exact (twins_andThen hwrhdr fun _ _ hr hp ha => ⟨encodeBody_safe (p := p) hr hp, encodeBody_alike p hr ha⟩).alike

theorem decompressBody_alike (hrun : Running s.status f false false) (hprom : Promises f false false s) (h : Alike s u) :
    (decompressBody p s).Related Alike (decompressBody p u) := by
  have hrdhdr : (rdhdrStage p s).Twins f true false (rdhdrStage p u) :=
    ⟨rdhdrStage_safe hrun hprom, rdhdrStage_alike p hrun h⟩
  exact (twins_andThen hrdhdr fun _ _ hr hp ha =>
    ⟨decodeBody_safe (p := p) hr hp, decodeBody_alike p hr (hp.tree rfl) ha⟩).alike

end

/-! ## The commands side by side -/

section
variable {p : Config.Params} {i : Instr} {s u : State}

theorem alike_refl (s : State) : Alike s s :=
  ⟨rfl, ⟨rfl, rfl⟩, rfl, rfl, rfl, rfl, ⟨rfl, rfl⟩, fun _ => rfl, fun _ _ _ => rfl, fun _ => rfl⟩

/-- A start of a command sets no valid flag (R117). -/
theorem flags_bodyStart (i : Instr) (s : State) :
    (freqValid (bodyStart i s).status = true → freqValid s.status = true) ∧
      (treeValid (bodyStart i s).status = true → treeValid s.status = true) ∧
      (codeValid (bodyStart i s).status = true → codeValid s.status = true) := by
  have hcleared (w : StatusWord) : (freqValid (clearedAtStart i w) = true → freqValid w = true) ∧
      (treeValid (clearedAtStart i w) = true → treeValid w = true) ∧
      (codeValid (clearedAtStart i w) = true → codeValid w = true) := by
    cases i <;> simp [clearedAtStart, clearAll, clearTreeCode, clearCode, clearNone]
  simpa [bodyStart] using hcleared (acknowledge s).status

theorem bodyStart_alike (i : Instr) (h : Alike s u) : Alike (bodyStart i s) (bodyStart i u) := by
  obtain ⟨hfreq, htree, hcode⟩ := flags_bodyStart i s
  exact ((sim_of_alike h).bodyStart i).alike hfreq (fun _ hj => ⟨htree hj.1, hj.2⟩) hcode

theorem acknowledge_alike (h : Alike s u) : Alike (acknowledge s) (acknowledge u) :=
  (sim_of_alike h).acknowledge.alike (by simp) (fun _ hj => ⟨by simpa using hj.1, hj.2⟩) (by simp)

theorem complete_alike (h : Alike s u) : Alike (complete s) (complete u) :=
  (sim_of_alike h).complete.alike (by simp [complete]) (by simp [complete, TreeEntry]) (by simp [complete])

theorem raiseFault_alike (e : Cause) (h : Alike s u) : Alike (raiseFault e s) (raiseFault e u) :=
  ((sim_of_alike h).raiseFault e).alike (by simp [raiseFault]) (by simp [raiseFault, TreeEntry]) (by simp [raiseFault])

/-- The body of a command that a ready block accepts (R113, R117). -/
theorem bodyWith_alike (hmax : p.nMax = hwParams.nMax) (hdummy : p.dummySym.toNat ≤ 256) (hi : i ≠ .clear) (hr : Ready s)
    (hcov : Covered s) (hp : prerequisite i s.status = true) (h : Alike s u) :
    (bodyWith p i (bodyStart i s)).Related Alike (bodyWith p i (bodyStart i u)) := by
  have hprom : Promises (freqValid s.status) (treeValid s.status) (codeValid s.status) (bodyStart i s) :=
    hcov.congr ⟨rfl, rfl⟩ rfl ⟨rfl, rfl⟩ rfl
  have hstart := bodyStart_alike i h
  have hack := running_acknowledge hr
  cases i with
  | clear => exact absurd rfl hi
  | count => exact countStage_alike p (running_clearAll hr) hstart
  | build =>
    have hrun := running_clearTreeCode hr
    rw [show freqValid s.status = true from hp] at hrun
    exact buildStage_alike p hrun hstart
  | gencodes =>
    have hrun := running_clearCode hr
    rw [show treeValid s.status = true from hp] at hrun
    exact gencodesStage_alike hrun (hprom.tree hp) hstart
  | wrhdr =>
    rw [show treeValid s.status = true from hp] at hack
    exact wrhdrBody_alike p hack (hprom.tree hp) hstart
  | encode =>
    rw [show codeValid s.status = true from hp] at hack
    exact encodeBody_alike p hack hstart
  | rdhdr => exact rdhdrStage_alike p (running_clearTreeCode hr) hstart
  | decode =>
    rw [show treeValid s.status = true from hp] at hack
    exact decodeBody_alike p hack (hprom.tree hp) hstart
  | compress => exact compressBody_alike hmax hdummy (running_clearAll hr) hstart
  | decompress => exact decompressBody_alike (running_clearTreeCode hr) hprom.clearTreeCode hstart
  | _ => exact ⟨rfl, hstart⟩

theorem exec_clear_alike (h : Alike s u) : OutcomesRelated Alike (exec .clear s) (exec .clear u) := by
  have hsim := sim_of_alike h
  cases hbusy : isBusy s.status with
  | true =>
    rw [exec_clear_busy hbusy, exec_clear_busy (by rw [hsim.status]; exact hbusy)]
    exact h
  | false =>
    rw [exec_clear hbusy, exec_clear (by rw [hsim.status]; exact hbusy)]
    obtain ⟨x, hx, hword, -⟩ := clearStartsANewRun s hbusy
    cases (exec_clear hbusy).symm.trans hx
    exact hsim.acknowledge.clearBody.complete.alike (fun hf => absurd (hword ▸ hf) (by decide))
      (fun _ hj => absurd (hword ▸ hj.1) (by decide)) fun hc => absurd (hword ▸ hc) (by decide)

/-- A command answers alike in states that a host cannot tell apart. -/
theorem runWith_alike (hmax : p.nMax = hwParams.nMax) (hdummy : p.dummySym.toNat ≤ 256) (hcov : Covered s)
    (h : Alike s u) (i : Instr) : OutcomesRelated Alike (runWith p i s) (runWith p i u) := by
  by_cases hi : i = .clear
  · subst hi
    exact exec_clear_alike h
  · refine runWith_related p hi h.1 h (raiseFault_alike _ (acknowledge_alike h)) fun hr hp => ?_
    exact finish_related (bodyWith_alike hmax hdummy hi hr hcov hp h) (fun _ _ => complete_alike)
      fun e _ _ => raiseFault_alike e

/-! ## The actions of the host side by side -/

/-- What a reset leaves is made of the channels and the model's own fields (R145, R147). -/
theorem resetBlock_alike (hsrc : u.src = s.src) (hsnk : u.snk = s.snk) (hhost : SameHost s u) :
    Alike (resetBlock s) (resetBlock u) := by
  obtain ⟨hhost, hctr⟩ := hhost
  have heq : resetBlock u = resetBlock s := by
    simp only [resetBlock, withFreeCtr, withRegs, withStatus, hsrc, hsnk, hhost, hctr]
  rw [heq]
  exact alike_refl _

theorem abandon_alike (hcov : Covered s) (h : Alike s u) (i : Instr) :
    OutcomesRelated Alike (abandon i s) (abandon i u) := by
  have hrelated := runWith_alike (p := unpadded) rfl (by decide) hcov h i
  obtain ⟨hstatus, -, -, -, hsrc, hsnk, hhost, -⟩ := h
  rw [abandon, abandon, hstatus]
  split
  · exact resetBlock_alike hsrc hsnk hhost
  · match runWith unpadded i s, runWith unpadded i u, hrelated with
    | .next x, .next y, hxy =>
      obtain ⟨-, -, -, -, -, hsnk', -⟩ := hxy
      refine resetBlock_alike ?_ ?_ hhost
      · simp only [abandonChannels, withSrcPos_src, withSink_src, hsrc, hhost.2]
      · simp only [abandonChannels, withSrcPos_snk, withSink_snk, hsnk, hsnk', hhost.2]
    | .fault _, .fault _, hg => exact hg
    | .refused _, .refused _, hg => exact hg

theorem hostAct_alike (hcov : Covered s) (h : Alike s u) (a : HostAction) :
    OutcomesRelated Alike (hostAct a s) (hostAct a u) := by
  cases a with
  | command op =>
    rw [hostAct, hostAct, exec_eq, exec_eq]
    exact runWith_alike rfl (by decide) hcov h _
  | resetDuring op => exact abandon_alike hcov h _
  | reset =>
    obtain ⟨-, -, -, -, hsrc, hsnk, hhost, -⟩ := h
    exact resetBlock_alike hsrc hsnk hhost
  | attachSource bits =>
    obtain ⟨hstatus, hroot, hcur, htotal, -, hrest⟩ := h
    exact ⟨hstatus, hroot, hcur, htotal, rfl, hrest⟩
  | attachSink =>
    obtain ⟨hstatus, hroot, hcur, htotal, hsrc, -, hrest⟩ := h
    exact ⟨hstatus, hroot, hcur, htotal, hsrc, rfl, hrest⟩

theorem alikeOutcomes_of_related {o o' : Host.Outcome State Fault Refusal} (h : OutcomesRelated Alike o o') :
    AlikeOutcomes o o' := by
  match o, o', h with
  | .next _, .next _, h => exact h
  | .fault _, .fault _, h => exact h
  | .refused _, .refused _, h => exact h

end

end Sys2Proof.Machine

open Sys2Proof Sys2Proof.Machine

/-- Settles O56: no command reads a memory entry that no valid flag covers before it writes it, and a reset leaves the
same free memories in both states. -/
theorem uncoveredMemoryIsUnobservable : Obligations.UncoveredMemoryIsUnobservable := by
  intro s t hs _ h
  obtain ⟨-, hcov, -⟩ := inv_iff.1 hs
  refine alikeOutcomes_of_related ?_
  obtain ⟨hstatus, hroot, hcur, htotal, hsrc, hsnk, ⟨hhost, hctr⟩, hrest⟩ := h
  rw [step, step, hhost]
  cases hl : s.host with
  | nil => exact ⟨hstatus, hroot, hcur, htotal, hsrc, hsnk, ⟨hhost, hctr⟩, hrest⟩
  | cons a rest =>
    exact hostAct_alike (s := withHost s rest) (u := withHost t rest) (hcov.congr ⟨rfl, rfl⟩ rfl ⟨rfl, rfl⟩ rfl)
      ⟨hstatus, hroot, hcur, htotal, hsrc, hsnk, ⟨rfl, hctr⟩, hrest⟩ a
end
